-- ==== Sys2Proof/Word.lean ====
section
/-!
DEFINITION. The widths of the block (00_scope.md R9) as types, and the node of the Huffman tree (10_state.md R32).
-/
namespace Sys2Proof

/-- A symbol, or a byte of a buffer: 8 bits (R9, R10). -/
abbrev Byte := BitVec 8

/-- A host register, a frequency, entryCount, numberOfBits, a cursor: 32 bits, unsigned (R9, R37). -/
abbrev Word := BitVec 32

/-- A node's weight: 40 bits, unsigned (R9, R149). -/
abbrev Weight := BitVec 40

/-- The index of a node in the arena: 9 bits, values 0 to 510 (R9). -/
abbrev NodeIx := BitVec 9

/-- The number of a micro-operation, or 0 for none and dispatch: 4 bits (30_encoding.md R105). -/
abbrev PhaseNum := BitVec 4

/-- A bit string, first bit first; `false` is the bit 0 (00_scope.md section 6). -/
abbrev Bits := List Bool

/-- A buffer's written bytes: (index, byte) pairs, the indices strictly rising. -/
abbrev Memory := List Host.Cell

/-- The Huffman Node, a tagged union (R32). -/
inductive Node where
  | leaf (sym : Byte) (weight : Weight)
  | internal (weight : Weight) (left right : NodeIx)
deriving DecidableEq, Repr, Inhabited

/-- The weight of either variant (R32). -/
def Node.weight : Node → Weight
  | .leaf _ w => w
  | .internal w _ _ => w

/-- An entry of the priority queue: a node's index and its weight (40_priority_queue.md R130). -/
structure Entry where
  weight : Weight
  node   : NodeIx
deriving DecidableEq, Repr, Inhabited

end Sys2Proof
end

