-- ==== Sys2Proof/Config.lean ====
section
/-!
DEFINITION. The two open parameters (00_scope.md R7, R8) and the free values: what the spec leaves open is a constant with
no body, so that no proof can lean on a value of it.
-/
namespace Sys2Proof

/-- The capacities of the two buffers, within the ranges R7 and R8 give them (93_implementation_defined.md U20). -/
structure Params where
  inMax   : Nat
  outMax  : Nat
  inMin   : 1 ≤ inMax
  inTop   : inMax ≤ 2 ^ 24
  outMin  : 14 ≤ outMax
  outTop  : outMax < 2 ^ 32
deriving DecidableEq, Repr

namespace Config

/-- IN_MAX less 1: any value, so that IN_MAX is any of 1 to 2^24 (R7). -/
opaque inMaxPred : Fin 16777216

/-- OUT_MAX less 14: any value, so that OUT_MAX is any of 14 to 2^32 - 1 (R8). -/
opaque outMaxPred : Fin 4294967282

/-- The parameters of the machine at State.reset: nothing is known of them but their ranges (log 1). -/
def params : Params where
  inMax  := inMaxPred.val + 1
  outMax := outMaxPred.val + 14
  inMin  := by omega
  inTop  := by have := inMaxPred.isLt; omega
  outMin := by omega
  outTop := by have := outMaxPred.isLt; omega

/-- The byte at an index of INBUF that nothing has written since reset number `epoch`: any value, the same at every read
(93_implementation_defined.md U8; log 2). -/
opaque unwrittenInput (epoch index : Nat) : Byte

/-- What a host read of OUTBUF at or above OUT_LEN returns: any value, a fresh one at every read (U14; log 3). -/
opaque undefinedOutput (draw : Nat) : Byte

/-- How many host accesses are made before the engine's next move while BUSY = 1: any number (U17; log 6). -/
opaque hostSlots (draw : Nat) : Nat

/-- Whether a command runs micro-operation by micro-operation; if not, as one transition (46_codec_engine.md R240; log 6). -/
opaque runsBySteps (draw : Nat) : Bool

/-- What an element of NODE at or above NODE_COUNT holds: not defined (10_state.md R32; log 12). -/
opaque undefinedNode (draw : Nat) (index : NodeIx) : Node

/-- Where a walk goes from a node that has no child, in an arena that is no tree (log 12). -/
opaque undefinedChild (draw : Nat) (index : NodeIx) : NodeIx

/-- The code GEN_CODES gives a symbol when the arena is no tree (log 12). -/
opaque undefinedCode (draw : Nat) (sym : Byte) : Bits

end Config

end Sys2Proof
end

