-- ==== Sys2Proof/Machine/Access.lean ====
section
/-!
DEFINITION. What the host can do to the block (20_memory.md R61, R62; 30_encoding.md R107, R108; 70_reset_and_hazards.md R300),
and what it sees.
-/
namespace Sys2Proof.Machine

/-- One event at the block's interface. -/
inductive Access where
  /-- RegRead: a read of `width` bits at byte offset `off` of the register space (R61). -/
  | regRead (width off : Nat)
  /-- RegWrite: a write of `width` bits at byte offset `off` of the register space (R61). -/
  | regWrite (width off : Nat) (v : Word)
  /-- InWrite (R62). -/
  | inWrite (i : Nat) (b : Byte)
  /-- InRead (R62). -/
  | inRead (i : Nat)
  /-- OutRead (R62). -/
  | outRead (i : Nat)
  /-- POLL (R107). With `thenResult`, the last lines of the macros of R108 follow: the result if ERR = 0, else ERR_INFO. -/
  | poll (thenResult : Bool)
  /-- `RDREG OUT_LEN -> n ; RDOUT 0, n` (R108). -/
  | readResult
  /-- The reset input is applied (R300, R301). -/
  | reset
deriving DecidableEq, Repr

/-- A value that a host read returned. -/
inductive Seen where
  | reg (off : Nat) (v : Word)
  | inByte (i : Nat) (b : Byte)
  | outByte (i : Nat) (b : Byte)
deriving DecidableEq, Repr

/-- A register access has a meaning when it is 32 bits wide, 4-byte aligned and inside the 32-byte space (10_state.md
R27, 20_memory.md R61, R67). -/
def regAccessOk (width off : Nat) : Bool := width == 32 && off % 4 == 0 && decide (off < 32)

end Sys2Proof.Machine
end

