-- ==== Sys2Proof/Syntax.lean ====
section
/-!
DEFINITION. The instruction set: the two host commands and the nine micro-operations (30_encoding.md R92, R105), one
constructor for each row of spec/opcode_table.json. No row has an operand field: the operands are implicit (R91, R106).
-/
namespace Sys2Proof

inductive Instr where
  /-- COMPRESS (46_codec_engine.md R234) -/
  | compress
  /-- DECOMPRESS (46_codec_engine.md R235) -/
  | decompress
  /-- FREQ_SCAN (46_codec_engine.md R233) -/
  | freqScan
  /-- PQ_PUSH (40_priority_queue.md R132) -/
  | pqPush
  /-- PQ_POP_MIN (40_priority_queue.md R133) -/
  | pqPopMin
  /-- BUILD_TREE (41_tree_builder.md R140) -/
  | buildTree
  /-- GEN_CODES (42_code_table.md R160) -/
  | genCodes
  /-- ENCODE (43_encoder.md R170) -/
  | encode
  /-- SERIALIZE (45_container.md R200) -/
  | serialize
  /-- DESERIALIZE (45_container.md R203) -/
  | deserialize
  /-- DECODE (44_decoder.md R186) -/
  | decode
deriving DecidableEq, Repr

end Sys2Proof
end

