-- ==== Sys2Proof/WellFormed.lean ====
section
/-!
DEFINITION. Well-formedness: which of the two encodings an instruction belongs to (30_encoding.md R92, R105), and which host
accesses the spec gives a meaning (10_state.md R27, 20_memory.md R62, 93_implementation_defined.md U9).
-/
namespace Sys2Proof

/-- The two places an instruction's number stands in: the CMD word, and PHASE (R90). -/
inductive Slot where
  | cmd
  | phase
deriving DecidableEq, Repr

/-- The place of each instruction. "The host cannot issue a micro-operation; only the two commands run them." (R105) -/
def Instr.slot : Instr → Slot
  | .compress => .cmd
  | .decompress => .cmd
  | .freqScan => .phase
  | .pqPush => .phase
  | .pqPopMin => .phase
  | .buildTree => .phase
  | .genCodes => .phase
  | .encode => .phase
  | .serialize => .phase
  | .deserialize => .phase
  | .decode => .phase

/-- An instruction is well formed in the place its encoding puts it, and in no other. -/
def Instr.wellFormed (sl : Slot) (i : Instr) : Bool := decide (i.slot = sl)

namespace Machine

/-- The accesses the spec gives a meaning, for a block with capacities `p` (R27, R62, U9). -/
def Access.wellFormed (p : Params) : Access → Bool
  | .regRead width off => regAccessOk width off
  | .regWrite width off _ => regAccessOk width off
  | .inWrite i _ => decide (i < p.inMax)
  | .inRead i => decide (i < p.inMax)
  | .outRead i => decide (i < p.outMax)
  | .poll _ => true
  | .readResult => true
  | .reset => true

end Machine

end Sys2Proof
end

