-- ==== Sys2Proof/Decode.lean ====
section
/-!
DEFINITION. The decoder and, after it, the encoder: the CMD word (30_encoding.md R91 to R93) and the micro-operation numbers
(R105). An instruction's bits are numbered as spec/opcode_table.json numbers them.
-/
namespace Sys2Proof

/-- Why the decoder refuses. -/
inductive Reject where
  /-- A CMD word that is not legal (R93): the engine raises IllegalCommandError for it. -/
  | illegalCommand (w : Word)
  /-- Number 0: no micro-operation, or dispatch (R105). -/
  | noOperation
  /-- Numbers 0xA to 0xF, "never taken by PHASE" (R105). -/
  | reservedNumber (p : PhaseNum)
  /-- Bytes that are neither a CMD word (4) nor a micro-operation number (1). -/
  | length (n : Nat)
  /-- A byte that is wider than the 4-bit micro-operation number. -/
  | wideNumber (b : Byte)
deriving DecidableEq, Repr

/-- The CMD word: "The whole 32-bit word is decoded." (R92) -/
def decodeCmd (w : Word) : Except Reject Instr :=
  if w = 0x00000001#32 then .ok .compress
  else if w = 0x00000002#32 then .ok .decompress
  else .error (.illegalCommand w)

/-- The micro-operation number (R105). -/
def decodePhase (p : PhaseNum) : Except Reject Instr :=
  if p = 0x0#4 then .error .noOperation
  else if p = 0x1#4 then .ok .freqScan
  else if p = 0x2#4 then .ok .pqPush
  else if p = 0x3#4 then .ok .pqPopMin
  else if p = 0x4#4 then .ok .buildTree
  else if p = 0x5#4 then .ok .genCodes
  else if p = 0x6#4 then .ok .encode
  else if p = 0x7#4 then .ok .serialize
  else if p = 0x8#4 then .ok .deserialize
  else if p = 0x9#4 then .ok .decode
  else .error (.reservedNumber p)

/-- Total on any bytes: four bytes are a CMD word with its bits 7:0 first, one byte is a micro-operation number in its low
four bits (log 16). -/
def decode : List Byte → Except Reject Instr
  | [b] => if b.toNat < 16 then decodePhase (b.setWidth 4) else .error (.wideNumber b)
  | [b0, b1, b2, b3] => decodeCmd (b3 ++ b2 ++ b1 ++ b0)
  | bs => .error (.length bs.length)

/-- The CMD word of a command (R92). -/
def Instr.cmdWord : Instr → Option Word
  | .compress => some 0x00000001#32
  | .decompress => some 0x00000002#32
  | .freqScan | .pqPush | .pqPopMin | .buildTree | .genCodes | .encode | .serialize | .deserialize | .decode => none

/-- The number of a micro-operation (R105). -/
def Instr.phaseNumber : Instr → Option PhaseNum
  | .compress | .decompress => none
  | .freqScan => some 0x1#4
  | .pqPush => some 0x2#4
  | .pqPopMin => some 0x3#4
  | .buildTree => some 0x4#4
  | .genCodes => some 0x5#4
  | .encode => some 0x6#4
  | .serialize => some 0x7#4
  | .deserialize => some 0x8#4
  | .decode => some 0x9#4

/-- The bytes of an instruction, in the place its encoding puts it. -/
def encode (i : Instr) : List Byte :=
  match i.cmdWord, i.phaseNumber with
  | some w, _ => [w.extractLsb' 0 8, w.extractLsb' 8 8, w.extractLsb' 16 8, w.extractLsb' 24 8]
  | none, some p => [p.setWidth 8]
  | none, none => []

/-- The bytes of an instruction whose bits are `w`, of which the table gives `nbits`: a row of at most one byte is a
micro-operation number, a longer one a CMD word (log 16). -/
def tableBytes (nbits w : Nat) : List Byte :=
  if nbits ≤ 8 then [BitVec.ofNat 8 w]
  else [BitVec.ofNat 8 w, BitVec.ofNat 8 (w / 2 ^ 8), BitVec.ofNat 8 (w / 2 ^ 16), BitVec.ofNat 8 (w / 2 ^ 24)]

/-- The instruction the decoder reads from bits numbered as spec/opcode_table.json numbers them. -/
def decodeTableWord (nbits w : Nat) : Option Instr :=
  match decode (tableBytes nbits w) with
  | .ok i => some i
  | .error _ => none

end Sys2Proof
end

