-- ==== Sys2Proof/Machine/State.lean ====
section
/-!
DEFINITION. The state of the block (10_state.md), the reasons a step can stop, and the state after reset (R46).
-/
namespace Sys2Proof.Machine

/-- Why the machine stops: an engine access outside the precondition 20_memory.md R76 gives it. No fault of the block is among
these: the nine errors of 60_exceptions.md R260 are recorded in STATUS and the machine goes on. -/
inductive Fault where
  /-- Raised by MemRead of an index that is not below both IN_LEN and IN_MAX. "the engine never reads outside INBUF and never
  reads a byte at or above IN_LEN" (R76): no command meets it. Safe: the model stops (log 13). -/
  | readOutsideInput (index : Nat)
  /-- Raised by MemWrite that would pass OUT_MAX. "every rule that uses it first ensures a + n <= OUT_MAX" (R76): no
  instruction meets it. Safe: the model stops (log 13). -/
  | writeOutsideOutput (index : Nat)
deriving DecidableEq, Repr

/-- Why the model gives a step no meaning. -/
inductive Refusal where
  /-- Raised by exec's arm of an instruction that has no meaning yet. Safe: the model stops. -/
  | notModelled (mnemonic : String)
  /-- Raised by PQ_PUSH of an index already queued: "no defined result", treatment "refuse" (93_implementation_defined.md U19).
  BUILD_TREE never does it. Safe: the model stops (log 14). -/
  | pushQueuedNode (n : NodeIx)
  /-- Raised by PQ_PUSH into a queue of 256 entries (U19). BUILD_TREE never does it. Safe: the model stops (log 14). -/
  | pushFullQueue
  /-- Raised by a host register access that is not 32 bits wide, not 4-byte aligned or beyond 0x1F: "a model refuses them"
  (R27, U9). Safe: the model stops. -/
  | registerAccess (width off : Nat)
  /-- Raised by InWrite and InRead at or above IN_MAX: "a model refuses it" (20_memory.md R62, U9). Safe: the model stops. -/
  | inputIndex (i : Nat)
  /-- Raised by OutRead at or above OUT_MAX (R62, U9). Safe: the model stops. -/
  | outputIndex (i : Nat)
  /-- Raised by an engine step whose PHASE is 0xA to 0xF: "never taken by PHASE" (30_encoding.md R105). Safe: the model stops. -/
  | reservedPhase (p : PhaseNum)
deriving DecidableEq, Repr

/-- The STATUS register (R23). The reserved bits have no storage: they read 0. -/
structure Status where
  busy    : Bool
  done    : Bool
  err     : Bool
  errCode : BitVec 4
  ephase  : PhaseNum
deriving DecidableEq, Repr

/-- The state of the block, and the model's own fields after it (INVENTORY.md, '## State'). -/
structure State where
  /-- IN_MAX and OUT_MAX (R47: configuration, carried unchanged; log 1) -/
  params       : Params
  /-- STATUS (R23) -/
  status       : Status
  /-- IN_LEN (R24) -/
  inLen        : Word
  /-- OUT_LEN (R25) -/
  outLen       : Word
  /-- ERR_INFO (R26) -/
  errInfo      : Word
  /-- INBUF (R28): the bytes that have been written -/
  inbuf        : Memory
  /-- OUTBUF (R29): the bytes that have been written -/
  outbuf       : Memory
  /-- FREQ (R30) -/
  freq         : Vector Word 256
  /-- CODE (R31) -/
  code         : Vector Bits 256
  /-- NODE (R32): the elements below NODE_COUNT, which is the list's length (log 11) -/
  node         : List Node
  /-- ROOT (R33) -/
  root         : NodeIx
  /-- PQ (R34): a finite set, held as a list in rising order of the key of R131; PQ_COUNT is its length (log 10, 11) -/
  pq           : List Entry
  /-- BITS (R35) -/
  bits         : Bits
  /-- NBITS (R35) -/
  nbits        : Word
  /-- ECOUNT (R36) -/
  ecount       : Word
  /-- PAY_OFF (R36) -/
  payOff       : Word
  /-- IN_POS (R37) -/
  inPos        : Word
  /-- OUT_POS (R37) -/
  outPos       : Word
  /-- BIT_POS (R37) -/
  bitPos       : Word
  /-- CUR (R37) -/
  cur          : NodeIx
  /-- EMITTED (R37) -/
  emitted      : Word
  /-- EXPECTED (R37) -/
  expected     : Weight
  /-- PHASE (R38) -/
  phase        : PhaseNum
  /-- OP (R38) -/
  op           : Word
  /-- the operand `n` of PQ_PUSH, a value in working state (R106; log 7) -/
  pushNode     : NodeIx
  /-- the operand `w` of PQ_PUSH (R106; log 7) -/
  pushWeight   : Weight
  /-- the result `n` of PQ_POP_MIN (R133; log 7) -/
  popNode      : NodeIx
  /-- the result `w` of PQ_POP_MIN (R133; log 7) -/
  popWeight    : Weight
  /-- the caller's number that PQ_PUSH and PQ_POP_MIN restore (R105; log 8) -/
  callerPhase  : PhaseNum
  /-- the host accesses still to be made, in program order (R47, R72; log 6) -/
  host         : List Access
  /-- what the host's reads returned, newest first (log 6) -/
  seen         : List Seen
  /-- how many host accesses are made before the engine's next move (R307; log 6) -/
  slots        : Nat
  /-- whether the running command goes micro-operation by micro-operation (R240; log 6) -/
  bySteps      : Bool
  /-- the counter free values are drawn with (log 4) -/
  draws        : Nat
  /-- how many resets have happened (log 2) -/
  epoch        : Nat
deriving DecidableEq, Repr

/-- NODE_COUNT (R32). -/
def State.nodeCount (s : State) : Nat := s.node.length

/-- PQ_COUNT: "PQ_COUNT = |PQ|" (R34). -/
def State.pqCount (s : State) : Nat := s.pq.length

/-- The machine right after reset (R46, 70_reset_and_hazards.md R300): STATUS, IN_LEN, OUT_LEN, ERR_INFO and PHASE are 0, no
byte of a buffer is listed, and what the spec leaves unspecified has the value log 5 names. -/
def State.reset : State where
  params       := Config.params
  status       := { busy := false, done := false, err := false, errCode := 0#4, ephase := 0#4 }
  inLen        := 0#32
  outLen       := 0#32
  errInfo      := 0#32
  inbuf        := []
  outbuf       := []
  freq         := Vector.replicate 256 0#32
  code         := Vector.replicate 256 []
  node         := []
  root         := 0#9
  pq           := []
  bits         := []
  nbits        := 0#32
  ecount       := 0#32
  payOff       := 0#32
  inPos        := 0#32
  outPos       := 0#32
  bitPos       := 0#32
  cur          := 0#9
  emitted      := 0#32
  expected     := 0#40
  phase        := 0#4
  op           := 0#32
  pushNode     := 0#9
  pushWeight   := 0#40
  popNode      := 0#9
  popWeight    := 0#40
  callerPhase  := 0#4
  host         := []
  seen         := []
  slots        := 0
  bySteps      := false
  draws        := 0
  epoch        := 0

end Sys2Proof.Machine
end

