-- ==== Sys2Proof/Machine/Flags.lean ====
section
/-!
DEFINITION. STATUS: its word (10_state.md R23), the flags BUSY, DONE and ERR with every value a rule gives them (R39), and the
error codes (60_exceptions.md R260). "These three flags are all the flags the hardware has" (R23).
-/
namespace Sys2Proof.Machine

/-- The nine faults of the block (R260). -/
inductive ErrCode where
  | emptyInput
  | emptyTable
  | truncatedStream
  | corruptStream
  | unmappedSymbol
  | invalidBit
  | emptyQueue
  | capacity
  | illegalCommand
deriving DecidableEq, Repr

/-- ERR_CODE (R260). -/
def ErrCode.code : ErrCode → BitVec 4
  | .emptyInput => 1#4
  | .emptyTable => 2#4
  | .truncatedStream => 3#4
  | .corruptStream => 4#4
  | .unmappedSymbol => 5#4
  | .invalidBit => 6#4
  | .emptyQueue => 7#4
  | .capacity => 8#4
  | .illegalCommand => 9#4

/-- STATUS as a 32-bit word: BUSY 0, DONE 1, ERR 2, ERR_CODE 7:4, EPHASE 11:8, the rest 0 (R23). -/
def Status.word (st : Status) : Word :=
  (0#20 ++ st.ephase ++ st.errCode ++ 0#1 ++ BitVec.ofBool st.err ++ BitVec.ofBool st.done ++ BitVec.ofBool st.busy).setWidth 32

/-- After reset and before the first command (R23, R46). -/
def Status.idle : Status := { busy := false, done := false, err := false, errCode := 0#4, ephase := 0#4 }

/-- From the start of a command until its end (R23, 46_codec_engine.md R231). -/
def Status.running : Status := { busy := true, done := false, err := false, errCode := 0#4, ephase := 0#4 }

/-- After a success (R236). -/
def Status.succeeded : Status := { busy := false, done := true, err := false, errCode := 0#4, ephase := 0#4 }

/-- After a fault `e` raised while PHASE was `p` (R270). -/
def Status.failed (e : ErrCode) (p : PhaseNum) : Status :=
  { busy := false, done := true, err := true, errCode := e.code, ephase := p }

end Sys2Proof.Machine
end

