-- ==== Sys2Proof/Machine/Operands.lean ====
section
/-!
DEFINITION. The operand forms and the pure functions of the rules: symbols, node indices and weights (30_encoding.md R106),
32-bit container fields (20_memory.md R63), bits and bytes (43_encoder.md R172, 44_decoder.md R185), the queue's key
(40_priority_queue.md R131).
-/
namespace Sys2Proof.Machine

/-! ## Symbols -/

/-- A symbol indexes the 256-entry files directly (R106). -/
theorem symbol_lt (b : Byte) : b.toNat < 256 := b.isLt

/-- "for s in 0 .. 255 ascending" -/
def symbols : List Byte := (List.range 256).map (BitVec.ofNat 8)

/-- FREQ[s] -/
def State.freqAt (s : State) (sym : Byte) : Word := s.freq[sym.toNat]'(symbol_lt sym)

/-- FREQ[s] with one element replaced -/
def setFreq (freq : Vector Word 256) (sym : Byte) (v : Word) : Vector Word 256 := freq.set sym.toNat v (symbol_lt sym)

/-- CODE[s] -/
def State.codeAt (s : State) (sym : Byte) : Bits := s.code[sym.toNat]'(symbol_lt sym)

/-- CODE with one element replaced -/
def setCode (code : Vector Bits 256) (sym : Byte) (c : Bits) : Vector Bits 256 := code.set sym.toNat c (symbol_lt sym)

/-- A symbol is present "exactly when FREQ[s] != 0" (10_state.md R30). -/
def State.present (s : State) (sym : Byte) : Bool := s.freqAt sym != 0#32

/-- The present symbols in ascending value (41_tree_builder.md R141). -/
def State.alphabet (s : State) : List Byte := symbols.filter s.present

/-- The frequency table with every count 0 -/
def zeroFreq : Vector Word 256 := Vector.replicate 256 0#32

/-- The code table with every code empty -/
def noCodes : Vector Bits 256 := Vector.replicate 256 []

/-- A code table given by a function of the symbol -/
def codesOf (f : Byte → Bits) : Vector Bits 256 := symbols.foldl (fun c sym => setCode c sym (f sym)) noCodes

/-- "sum over s in 0 .. 255 of zext_40(FREQ[s])", a 40-bit sum (44_decoder.md R186). -/
def State.freqSum (s : State) : Weight := symbols.foldl (fun acc sym => acc + (s.freqAt sym).setWidth 40) 0#40

/-! ## 32-bit container fields -/

/-- BE32: a 32-bit field as four bytes, most significant first (R63). -/
def be32Bytes (v : Word) : List Byte :=
  [v.extractLsb' 24 8, v.extractLsb' 16 8, v.extractLsb' 8 8, v.extractLsb' 0 8]

/-- be32: the value of a field read from four bytes at ascending offsets (R63, R96). -/
def be32 (b0 b1 b2 b3 : Byte) : Word := b0 ++ b1 ++ b2 ++ b3

/-- ceil(n / 8) (00_scope.md section 6) -/
def ceil8 (n : Nat) : Nat := (n + 7) / 8

/-! ## Bits and bytes -/

/-- The byte that holds bit `i` of a packed bit string (R64, R106). -/
def byteOffset (i : Nat) : Nat := i / 8

/-- The place of bit `i` in that byte: "most-significant-bit first" (R64, R106). -/
def bitNumber (i : Nat) : Nat := 7 - i % 8

/-- Bit `i` of a packed bit string, given the byte that holds it (R185). -/
def bitOf (b : Byte) (i : Nat) : Bool := b.getLsbD (bitNumber i)

/-- Payload byte `j`: the sum over k of B'[8j + k] * 2^(7 - k), B' being B and zeros after it (R172). -/
def packByte (bs : Bits) (j : Nat) : Byte :=
  BitVec.ofNat 8 (((List.range 8).map fun k => (bs.getD (8 * j + k) false).toNat * 2 ^ (7 - k)).sum)

/-- PackBits (R172). -/
def packBits (bs : Bits) : List Byte := (List.range (ceil8 bs.length)).map (packByte bs)

/-- PAYLOAD (10_state.md R35) -/
def State.payload (s : State) : List Byte := packBits s.bits

/-! ## Nodes and queue entries -/

/-- The node index of the arena's next element: NODE_COUNT as a node index. -/
def State.nextNode (s : State) : NodeIx := BitVec.ofNat 9 s.nodeCount

/-- NODE[i]; at or above NODE_COUNT it is not defined and is a free value (R32; log 12). -/
def State.nodeAt (s : State) (i : NodeIx) : Node := (s.node[i.toNat]?).getD (Config.undefinedNode s.draws i)

/-- The children of a node have smaller indices than the node (41_tree_builder.md R147). -/
def childrenBelow (i : Nat) : Node → Bool
  | .leaf _ _ => true
  | .internal _ l r => decide (l.toNat < i) && decide (r.toNat < i)

/-- The arena is one that a walk from ROOT ends in: ROOT is defined and every child lies below its parent (10_state.md R42,
R147). BUILD_TREE makes no other (log 12). -/
def State.arenaOk (s : State) : Bool :=
  decide (s.root.toNat < s.nodeCount) && s.node.zipIdx.all fun ni => childrenBelow ni.2 ni.1

/-- The key's order: `w1 < w2`, or `w1 = w2` and `n1 < n2`; unsigned (R131, R149). -/
def keyBefore (a b : Entry) : Bool :=
  decide (a.weight.toNat < b.weight.toNat) || (a.weight == b.weight && decide (a.node.toNat < b.node.toNat))

/-- The entry with the least key (R133). -/
def leastEntry : List Entry → Option Entry
  | [] => none
  | e :: es =>
    match leastEntry es with
    | none => some e
    | some m => if keyBefore e m then some e else some m

/-- The set with one entry added, in rising order of the key (R132; log 10). -/
def insertEntry (e : Entry) : List Entry → List Entry
  | [] => [e]
  | x :: xs => if keyBefore e x then e :: x :: xs else x :: insertEntry e xs

end Sys2Proof.Machine
end

