-- ==== Sys2Proof/Machine/Ops.lean ====
section
/-!
DEFINITION. The shared operations: the buffers and the engine's accesses to them (20_memory.md R76), taking a fault
(60_exceptions.md R270) and, beside it, the start of a command, which is all the return from a fault there is (R273,
46_codec_engine.md R231), and the successful end (R236).
-/
namespace Sys2Proof.Machine

/-! ## Buffers -/

/-- The canonical form of a buffer: the indices of its written bytes strictly rising. An unlisted index reads as nothing, so no
entry can equal it (log 2). -/
abbrev Memory.wf (m : Memory) : Prop := m.Pairwise fun x y => x.1 < y.1

/-- The byte written at index `a`, if one has been written. -/
def Memory.read? : Memory → Nat → Option Byte
  | [], _ => none
  | (k, v) :: m, a => if a = k then some v else Memory.read? m a

/-- The buffer with byte `b` at index `a`. -/
def Memory.write : Memory → Nat → Byte → Memory
  | [], a, b => [(a, b)]
  | (k, v) :: m, a, b =>
    if a < k then (a, b) :: (k, v) :: m
    else if a = k then (a, b) :: m
    else (k, v) :: Memory.write m a b

/-- The buffer with the bytes `bs` at ascending indices from `a`. -/
def Memory.writeBytes (m : Memory) (a : Nat) : List Byte → Memory
  | [] => m
  | b :: bs => Memory.writeBytes (Memory.write m a b) (a + 1) bs

/-- INBUF[a]; a byte nothing has written is a free value, the same at every read (10_state.md R28, R46; U8; log 2). -/
def State.inByte (s : State) (a : Nat) : Byte := (Memory.read? s.inbuf a).getD (Config.unwrittenInput s.epoch a)

/-! ## How a run of pseudocode ends -/

/-- Why a run of pseudocode goes no further. -/
inductive Halt where
  /-- a fault of the block has ended the command; the machine goes on from this state (R270) -/
  | ended (s : State)
  /-- the machine stops -/
  | fault (f : Fault)
  /-- the model gives no meaning -/
  | refused (r : Refusal)

/-- A run of pseudocode: it comes to its end, or it halts and "no later line of any pseudocode runs" (R270). -/
abbrev Run := Except Halt

/-- The outcome of an instruction. The state a fault of the block leaves is a next state. -/
def Run.outcome : Run State → Host.Outcome State Fault Refusal
  | .ok s => .next s
  | .error (.ended s) => .next s
  | .error (.fault f) => .fault f
  | .error (.refused r) => .refused r

/-! ## Taking a fault, and what ends it -/

/-- Fault entry (R270): OUT_LEN, ERR_INFO and STATUS are written, EPHASE being PHASE; PHASE goes to 0; nothing else changes. -/
def takeFault (e : ErrCode) (info : Word) (s : State) : State :=
  { s with
    outLen  := 0#32
    errInfo := info
    status  := Status.failed e s.phase
    phase   := 0#4 }

/-- `raise E(info)` (00_scope.md section 7). -/
def raise {α : Type} (e : ErrCode) (info : Word) (s : State) : Run α := .error (.ended (takeFault e info s))

/-- The working state that "does not cross commands" (10_state.md R41). ROOT is not among it. -/
def clearWorking (s : State) : State :=
  { s with
    freq        := zeroFreq
    code        := noCodes
    node        := []
    pq          := []
    bits        := []
    nbits       := 0#32
    ecount      := 0#32
    payOff      := 0#32
    inPos       := 0#32
    outPos      := 0#32
    bitPos      := 0#32
    cur         := 0#9
    emitted     := 0#32
    expected    := 0#40
    pushNode    := 0#9
    pushWeight  := 0#40
    popNode     := 0#9
    popWeight   := 0#40
    callerPhase := 0#4 }

/-- Command start (R231): what a CMD write of `v` does while BUSY = 0. It is also what ends the report of a fault: "the next CMD
write, which clears it"; "there is no separate acknowledge or return operation" (R273). -/
def startCommand (v : Word) (s : State) : State :=
  { clearWorking s with
    op      := v
    status  := Status.running
    outLen  := 0#32
    errInfo := 0#32
    phase   := 0#4 }

/-- The successful end of a command (R236). -/
def finishCommand (len : Word) (s : State) : State :=
  { s with
    outLen  := len
    errInfo := 0#32
    status  := Status.succeeded
    phase   := 0#4 }

/-! ## The engine's accesses -/

/-- MemRead(IN, a, 1) (R76): INBUF[a], for `a` below IN_LEN and IN_MAX (log 13). -/
def memRead (s : State) (a : Nat) : Run Byte :=
  if a < s.inLen.toNat ∧ a < s.params.inMax then .ok (s.inByte a) else .error (.fault (.readOutsideInput a))

/-- be32(MemRead(IN, a, 4)) (R76, R96). -/
def memReadWord (s : State) (a : Nat) : Run Word := do
  let b0 ← memRead s a
  let b1 ← memRead s (a + 1)
  let b2 ← memRead s (a + 2)
  let b3 ← memRead s (a + 3)
  return be32 b0 b1 b2 b3

/-- MemWrite(OUT, a, n, v) (R76), for `a + n` at most OUT_MAX (log 13). -/
def memWrite (a : Nat) (bs : List Byte) (s : State) : Run State :=
  if a + bs.length ≤ s.params.outMax then .ok { s with outbuf := Memory.writeBytes s.outbuf a bs }
  else .error (.fault (.writeOutsideOutput a))

/-- The move to micro-operation `p` (`PHASE <- p`, 00_scope.md section 7). -/
def setPhase (p : PhaseNum) (s : State) : State := { s with phase := p }

end Sys2Proof.Machine
end

