-- ==== Sys2Proof/Machine/Codes.lean ====
section
/-!
DEFINITION. The code-table generator: GEN_CODES (42_code_table.md).
-/
namespace Sys2Proof.Machine

/-- walk(n, p) (R160): "left edge = bit 0, right edge = bit 1". A child lies below its parent, so `depth` above the index of the
node is enough. -/
def walk (nodes : List Node) : Nat → NodeIx → Bits → Vector Bits 256 → Vector Bits 256
  | 0, _, _, code => code
  | depth + 1, n, p, code =>
    match nodes[n.toNat]? with
    | some (.leaf sym _) => setCode code sym p
    | some (.internal _ l r) => walk nodes depth r (p ++ [true]) (walk nodes depth l (p ++ [false]) code)
    | none => code

/-- The code table of a tree (R160, R161): the root's own code is "0" when the root is a leaf. -/
def treeCodes (nodes : List Node) (root : NodeIx) : Vector Bits 256 :=
  match nodes[root.toNat]? with
  | some (.leaf sym _) => setCode noCodes sym [false]
  | _ => walk nodes nodes.length root [] noCodes

/-- GEN_CODES (R160). Where the arena is no tree the spec states no code, and every code is a free value (log 12). -/
def genCodes (s : State) : Run State :=
  let s := setPhase 0x5#4 s
  if s.arenaOk then .ok { s with code := treeCodes s.node s.root }
  else .ok { s with code := codesOf (Config.undefinedCode s.draws), draws := s.draws + 1 }

/-- GEN_CODES, micro-operation 0x5 (R160). -/
def execGenCodes (s : State) : Host.Outcome State Fault Refusal := Run.outcome (genCodes s)

end Sys2Proof.Machine
end

