-- ==== Sys2Proof/Machine/Container.lean ====
section
/-!
DEFINITION. The container writer and reader: SERIALIZE and DESERIALIZE (45_container.md; the layout is 30_encoding.md R95).
-/
namespace Sys2Proof.Machine

/-! ## SERIALIZE -/

/-- Writes bytes at OUT_POS and moves OUT_POS past them (R200). -/
def putBytes (bs : List Byte) (s : State) : Run State := do
  let s ← memWrite s.outPos.toNat bs s
  return { s with outPos := s.outPos + BitVec.ofNat 32 bs.length }

/-- One entry: "symbol as a single byte, frequency as an integer" (R97, R200); none for an absent symbol (R201). -/
def putEntry (sym : Byte) (s : State) : Run State :=
  if s.freqAt sym = 0#32 then .ok s
  else do
    let s ← putBytes [sym] s
    putBytes (be32Bytes (s.freqAt sym)) s

/-- The entry loop over the symbols given. -/
def putEntries : List Byte → State → Run State
  | [], s => .ok s
  | sym :: syms, s => do
    let s ← putEntry sym s
    putEntries syms s

/-- The size of the container SERIALIZE writes (R95, R200). -/
def State.containerSize (s : State) : Nat := 4 + 5 * s.alphabet.length + 4 + ceil8 s.nbits.toNat

/-- SERIALIZE (R200). The payload is ceil(NBITS / 8) bytes of PAYLOAD (log 22). -/
def serialize (s : State) : Run State := do
  let s := { setPhase 0x7#4 s with ecount := BitVec.ofNat 32 s.alphabet.length }
  if s.params.outMax < s.containerSize then raise .capacity 2#32 s
  else
    let s ← putBytes (be32Bytes s.ecount) { s with outPos := 0#32 }
    let s ← putEntries symbols s
    let s ← putBytes (be32Bytes s.nbits) s
    putBytes (s.payload.take (ceil8 s.nbits.toNat)) s

/-- SERIALIZE, micro-operation 0x7 (R200). -/
def execSerialize (s : State) : Host.Outcome State Fault Refusal := Run.outcome (serialize s)

/-! ## DESERIALIZE -/

/-- need(n): "if IN_POS + n > REG.IN_LEN: raise TruncatedStreamError(IN_POS)" (R203, R204). -/
def need (n : Nat) (s : State) : Run State :=
  if s.inLen.toNat < s.inPos.toNat + n then raise .truncatedStream s.inPos s else .ok s

/-- One entry, in the order of the checks (R203, R206, R207, R209). -/
def readEntry (s : State) : Run State := do
  let s ← need 5 s
  let sym ← memRead s s.inPos.toNat
  let f ← memReadWord s (s.inPos.toNat + 1)
  if s.freqAt sym ≠ 0#32 then raise .corruptStream 1#32 s
  else if f = 0#32 then raise .corruptStream 2#32 s
  else return { s with freq := setFreq s.freq sym f, inPos := s.inPos + 5#32 }

/-- The entry loop, `k` entries to go. -/
def readEntries : Nat → State → Run State
  | 0, s => .ok s
  | k + 1, s => do
    let s ← readEntry s
    readEntries k s

/-- DESERIALIZE (R203). -/
def deserialize (s : State) : Run State := do
  let s ← need 4 { setPhase 0x8#4 s with inPos := 0#32, freq := zeroFreq }
  let count ← memReadWord s s.inPos.toNat
  let s := { s with ecount := count, inPos := s.inPos + 4#32 }
  if s.ecount = 0#32 then raise .emptyTable 0#32 s
  else
    let s ← readEntries s.ecount.toNat s
    let s ← need 4 s
    let n ← memReadWord s s.inPos.toNat
    let s ← need (ceil8 n.toNat) { s with nbits := n, inPos := s.inPos + 4#32 }
    return { s with payOff := s.inPos }

/-- DESERIALIZE, micro-operation 0x8 (R203). -/
def execDeserialize (s : State) : Host.Outcome State Fault Refusal := Run.outcome (deserialize s)

end Sys2Proof.Machine
end

