-- ==== Sys2Proof/Machine/Decoder.lean ====
section
/-!
DEFINITION. The bitstream decoder: DECODE (44_decoder.md).
-/
namespace Sys2Proof.Machine

/-- GetBit(i) (R185). -/
def getBit (s : State) (i : Nat) : Run Bool := do
  let b ← memRead s (s.payOff.toNat + byteOffset i)
  return bitOf b i

/-- emit(s) (R186): the count test of R189, then the capacity test of R192, then the write (R193). -/
def emit (sym : Byte) (s : State) : Run State :=
  if s.emitted.setWidth 40 = s.expected then raise .corruptStream 4#32 s
  else if s.emitted.toNat = s.params.outMax then raise .capacity 2#32 s
  else do
    let s ← memWrite s.emitted.toNat [sym] s
    return { s with emitted := s.emitted + 1#32 }

/-- The child a bit leads to: "bit 0 moves to the left child, bit 1 moves to the right child" (R187). From a Leaf nothing is
stated, and a walk never stands on one (R187; log 12). -/
def State.childOf (s : State) (i : NodeIx) (b : Bool) : NodeIx :=
  match s.nodeAt i with
  | .internal _ l r => if b then r else l
  | .leaf _ _ => Config.undefinedChild s.draws i

/-- The move from CUR on bit `b`, under a root that is Internal (R187): "On reaching a leaf: emit its symbol, reset position to
root". -/
def walkBit (b : Bool) (s : State) : Run State :=
  let s := { s with cur := s.childOf s.cur b }
  match s.nodeAt s.cur with
  | .leaf sym _ => do
    let s ← emit sym s
    return { s with cur := s.root }
  | .internal _ _ _ => .ok s

/-- What one bit does (R186): under a root that is a Leaf "every bit (0 or 1) represents one occurrence of that symbol" (R190). -/
def useBit (b : Bool) (s : State) : Run State :=
  match s.nodeAt s.root with
  | .leaf sym _ => emit sym s
  | .internal _ _ _ => walkBit b s

/-- One turn of DECODE's loop (R186). -/
def decodeBit (s : State) : Run State := do
  let b ← getBit s s.bitPos.toNat
  let s ← useBit b s
  return { s with bitPos := s.bitPos + 1#32 }

/-- DECODE's loop, `k` bits to go. -/
def decodeBits : Nat → State → Run State
  | 0, s => .ok s
  | k + 1, s => do
    let s ← decodeBit s
    decodeBits k s

/-- In an arena that is no tree the walk reads values that are not defined: they are drawn anew for the next instruction
(log 12). -/
def redrawNodes (s : State) : State := if s.arenaOk then s else { s with draws := s.draws + 1 }

/-- DECODE (R186). -/
def decodePayload (s : State) : Run State := do
  let s := redrawNodes (setPhase 0x9#4 s)
  let s := { s with expected := s.freqSum, emitted := 0#32, cur := s.root, bitPos := 0#32 }
  let s ← decodeBits s.nbits.toNat s
  if s.cur ≠ s.root then raise .corruptStream 3#32 s
  else if s.emitted.setWidth 40 ≠ s.expected then raise .corruptStream 4#32 s
  else return s

/-- DECODE, micro-operation 0x9 (R186). -/
def execDecode (s : State) : Host.Outcome State Fault Refusal := Run.outcome (decodePayload s)

end Sys2Proof.Machine
end

