-- ==== Sys2Proof/Machine/Encoder.lean ====
section
/-!
DEFINITION. The bitstream encoder: ENCODE (43_encoder.md).
-/
namespace Sys2Proof.Machine

/-- One turn of ENCODE's loop (R170, R171). -/
def encodeByte (s : State) : Run State := do
  let b ← memRead s s.inPos.toNat
  if s.codeAt b = [] then raise .unmappedSymbol (b.setWidth 32) s
  else return { s with bits := s.bits ++ s.codeAt b, inPos := s.inPos + 1#32 }

/-- ENCODE's loop, `k` bytes to go. -/
def encodeBytes : Nat → State → Run State
  | 0, s => .ok s
  | k + 1, s => do
    let s ← encodeByte s
    encodeBytes k s

/-- ENCODE (R170). PAYLOAD is `State.payload`. -/
def encodeInput (s : State) : Run State := do
  let s ← encodeBytes s.inLen.toNat { setPhase 0x6#4 s with bits := [], inPos := 0#32 }
  return { s with nbits := BitVec.ofNat 32 s.bits.length }

/-- ENCODE, micro-operation 0x6 (R170). -/
def execEncode (s : State) : Host.Outcome State Fault Refusal := Run.outcome (encodeInput s)

end Sys2Proof.Machine
end

