-- ==== Sys2Proof/Machine/Queue.lean ====
section
/-!
DEFINITION. The priority queue: PQ_PUSH and PQ_POP_MIN (40_priority_queue.md).
-/
namespace Sys2Proof.Machine

/-- PQ_PUSH (R132), its operands in working state. The two uses that "have no defined result" (93_implementation_defined.md
U19) are refused (log 14). -/
def pqPush (s : State) : Run State :=
  let s := setPhase 0x2#4 s
  if s.pq.any fun e => e.node == s.pushNode then .error (.refused (.pushQueuedNode s.pushNode))
  else if 256 ≤ s.pqCount then .error (.refused .pushFullQueue)
  else .ok { s with
    pq    := insertEntry { weight := s.pushWeight, node := s.pushNode } s.pq
    phase := s.callerPhase }

/-- PQ_POP_MIN (R133), its result in working state. -/
def pqPopMin (s : State) : Run State :=
  let s := setPhase 0x3#4 s
  match leastEntry s.pq with
  | none => raise .emptyQueue 0#32 s
  | some e => .ok { s with
      pq        := s.pq.erase e
      popWeight := e.weight
      popNode   := e.node
      phase     := s.callerPhase }

/-- `call PQ_PUSH(n, w)`: the callee runs under its own number and restores the caller's (30_encoding.md R105). -/
def callPush (n : NodeIx) (w : Weight) (s : State) : Run State :=
  pqPush { s with pushNode := n, pushWeight := w, callerPhase := s.phase }

/-- `call PQ_POP_MIN()` (R105). -/
def callPopMin (s : State) : Run State := pqPopMin { s with callerPhase := s.phase }

/-- PQ_PUSH, micro-operation 0x2 (R132). -/
def execPqPush (s : State) : Host.Outcome State Fault Refusal := Run.outcome (pqPush s)

/-- PQ_POP_MIN, micro-operation 0x3 (R133). -/
def execPqPopMin (s : State) : Host.Outcome State Fault Refusal := Run.outcome (pqPopMin s)

end Sys2Proof.Machine
end

