-- ==== Sys2Proof/Machine/Tree.lean ====
section
/-!
DEFINITION. Tree construction: BUILD_TREE (41_tree_builder.md).
-/
namespace Sys2Proof.Machine

/-- One turn of the leaf loop (R140, R141): a present symbol becomes the next node and is pushed. -/
def addLeaf (sym : Byte) (s : State) : Run State :=
  if s.freqAt sym = 0#32 then .ok s
  else
    let w : Weight := (s.freqAt sym).setWidth 40
    callPush s.nextNode w { s with node := s.node ++ [.leaf sym w] }

/-- The leaf loop over the symbols given. -/
def addLeaves : List Byte → State → Run State
  | [], s => .ok s
  | sym :: syms, s => do
    let s ← addLeaf sym s
    addLeaves syms s

/-- One turn of the combine loop (R143, R144): the node popped first becomes `left`, the second `right`. -/
def combineTwo (s : State) : Run State := do
  let s ← callPopMin s
  let wa := s.popWeight
  let a := s.popNode
  let s ← callPopMin s
  let wb := s.popWeight
  let b := s.popNode
  callPush s.nextNode (wa + wb) { s with node := s.node ++ [.internal (wa + wb) a b] }

/-- "while PQ_COUNT > 1" (R143). Each turn lowers PQ_COUNT by one, so PQ_COUNT turns are enough. -/
def combine : Nat → State → Run State
  | 0, s => .ok s
  | k + 1, s =>
    if 1 < s.pqCount then do
      let s ← combineTwo s
      combine k s
    else .ok s

/-- "ROOT <- the n of the one entry (w, n) in PQ" (R145). -/
def setRoot (s : State) : State :=
  match s.pq with
  | e :: _ => { s with root := e.node }
  | [] => s

/-- BUILD_TREE (R140). -/
def buildTree (s : State) : Run State := do
  let s ← addLeaves symbols { setPhase 0x4#4 s with node := [], pq := [] }
  if s.nodeCount = 0 then raise .emptyInput 0#32 s
  else
    let s ← combine s.pqCount s
    return setRoot s

/-- BUILD_TREE, micro-operation 0x4 (R140). -/
def execBuildTree (s : State) : Host.Outcome State Fault Refusal := Run.outcome (buildTree s)

end Sys2Proof.Machine
end

