-- ==== Sys2Proof/Machine/Engine.lean ====
section
/-!
DEFINITION. The codec engine: FREQ_SCAN and the two commands (46_codec_engine.md).
-/
namespace Sys2Proof.Machine

/-! ## FREQ_SCAN -/

/-- One turn of FREQ_SCAN's loop (R233). -/
def scanByte (s : State) : Run State := do
  let b ← memRead s s.inPos.toNat
  return { s with freq := setFreq s.freq b (s.freqAt b + 1#32), inPos := s.inPos + 1#32 }

/-- FREQ_SCAN's loop, `k` bytes to go. -/
def scanBytes : Nat → State → Run State
  | 0, s => .ok s
  | k + 1, s => do
    let s ← scanByte s
    scanBytes k s

/-- FREQ_SCAN (R233). -/
def freqScan (s : State) : Run State :=
  scanBytes s.inLen.toNat { setPhase 0x1#4 s with freq := zeroFreq, inPos := 0#32 }

/-- FREQ_SCAN, micro-operation 0x1 (R233). -/
def execFreqScan (s : State) : Host.Outcome State Fault Refusal := Run.outcome (freqScan s)

/-! ## The commands -/

/-- The length test of dispatch (R232): "if REG.IN_LEN > IN_MAX: raise CapacityError(1)". -/
def checkLength (s : State) : Run State :=
  if s.params.inMax < s.inLen.toNat then raise .capacity 1#32 s else .ok s

/-- COMPRESS (R234), from dispatch (R232) to the end of the command. -/
def compress (s : State) : Run State := do
  let s ← checkLength (setPhase 0x0#4 s)
  let s ← freqScan s
  let s ← buildTree s
  let s ← genCodes s
  let s ← encodeInput s
  let s ← serialize s
  return finishCommand s.outPos s

/-- DECOMPRESS (R235), from dispatch (R232) to the end of the command. -/
def decompress (s : State) : Run State := do
  let s ← checkLength (setPhase 0x0#4 s)
  let s ← deserialize s
  let s ← buildTree s
  let s ← genCodes s
  let s ← decodePayload s
  return finishCommand s.emitted s

/-- COMPRESS, CMD word 0x00000001 (R234). -/
def execCompress (s : State) : Host.Outcome State Fault Refusal := Run.outcome (compress s)

/-- DECOMPRESS, CMD word 0x00000002 (R235). -/
def execDecompress (s : State) : Host.Outcome State Fault Refusal := Run.outcome (decompress s)

end Sys2Proof.Machine
end

