-- ==== Sys2Proof/Machine/HostPort.lean ====
section
/-!
DEFINITION. The host's side of the block: what each access does (10_state.md R21 to R29, 20_memory.md R61, R62,
70_reset_and_hazards.md R303), reset (R300, R301), and the script notation (30_encoding.md R107, R108).
-/
namespace Sys2Proof.Machine

/-! ## Registers -/

/-- The value of the register at byte offset `off` (R21, R22, R27): CMD and the offsets 0x14 to 0x1C read 0. -/
def State.regValue (s : State) (off : Nat) : Word :=
  if off = 0x04 then s.status.word
  else if off = 0x08 then s.inLen
  else if off = 0x0C then s.outLen
  else if off = 0x10 then s.errInfo
  else 0#32

/-- The free choices of a command that has just started: how many accesses the host makes before the engine's first move, and
whether the command goes by steps (R240, R307; log 6). -/
def drawTurn (s : State) : State :=
  { s with slots := Config.hostSlots s.draws, bySteps := Config.runsBySteps s.draws, draws := s.draws + 1 }

/-- What a register write does while BUSY = 0 (R21, R22, R24, R27, R230): CMD starts a command, IN_LEN is stored as written,
the others are ignored. -/
def writeRegister (off : Nat) (v : Word) (s : State) : State :=
  if off = 0x00 then drawTurn (startCommand v s)
  else if off = 0x08 then { s with inLen := v }
  else s

/-! ## Reset -/

/-- Reset, also during a command (R300, R301): the state of R46. The buffers are unspecified anew, hence the new epoch; the
parameters, the host's script and what the host has seen are not the block's, and stay (log 18). -/
def applyReset (s : State) : State :=
  { State.reset with
    params := s.params
    host   := s.host
    seen   := s.seen
    draws  := s.draws
    epoch  := s.epoch + 1 }

/-! ## Reads of OUTBUF -/

/-- OutRead(i) below OUT_MAX (R29, R62): the byte below OUT_LEN, a fresh draw at and above it (log 3). -/
def readOutput (i : Nat) (s : State) : State :=
  match (if i < s.outLen.toNat then Memory.read? s.outbuf i else none) with
  | some b => { s with seen := .outByte i b :: s.seen }
  | none => { s with seen := .outByte i (Config.undefinedOutput s.draws) :: s.seen, draws := s.draws + 1 }

/-! ## The script lines that depend on what was read -/

/-- POLL (R107): "repeat RDREG STATUS until s[0] = 0". The lines that follow it in the macros of R108 come after it: the result
when s[2] = 0, else ERR_INFO. -/
def pollStatus (thenResult : Bool) (s : State) : State :=
  let v := s.status.word
  let next : List Access :=
    if v.getLsbD 0 then [.poll thenResult]
    else if !thenResult then []
    else if v.getLsbD 2 then [.regRead 32 0x10]
    else [.readResult]
  { s with seen := .reg 0x04 v :: s.seen, host := next ++ s.host }

/-- `RDREG OUT_LEN -> n ; RDOUT 0, n` (R108): this access is the register read. -/
def readResult (s : State) : State :=
  { s with
    seen := .reg 0x0C s.outLen :: s.seen
    host := (List.range s.outLen.toNat).map .outRead ++ s.host }

/-! ## The accesses -/

/-- One event at the interface (R61, R62, R303; U9 for what is refused). `s` is the state with the event taken off the script. -/
def serve (a : Access) (s : State) : Host.Outcome State Fault Refusal :=
  match a with
  | .regRead width off =>
    if regAccessOk width off then .next { s with seen := .reg off (s.regValue off) :: s.seen }
    else .refused (.registerAccess width off)
  | .regWrite width off v =>
    if regAccessOk width off then .next (if s.status.busy then s else writeRegister off v s)
    else .refused (.registerAccess width off)
  | .inWrite i b =>
    if i < s.params.inMax then .next (if s.status.busy then s else { s with inbuf := Memory.write s.inbuf i b })
    else .refused (.inputIndex i)
  | .inRead i =>
    if i < s.params.inMax then .next { s with seen := .inByte i (s.inByte i) :: s.seen }
    else .refused (.inputIndex i)
  | .outRead i => if i < s.params.outMax then .next (readOutput i s) else .refused (.outputIndex i)
  | .poll thenResult => .next (pollStatus thenResult s)
  | .readResult => .next (readResult s)
  | .reset => .next (applyReset s)

/-- The host's turn: its next access, in program order (R72); with none to make, nothing happens (R72 item 4, R281; log 19). -/
def hostTurn (s : State) : Host.Outcome State Fault Refusal :=
  match s.host with
  | [] => .next s
  | a :: rest => serve a { s with host := rest, slots := s.slots - 1 }

/-! ## The script notation (R107, R108) -/

/-- The offset of a register, by the names of R21. -/
inductive RegName where
  | cmd
  | status
  | inLen
  | outLen
  | errInfo
deriving DecidableEq, Repr

/-- The register map (R21). -/
def regOffset : RegName → Nat
  | .cmd => 0x00
  | .status => 0x04
  | .inLen => 0x08
  | .outLen => 0x0C
  | .errInfo => 0x10

/-- `WRIN off, b0 b1 ... bn` (R107) -/
def wrin (off : Nat) : List Byte → List Access
  | [] => []
  | b :: bs => .inWrite off b :: wrin (off + 1) bs

/-- `WRREG name, v` (R107) -/
def wrreg (r : RegName) (v : Word) : Access := .regWrite 32 (regOffset r) v

/-- `RDREG name -> x` (R107) -/
def rdreg (r : RegName) : Access := .regRead 32 (regOffset r)

/-- `RDOUT off, n -> x` (R107) -/
def rdout (off n : Nat) : List Access := (List.range n).map fun k => .outRead (off + k)

/-- The macro of R108 for command word `w` on input `b`. -/
def commandScript (w : Word) (b : List Byte) : List Access :=
  wrin 0 b ++ [wrreg .inLen (BitVec.ofNat 32 b.length), wrreg .cmd w, .poll true]

/-- compress(b) (R108) -/
def compressScript (b : List Byte) : List Access := commandScript 0x00000001#32 b

/-- decompress(c) (R108) -/
def decompressScript (c : List Byte) : List Access := commandScript 0x00000002#32 c

end Sys2Proof.Machine
end

