-- ==== Sys2Proof/Machine/Sequencer.lean ====
section
/-!
DEFINITION. The sequencer: which micro-operation follows which (10_state.md R38, 46_codec_engine.md R234, R235), who moves next
(R240, R307), and how an instruction comes to be the next to run.
-/
namespace Sys2Proof.Machine

/-- The first micro-operation of a command (R234, R235). -/
def firstPhase (op : Word) : PhaseNum := if op = 0x00000001#32 then 0x1#4 else 0x8#4

/-- Dispatch of a legal command that goes by steps (R232): the length test, then the move to the first micro-operation. -/
def dispatchFirst (s : State) : Run State := do
  let s ← checkLength s
  return setPhase (firstPhase s.op) s

/-- What follows the end of a micro-operation (R38, R234, R235, R236): "a fixed sequence per command, no data-dependent choice".
PQ_PUSH and PQ_POP_MIN have gone back to their caller by themselves (R105). A micro-operation that is not in the command's
sequence is followed by nothing (log 20). -/
def advance (i : Instr) (s : State) : State :=
  match i with
  | .freqScan => if s.op = 0x00000001#32 then setPhase 0x4#4 s else s
  | .deserialize => if s.op = 0x00000002#32 then setPhase 0x4#4 s else s
  | .buildTree => if s.op = 0x00000001#32 ∨ s.op = 0x00000002#32 then setPhase 0x5#4 s else s
  | .genCodes =>
    if s.op = 0x00000001#32 then setPhase 0x6#4 s
    else if s.op = 0x00000002#32 then setPhase 0x9#4 s
    else s
  | .encode => if s.op = 0x00000001#32 then setPhase 0x7#4 s else s
  | .serialize => if s.op = 0x00000001#32 then finishCommand s.outPos s else s
  | .decode => if s.op = 0x00000002#32 then finishCommand s.emitted s else s
  | .pqPush => s
  | .pqPopMin => s
  | .compress => s
  | .decompress => s

/-- After a micro-operation: the sequencer moves on, unless a fault has ended the command (R38, R270). -/
def afterMicro (i : Instr) (s : State) : State := if s.status.busy then advance i s else s

/-- How many accesses the host makes before the engine's next move, drawn anew while the command goes on (R307; log 6). -/
def drawSlots (s : State) : State :=
  if s.status.busy then { s with slots := Config.hostSlots s.draws, draws := s.draws + 1 } else s

/-- An outcome with its next state changed. -/
def mapNext (f : State → State) : Host.Outcome State Fault Refusal → Host.Outcome State Fault Refusal
  | .next s => .next (f s)
  | .fault r => .fault r
  | .refused r => .refused r

/-- The engine moves while BUSY = 1 (R72 item 4), when the host makes no access before it (log 6). -/
def engineTurn (s : State) : Bool := s.status.busy && (s.host.isEmpty || s.slots == 0)

/-- The state in which the engine is about to run the instruction whose bits are `w` (log 17). A row of at most one byte is a
micro-operation: PHASE takes its number and the engine is running. A longer one is a command: the CMD write of `w` has been
made (R231). Either way the engine moves next, and a command runs as one transition. -/
def placeInstr (nbits w : Nat) (s : State) : State :=
  if nbits ≤ 8 then
    { s with status := Status.running, phase := BitVec.ofNat 4 w, slots := 0, bySteps := false }
  else
    { startCommand (BitVec.ofNat 32 w) s with slots := 0, bySteps := false }

end Sys2Proof.Machine
end

