-- ==== Sys2Proof/Machine/Dispatch.lean ====
section
/-!
DEFINITION. exec: one arm per constructor of Instr, each one call of the instruction's meaning.
-/
namespace Sys2Proof.Machine

def exec (i : Instr) (s : State) : Host.Outcome State Fault Refusal :=
  match i with
  | .compress => Sys2Proof.Machine.execCompress s
  | .decompress => Sys2Proof.Machine.execDecompress s
  | .freqScan => Sys2Proof.Machine.execFreqScan s
  | .pqPush => Sys2Proof.Machine.execPqPush s
  | .pqPopMin => Sys2Proof.Machine.execPqPopMin s
  | .buildTree => Sys2Proof.Machine.execBuildTree s
  | .genCodes => Sys2Proof.Machine.execGenCodes s
  | .encode => Sys2Proof.Machine.execEncode s
  | .serialize => Sys2Proof.Machine.execSerialize s
  | .deserialize => Sys2Proof.Machine.execDeserialize s
  | .decode => Sys2Proof.Machine.execDecode s

end Sys2Proof.Machine
end

