-- ==== Sys2Proof/Machine/Turn.lean ====
section
/-!
DEFINITION. One move of the engine: dispatch, or the micro-operation that PHASE names.
-/
namespace Sys2Proof.Machine

/-- One move of the engine (R232, R38). At PHASE = 0 it is dispatch: the word in OP is decoded, an illegal one raises
IllegalCommandError (30_encoding.md R93), a legal one runs, as one transition or by steps (R240). At another PHASE the
micro-operation of that number runs and the sequencer moves on. -/
def engineStep (s : State) : Host.Outcome State Fault Refusal :=
  if s.phase = 0x0#4 then
    match decodeCmd s.op with
    | .error _ => .next (takeFault .illegalCommand s.op s)
    | .ok i => if s.bySteps then mapNext drawSlots (Run.outcome (dispatchFirst s)) else exec i s
  else
    match decodePhase s.phase with
    | .error _ => .refused (.reservedPhase s.phase)
    | .ok i => mapNext (fun t => drawSlots (afterMicro i t)) (exec i s)

end Sys2Proof.Machine
end

