-- ==== Sys2Proof/Machine/Step.lean ====
section
/-!
DEFINITION. One step of the block and its host: one host access, or one move of the engine (46_codec_engine.md R240).
-/
namespace Sys2Proof.Machine

/-- One step: the engine's move when it is the engine's turn, else the host's. -/
def step (s : State) : Host.Outcome State Fault Refusal :=
  if engineTurn s then engineStep s else hostTurn s

/-- `s` about to run the instruction whose bits are `w` (log 17). -/
def State.withFetchWord (s : State) (nbits w : Nat) : State := placeInstr nbits w s

end Sys2Proof.Machine
end

