-- ==== Sys2Proof/Safety.lean ====
section
/-!
DEFINITION. The terms claims are stated in: what a fault report is, the legal states, and the reference functions of the rules
that speak of a container, a tree, a path and a decoded sequence without saying how the engine gets there.
-/
namespace Sys2Proof.Machine

/-! ## What the buffers hold -/

/-- The document's `inputBytes`: INBUF[0 .. IN_LEN - 1] (10_state.md R24). -/
def State.inputBytes (s : State) : List Byte := (List.range s.inLen.toNat).map s.inByte

/-- `bs` stands in OUTBUF from index `a`. -/
def State.outHolds (s : State) (a : Nat) (bs : List Byte) : Prop :=
  ∀ k, (h : k < bs.length) → Memory.read? s.outbuf (a + k) = some bs[k]

/-- Payload bits 0 to NBITS - 1, read in place in INBUF (44_decoder.md R185). -/
def State.payloadBits (s : State) : Bits :=
  (List.range s.nbits.toNat).map fun i => bitOf (s.inByte (s.payOff.toNat + byteOffset i)) i

/-! ## The end of a command -/

/-- The command has ended with fault `e`, raised in phase `p`, and detail `info` (60_exceptions.md R270). -/
def State.reports (t : State) (e : ErrCode) (p : PhaseNum) (info : Word) : Prop :=
  t.status = Status.failed e p ∧ t.errInfo = info ∧ t.outLen = 0#32 ∧ t.phase = 0#4

/-- The command has ended with success and a result of `len` bytes (46_codec_engine.md R236). -/
def State.succeeds (t : State) (len : Nat) : Prop :=
  t.status = Status.succeeded ∧ t.errInfo = 0#32 ∧ t.outLen.toNat = len ∧ t.phase = 0#4

/-- Two states in which the block and its host are the same; only the free choices of the model's schedule may differ. -/
def SameBlock (a b : State) : Prop := { a with slots := b.slots, bySteps := b.bySteps, draws := b.draws } = b

/-! ## The container (30_encoding.md R95) -/

/-- entryCount, the entries and numberOfBits, as the container lays them out. -/
def headerBytes (entries : List (Byte × Word)) (n : Word) : List Byte :=
  be32Bytes (BitVec.ofNat 32 entries.length) ++ entries.flatMap (fun e => e.1 :: be32Bytes e.2) ++ be32Bytes n

/-- The entries SERIALIZE writes: one for each present symbol, in ascending symbol value (45_container.md R201). -/
def State.entries (s : State) : List (Byte × Word) := s.alphabet.map fun sym => (sym, s.freqAt sym)

/-- The bytes SERIALIZE writes: the header and the payload (R95, 45_container.md R200). -/
def State.containerBytes (s : State) : List Byte :=
  headerBytes s.entries s.nbits ++ s.payload.take (ceil8 s.nbits.toNat)

/-- A table that holds the entries given, and nothing else (45_container.md R210). -/
def tableHolds (freq : Vector Word 256) (entries : List (Byte × Word)) : Prop :=
  (∀ e ∈ entries, freq[e.1.toNat]'(symbol_lt e.1) = e.2) ∧
  ∀ sym : Byte, sym ∉ entries.map Prod.fst → freq[sym.toNat]'(symbol_lt sym) = 0#32

/-- A table's entries as a container may hold them: at least one, no symbol twice, no frequency 0 (R102 items 3 and 4). -/
def entriesOk (entries : List (Byte × Word)) : Prop :=
  entries ≠ [] ∧ (entries.map Prod.fst).Nodup ∧ ∀ e ∈ entries, e.2 ≠ 0#32

/-! ## Trees -/

/-- The node at the end of a path: "left edge = bit 0, right edge = bit 1" (30_encoding.md R103). -/
def followPath (nodes : List Node) : NodeIx → Bits → Option NodeIx
  | n, [] => some n
  | n, b :: bs =>
    match nodes[n.toNat]? with
    | some (.internal _ l r) => followPath nodes (if b then r else l) bs
    | _ => none

/-- The symbols that the walk of 44_decoder.md R187 and R190 emits on a bit string, and the node it stands on at the end. -/
def walkBits (nodes : List Node) (root : NodeIx) : NodeIx → Bits → Option (List Byte × NodeIx)
  | cur, [] => some ([], cur)
  | cur, b :: bs =>
    match nodes[root.toNat]? with
    | some (.leaf sym _) => (walkBits nodes root cur bs).map fun r => (sym :: r.1, r.2)
    | some (.internal _ _ _) =>
      match nodes[cur.toNat]? with
      | some (.internal _ l r) =>
        let c := if b then r else l
        match nodes[c.toNat]? with
        | some (.leaf sym _) => (walkBits nodes root root bs).map fun r => (sym :: r.1, r.2)
        | some (.internal _ _ _) => walkBits nodes root c bs
        | none => none
      | _ => none
    | none => none

/-- The node at the end of a path is the leaf of `sym`. -/
def isPathTo (nodes : List Node) (root : NodeIx) (p : Bits) (sym : Byte) : Prop :=
  ∃ n w, followPath nodes root p = some n ∧ nodes[n.toNat]? = some (.leaf sym w)

/-- The sum of the weights of the leaves below a node, exact; `depth` above the index of the node is enough. -/
def leavesBelow (nodes : List Node) : Nat → NodeIx → Nat
  | 0, _ => 0
  | depth + 1, n =>
    match nodes[n.toNat]? with
    | some (.leaf _ w) => w.toNat
    | some (.internal _ l r) => leavesBelow nodes depth l + leavesBelow nodes depth r
    | none => 0

/-- The queue entry a node was pushed as: its weight and its index (40_priority_queue.md R130). -/
def entryOf (nodes : List Node) (n : NodeIx) : Option Entry :=
  nodes[n.toNat]?.map fun x => { weight := x.weight, node := n }

/-- The leaf of a symbol (41_tree_builder.md R141). -/
def leafOf (freq : Vector Word 256) (sym : Byte) : Node :=
  .leaf sym ((freq[sym.toNat]'(symbol_lt sym)).setWidth 40)

/-- The leaves of a frequency table, in ascending symbol value (R141). -/
def leavesOf (freq : Vector Word 256) : List Node :=
  (symbols.filter fun sym => freq[sym.toNat]'(symbol_lt sym) != 0#32).map (leafOf freq)

/-- The entries of an arena all of whose nodes are queued. -/
def allEntries (nodes : List Node) : List Entry :=
  nodes.zipIdx.map fun ni => { weight := ni.1.weight, node := BitVec.ofNat 9 ni.2 }

/-- `a` is popped before `b`, or is `b`: the lesser weight first, and of equal weights the lesser index (40_priority_queue.md
R131). -/
abbrev keyLe (a b : Entry) : Prop :=
  a.weight.toNat < b.weight.toNat ∨ (a.weight = b.weight ∧ a.node.toNat ≤ b.node.toNat)

/-- An arena and a queue in rising order of the key, combined until one entry is left: the first two entries become the children of
a new node, which is queued (41_tree_builder.md R143, R144); the last entry's node is the root (R145). -/
def combineSorted : Nat → List Node → List Entry → List Node × NodeIx
  | k + 1, nodes, e :: f :: q =>
    combineSorted k (nodes ++ [.internal (e.weight + f.weight) e.node f.node])
      (q.orderedInsert keyLe { weight := e.weight + f.weight, node := BitVec.ofNat 9 nodes.length })
  | _, nodes, e :: _ => (nodes, e.node)
  | _, nodes, [] => (nodes, 0#9)

/-- The arena and the root R140 makes of a table, as a function of the table alone (R148). A table with no present symbol, of which
R140 makes no tree, has none here either: the arena is empty. -/
def treeOf (freq : Vector Word 256) : List Node × NodeIx :=
  combineSorted (leavesOf freq).length (leavesOf freq) ((allEntries (leavesOf freq)).insertionSort keyLe)

/-- The nodes that have `i` as a child, each once for each of its two edges to it. -/
def parentEdges (nodes : List Node) (i : Nat) : Nat :=
  (nodes.map fun n =>
    match n with
    | .leaf _ _ => 0
    | .internal _ l r => (if l.toNat = i then 1 else 0) + (if r.toNat = i then 1 else 0)).sum

/-- 10_state.md R42 and 41_tree_builder.md R147: the arena is one strict binary tree under ROOT, with no shared subtree and no
cycle: every index but ROOT is the child of exactly one node, and children lie below their parents. -/
def State.isTree (s : State) : Prop :=
  s.root.toNat + 1 = s.nodeCount ∧ s.arenaOk = true ∧
  parentEdges s.node s.root.toNat = 0 ∧ ∀ i, i < s.root.toNat → parentEdges s.node i = 1

/-! ## Legal states -/

/-- Which micro-operation, or dispatch, can raise which error (60_exceptions.md R260 to R269). -/
def faultSites : List (BitVec 4 × PhaseNum) :=
  [(1#4, 0x4#4), (2#4, 0x8#4), (3#4, 0x8#4), (4#4, 0x8#4), (4#4, 0x9#4), (5#4, 0x6#4), (7#4, 0x3#4),
   (8#4, 0x0#4), (8#4, 0x7#4), (8#4, 0x9#4), (9#4, 0x0#4)]

/-- "At every moment exactly one of these holds" (10_state.md R23): idle, running, succeeded, failed. -/
def Status.legal (st : Status) : Bool :=
  st == Status.idle || st == Status.running || st == Status.succeeded ||
    (!st.busy && st.done && st.err && decide ((st.errCode, st.ephase) ∈ faultSites))

/-- What every step keeps, in every state that has it. -/
structure State.Inv (s : State) : Prop where
  inbufForm   : Memory.wf s.inbuf ∧ ∀ c ∈ s.inbuf, c.1 < s.params.inMax
  outbufForm  : Memory.wf s.outbuf ∧ ∀ c ∈ s.outbuf, c.1 < s.params.outMax
  statusLegal : s.status.legal = true
  idlePhase   : s.status.busy = false → s.phase = 0#4
  phaseNamed  : s.phase.toNat ≤ 9 ∧ s.callerPhase.toNat ≤ 9
  noResult    : s.status ≠ Status.succeeded → s.outLen = 0#32
  noInfo      : s.status.err = false → s.errInfo = 0#32
  resultThere : ∀ i, i < s.outLen.toNat → (Memory.read? s.outbuf i).isSome = true
  queueForm   : s.pq.Pairwise (fun a b => keyBefore a b = true) ∧ (s.pq.map Entry.node).Nodup ∧ s.pqCount ≤ 256
  arenaSize   : s.nodeCount ≤ 511

/-- Where the sequencer may stand in a command (R234, R235), the length test passed (R232), and in DECOMPRESS the payload inside
the input (45_container.md R210). -/
def State.onCourse (s : State) : Prop :=
  s.phase = 0x0#4 ∨
  (s.inLen.toNat ≤ s.params.inMax ∧
    ((s.op = 0x00000001#32 ∧ s.phase ∈ [0x1#4, 0x4#4, 0x5#4, 0x6#4, 0x7#4]) ∨
     (s.op = 0x00000002#32 ∧ s.phase = 0x8#4) ∨
     (s.op = 0x00000002#32 ∧ s.phase ∈ [0x4#4, 0x5#4, 0x9#4] ∧ s.payOff.toNat + ceil8 s.nbits.toNat ≤ s.inLen.toNat)))

/-- Every access the host is still to make has a meaning (93_implementation_defined.md U9). -/
def State.scriptOk (s : State) : Prop := ∀ a ∈ s.host, a.wellFormed s.params = true

/-- A state of a machine driven as the spec says. -/
def State.Ready (s : State) : Prop := s.Inv ∧ (s.status.busy = true → s.onCourse) ∧ s.scriptOk

end Sys2Proof.Machine
end

