-- ==== Sys2Proof/Certificates/Slice0/Obligations.lean ====
section
/-!
DEFINITION. The statements for the provers. Each docstring names the rule of spec/ it formalises; a clause that is the model's
own choice names its log entry.
-/
open Sys2Proof Sys2Proof.Machine

/-! ## Encoding -/

/-- 30_encoding.md R92: the two legal CMD words; every other 32-bit word is illegal. -/
def Obligations.CommandWordsDecode : Prop :=
  decodeCmd 0x00000001#32 = .ok .compress ∧ decodeCmd 0x00000002#32 = .ok .decompress ∧
  ∀ w : Word, w ≠ 0x00000001#32 → w ≠ 0x00000002#32 → decodeCmd w = .error (.illegalCommand w)

/-- 30_encoding.md R105, the table: each number names one micro-operation, 0 names none, 0xA to 0xF are reserved. -/
def Obligations.PhaseNumbersDecode : Prop :=
  (∀ p i, decodePhase p = .ok i ↔ i.phaseNumber = some p) ∧
  decodePhase 0x0#4 = .error .noOperation ∧
  ∀ p : PhaseNum, 0xA ≤ p.toNat → decodePhase p = .error (.reservedNumber p)

/-- Decoding and encoding agree (R92, R105): an encoded instruction decodes to itself, so no bit of an encoding is dropped; and bytes
that decode are the encoding of what they decode to, so each encoding has one meaning. (The bytes of a CMD word least significant
first are the model's choice, log 16.) -/
def Obligations.DecodeEncodeAgree : Prop :=
  (∀ i, decode (encode i) = .ok i) ∧ ∀ bs i, decode bs = .ok i → encode i = bs

/-- Words written out from R92 and R105 decode to the instructions they stand for. -/
def Obligations.SampleWordsDecode : Prop :=
  decodeTableWord 32 0b00000000000000000000000000000001 = some .compress ∧
  decodeTableWord 32 0b00000000000000000000000000000010 = some .decompress ∧
  decodeTableWord 32 0b00000000000000000000000000000011 = none ∧
  decodeTableWord 32 0b10000000000000000000000000000001 = none ∧
  decodeTableWord 8 0b0010 = some .pqPush ∧
  decodeTableWord 8 0b0110 = some .encode ∧
  decodeTableWord 8 0b1001 = some .decode ∧
  decodeTableWord 8 0b1010 = none

/-! ## A step -/

/-- 46_codec_engine.md R232: at PHASE = 0 the engine's move is dispatch. A legal word that runs as one transition (R240, log 6) runs
its instruction; by steps it passes the length test and moves to the first micro-operation; an illegal word faults. -/
def Obligations.StepDispatches : Prop :=
  ∀ s : State, engineTurn s = true → s.phase = 0x0#4 →
    (∀ i, decodeCmd s.op = .ok i → s.bySteps = false → step s = exec i s) ∧
    (∀ i, decodeCmd s.op = .ok i → s.bySteps = true → s.inLen.toNat ≤ s.params.inMax →
      step s = .next (drawSlots (setPhase (if i = .compress then 0x1#4 else 0x8#4) s))) ∧
    (∀ i, decodeCmd s.op = .ok i → s.bySteps = true → s.params.inMax < s.inLen.toNat →
      step s = .next (drawSlots (takeFault .capacity 1#32 s))) ∧
    (∀ e, decodeCmd s.op = .error e → step s = .next (takeFault .illegalCommand s.op s))

/-- 10_state.md R38: at another PHASE the engine's move runs the micro-operation of that number and the sequencer goes on. -/
def Obligations.StepRunsMicroOperation : Prop :=
  ∀ (s : State) (i : Instr), engineTurn s = true → s.phase ≠ 0x0#4 → decodePhase s.phase = .ok i →
    step s = mapNext (fun t => drawSlots (afterMicro i t)) (exec i s)

/-- 20_memory.md R72: when it is not the engine's turn the host makes its next access, in program order, and with none to make
nothing happens ("The engine makes no access of any kind while BUSY = 0"). -/
def Obligations.StepServesHost : Prop :=
  ∀ s : State, engineTurn s = false →
    (s.host = [] → step s = .next s) ∧
    (∀ a rest, s.host = a :: rest → step s = serve a { s with host := rest, slots := s.slots - 1 })

/-! ## Registers, buffers, reset -/

/-- 10_state.md R23: the fields of the STATUS word; the reserved bits read 0. -/
def Obligations.StatusWordFields : Prop :=
  ∀ st : Status,
    st.word.getLsbD 0 = st.busy ∧ st.word.getLsbD 1 = st.done ∧ st.word.getLsbD 2 = st.err ∧ st.word.getLsbD 3 = false ∧
    st.word.extractLsb' 4 4 = st.errCode ∧ st.word.extractLsb' 8 4 = st.ephase ∧ st.word.extractLsb' 12 20 = 0#20

/-- 10_state.md R21, R22, R27, 20_memory.md R67: what a register read returns and that it changes nothing, what a register write
does while BUSY = 0 at an offset other than CMD, and that an access of another width, alignment or range is refused. -/
def Obligations.RegisterSpace : Prop :=
  ∀ (s : State) (rest : List Access), engineTurn s = false →
    (∀ off, off % 4 = 0 → off < 32 → s.host = .regRead 32 off :: rest →
      step s = .next { s with
        host := rest
        slots := s.slots - 1
        seen := .reg off (
          if off = 0x04 then s.status.word
          else if off = 0x08 then s.inLen
          else if off = 0x0C then s.outLen
          else if off = 0x10 then s.errInfo
          else 0#32) :: s.seen }) ∧
    (∀ off v, off % 4 = 0 → off < 32 → off ≠ 0x00 → off ≠ 0x08 → s.host = .regWrite 32 off v :: rest →
      step s = .next { s with host := rest, slots := s.slots - 1 }) ∧
    (∀ width off, ¬ (width = 32 ∧ off % 4 = 0 ∧ off < 32) → s.host = .regRead width off :: rest →
      step s = .refused (.registerAccess width off)) ∧
    (∀ width off v, ¬ (width = 32 ∧ off % 4 = 0 ∧ off < 32) → s.host = .regWrite width off v :: rest →
      step s = .refused (.registerAccess width off))

/-- 10_state.md R24: any value is stored while BUSY = 0; a write while BUSY = 1 is dropped; the engine never writes IN_LEN; and a
value above IN_MAX makes either command fail with CapacityError at dispatch, STATUS 0x00000086 (60_exceptions.md R268). -/
def Obligations.InputLengthRegister : Prop :=
  (∀ (s : State) (v : Word) (rest : List Access), s.host = .regWrite 32 0x08 v :: rest → s.status.busy = false →
    step s = .next { s with host := rest, slots := s.slots - 1, inLen := v }) ∧
  (∀ (s : State) (v : Word) (rest : List Access), s.host = .regWrite 32 0x08 v :: rest → s.status.busy = true →
    engineTurn s = false → step s = .next { s with host := rest, slots := s.slots - 1 }) ∧
  (∀ (i : Instr) (s t : State), exec i s = .next t → t.inLen = s.inLen) ∧
  (∀ (i : Instr) (s : State), i = .compress ∨ i = .decompress → s.params.inMax < s.inLen.toNat →
    ∃ t, exec i s = .next t ∧ t.reports .capacity 0x0#4 1#32 ∧ t.status.word = 0x00000086#32 ∧
      t.inbuf = s.inbuf ∧ t.outbuf = s.outbuf)

/-- 20_memory.md R62: InWrite, InRead and OutRead, and that an index at or above the capacity is refused. -/
def Obligations.BufferAccess : Prop :=
  ∀ (s : State) (rest : List Access), engineTurn s = false →
    (∀ i b, s.host = .inWrite i b :: rest → i < s.params.inMax → s.status.busy = false →
      ∃ t, step s = .next t ∧ t = { s with host := rest, slots := s.slots - 1, inbuf := t.inbuf } ∧
        ∀ a, t.inByte a = if a = i then b else s.inByte a) ∧
    (∀ i b, s.host = .inWrite i b :: rest → i < s.params.inMax → s.status.busy = true →
      step s = .next { s with host := rest, slots := s.slots - 1 }) ∧
    (∀ i, s.host = .inRead i :: rest → i < s.params.inMax →
      step s = .next { s with host := rest, slots := s.slots - 1, seen := .inByte i (s.inByte i) :: s.seen }) ∧
    (∀ i b, s.host = .outRead i :: rest → i < s.params.outMax → i < s.outLen.toNat → Memory.read? s.outbuf i = some b →
      step s = .next { s with host := rest, slots := s.slots - 1, seen := .outByte i b :: s.seen }) ∧
    (∀ i, s.host = .outRead i :: rest → i < s.params.outMax → s.outLen.toNat ≤ i →
      step s = .next { s with
        host := rest
        slots := s.slots - 1
        seen := .outByte i (Config.undefinedOutput s.draws) :: s.seen
        draws := s.draws + 1 }) ∧
    (∀ i b, s.host = .inWrite i b :: rest → s.params.inMax ≤ i → step s = .refused (.inputIndex i)) ∧
    (∀ i, s.host = .inRead i :: rest → s.params.inMax ≤ i → step s = .refused (.inputIndex i)) ∧
    (∀ i, s.host = .outRead i :: rest → s.params.outMax ≤ i → step s = .refused (.outputIndex i))

/-- 70_reset_and_hazards.md R303: while BUSY = 1 every host write changes nothing and is not remembered; writes to the read-only
registers are ignored at any time; reads return STATUS 0x00000001, OUT_LEN 0, ERR_INFO 0, IN_LEN, the input, and draws of OUTBUF. -/
def Obligations.WritesWhileBusyDropped : Prop :=
  (∀ (s : State) (rest : List Access), s.Inv → s.status.busy = true → engineTurn s = false →
    (∀ off v, regAccessOk 32 off = true → s.host = .regWrite 32 off v :: rest →
      step s = .next { s with host := rest, slots := s.slots - 1 }) ∧
    (∀ i b, i < s.params.inMax → s.host = .inWrite i b :: rest →
      step s = .next { s with host := rest, slots := s.slots - 1 }) ∧
    (s.host = .regRead 32 0x04 :: rest →
      step s = .next { s with host := rest, slots := s.slots - 1, seen := .reg 0x04 0x00000001#32 :: s.seen }) ∧
    (s.host = .regRead 32 0x0C :: rest →
      step s = .next { s with host := rest, slots := s.slots - 1, seen := .reg 0x0C 0#32 :: s.seen }) ∧
    (s.host = .regRead 32 0x10 :: rest →
      step s = .next { s with host := rest, slots := s.slots - 1, seen := .reg 0x10 0#32 :: s.seen }) ∧
    (s.host = .regRead 32 0x08 :: rest →
      step s = .next { s with host := rest, slots := s.slots - 1, seen := .reg 0x08 s.inLen :: s.seen }) ∧
    (∀ i, i < s.params.inMax → s.host = .inRead i :: rest →
      step s = .next { s with host := rest, slots := s.slots - 1, seen := .inByte i (s.inByte i) :: s.seen }) ∧
    (∀ i, i < s.params.outMax → s.host = .outRead i :: rest →
      step s = .next { s with
        host := rest
        slots := s.slots - 1
        seen := .outByte i (Config.undefinedOutput s.draws) :: s.seen
        draws := s.draws + 1 })) ∧
  (∀ (s : State) (rest : List Access) (off : Nat) (v : Word), s.status.busy = false → off = 0x04 ∨ off = 0x0C ∨ off = 0x10 →
    s.host = .regWrite 32 off v :: rest → step s = .next { s with host := rest, slots := s.slots - 1 })

/-- 46_codec_engine.md R231 with R230: a CMD write of any word while BUSY = 0 latches it, sets the flags, clears the result and the
working state, and leaves IN_LEN, INBUF and OUTBUF alone. -/
def Obligations.CommandStart : Prop :=
  ∀ (s : State) (v : Word) (rest : List Access), s.host = .regWrite 32 0x00 v :: rest → s.status.busy = false →
    ∃ t, step s = .next t ∧
      t.op = v ∧ t.status = { busy := true, done := false, err := false, errCode := 0#4, ephase := 0#4 } ∧
      t.outLen = 0#32 ∧ t.errInfo = 0#32 ∧ t.phase = 0x0#4 ∧
      (∀ sym, t.freqAt sym = 0#32 ∧ t.codeAt sym = []) ∧ t.nodeCount = 0 ∧ t.pq = [] ∧ t.pqCount = 0 ∧ t.bits = [] ∧
      t.nbits = 0#32 ∧ t.ecount = 0#32 ∧ t.payOff = 0#32 ∧ t.inPos = 0#32 ∧ t.outPos = 0#32 ∧ t.bitPos = 0#32 ∧
      t.cur = 0#9 ∧ t.emitted = 0#32 ∧ t.expected = 0#40 ∧
      t.inLen = s.inLen ∧ t.inbuf = s.inbuf ∧ t.outbuf = s.outbuf ∧ t.host = rest ∧ t.seen = s.seen

/-- 70_reset_and_hazards.md R300 and R301: reset, also during a command: the registers and PHASE are 0, the block is idle, and with
nothing more from the host the engine does nothing. -/
def Obligations.ResetEvent : Prop :=
  ∀ (s : State) (rest : List Access), s.host = .reset :: rest → engineTurn s = false →
    ∃ t, step s = .next t ∧ t.status.word = 0x00000000#32 ∧ t.inLen = 0#32 ∧ t.outLen = 0#32 ∧ t.errInfo = 0#32 ∧
      t.phase = 0x0#4 ∧ t.host = rest ∧ engineTurn t = false ∧ (rest = [] → step t = .next t)

/-- 10_state.md R46: what reset leaves, the values the spec gives. -/
def Obligations.ResetValues : Prop :=
  State.reset.status.word = 0x00000000#32 ∧ State.reset.inLen = 0#32 ∧ State.reset.outLen = 0#32 ∧ State.reset.errInfo = 0#32 ∧
  State.reset.phase = 0x0#4 ∧ ∀ off, State.reset.regValue off = 0#32

/-! ## Commands that fault at dispatch -/

/-- 30_encoding.md R93 and 60_exceptions.md R269: a word other than 1 and 2 starts a command that ends at once: STATUS reads
0x00000096, ERR_INFO holds the word, OUT_LEN = 0. The second step is the engine's because the host has no access left to make. -/
def Obligations.IllegalCommand : Prop :=
  ∀ (s : State) (w : Word), w ≠ 0x00000001#32 → w ≠ 0x00000002#32 → s.status.busy = false → s.host = [.regWrite 32 0x00 w] →
    ∃ t u, step s = .next t ∧ step t = .next u ∧
      u.reports .illegalCommand 0x0#4 w ∧ u.status.word = 0x00000096#32 ∧
      u.inLen = s.inLen ∧ u.inbuf = s.inbuf ∧ u.outbuf = s.outbuf

/-- 60_exceptions.md R270: fault entry: OUT_LEN, ERR_INFO and STATUS are written, EPHASE being PHASE; PHASE goes to 0; nothing else
changes. -/
def Obligations.FaultEntry : Prop :=
  ∀ (e : ErrCode) (info : Word) (s : State),
    takeFault e info s = { s with
      outLen := 0#32
      errInfo := info
      status := { busy := false, done := true, err := true, errCode := e.code, ephase := s.phase }
      phase := 0x0#4 } ∧
    1 ≤ e.code.toNat ∧ e.code.toNat ≤ 9

/-! ## The priority queue -/

/-- 40_priority_queue.md R131: the key is (w, n) compared lexicographically, unsigned, and orders all entries. -/
def Obligations.QueueKeyOrder : Prop :=
  (∀ a b : Entry, keyBefore a b = true ↔ a.weight < b.weight ∨ (a.weight = b.weight ∧ a.node < b.node)) ∧
  (∀ a : Entry, keyBefore a a = false) ∧
  (∀ a b c : Entry, keyBefore a b = true → keyBefore b c = true → keyBefore a c = true) ∧
  (∀ a b : Entry, a ≠ b → keyBefore a b = true ∨ keyBefore b a = true)

/-- 40_priority_queue.md R132: PQ_PUSH completes for an index not queued and a queue that is not full; the entry is added, PQ_COUNT
rises by one, PHASE is the caller's again, and nothing else changes. -/
def Obligations.QueuePush : Prop :=
  ∀ s : State, s.pushNode ∉ s.pq.map Entry.node → s.pqCount < 256 →
    ∃ q, exec .pqPush s = .next { s with pq := q, phase := s.callerPhase } ∧
      q.Perm ({ weight := s.pushWeight, node := s.pushNode } :: s.pq) ∧ q.length = s.pqCount + 1

/-- 93_implementation_defined.md U19: the two uses of PQ_PUSH that have no defined result are refused. -/
def Obligations.QueuePushRefusals : Prop :=
  ∀ s : State,
    (s.pushNode ∈ s.pq.map Entry.node → exec .pqPush s = .refused (.pushQueuedNode s.pushNode)) ∧
    (s.pushNode ∉ s.pq.map Entry.node → 256 ≤ s.pqCount → exec .pqPush s = .refused .pushFullQueue)

/-- 40_priority_queue.md R133: PQ_POP_MIN of a queue that is not empty completes: it removes and returns the entry with the least
key, PQ_COUNT falls by one, PHASE is the caller's again, and nothing else changes. -/
def Obligations.QueuePopMin : Prop :=
  ∀ s : State, s.pq ≠ [] →
    ∃ e q, exec .pqPopMin s = .next { s with pq := q, popWeight := e.weight, popNode := e.node, phase := s.callerPhase } ∧
      s.pq.Perm (e :: q) ∧ (∀ x ∈ s.pq, x ≠ e → keyBefore e x = true) ∧ q.length + 1 = s.pqCount

/-- 40_priority_queue.md R133 and 60_exceptions.md R267: PQ_POP_MIN of an empty queue raises EmptyQueueError: STATUS 0x00000376. -/
def Obligations.QueuePopEmpty : Prop :=
  ∀ s : State, s.pq = [] →
    ∃ t, exec .pqPopMin s = .next t ∧ t.reports .emptyQueue 0x3#4 0#32 ∧ t.status.word = 0x00000376#32 ∧
      t.pq = [] ∧ t.node = s.node ∧ t.freq = s.freq ∧ t.inbuf = s.inbuf ∧ t.outbuf = s.outbuf

/-! ## FREQ_SCAN -/

/-- 46_codec_engine.md R233: FREQ_SCAN completes; FREQ[s] is the number of input bytes equal to s, no count
wraps, and the counts sum to IN_LEN; besides FREQ only the cursor
IN_POS and PHASE change. -/
def Obligations.FrequencyScan : Prop :=
  ∀ s : State, s.inLen.toNat ≤ s.params.inMax →
    ∃ f pos, exec .freqScan s = .next { s with phase := 0x1#4, freq := f, inPos := pos } ∧
      (∀ sym : Byte, (f[sym.toNat]'(symbol_lt sym)).toNat = s.inputBytes.count sym) ∧
      (symbols.map fun sym => (f[sym.toNat]'(symbol_lt sym)).toNat).sum = s.inLen.toNat

/-! ## BUILD_TREE -/

/-- 41_tree_builder.md R140 and R141, 10_state.md R42: BUILD_TREE of a table with a present symbol completes: the leaves are those
of the present symbols in ascending value, the arena is one strict binary tree under ROOT, the root's entry is left in the queue,
and besides the arena, ROOT and the queue with its operands only PHASE changes. -/
def Obligations.BuildTreeCompletes : Prop :=
  ∀ s : State, s.alphabet ≠ [] →
    ∃ t, exec .buildTree s = .next t ∧
      t = { s with
        phase := 0x4#4
        node := t.node
        root := t.root
        pq := t.pq
        pushNode := t.pushNode
        pushWeight := t.pushWeight
        popNode := t.popNode
        popWeight := t.popWeight
        callerPhase := t.callerPhase } ∧
      (∀ k, (h : k < s.alphabet.length) →
        t.node[k]? = some (.leaf s.alphabet[k] ((s.freqAt s.alphabet[k]).setWidth 40))) ∧
      t.isTree ∧ ∃ e, t.pq = [e] ∧ entryOf t.node t.root = some e

/-- 41_tree_builder.md R142 and 60_exceptions.md R261: an empty table raises EmptyInputError: STATUS 0x00000416. -/
def Obligations.BuildTreeEmpty : Prop :=
  ∀ s : State, s.alphabet = [] →
    ∃ t, exec .buildTree s = .next t ∧ t.reports .emptyInput 0x4#4 0#32 ∧ t.status.word = 0x00000416#32 ∧
      t.node = [] ∧ t.pq = [] ∧ t.root = s.root ∧ t.freq = s.freq ∧ t.code = s.code ∧ t.inbuf = s.inbuf ∧ t.outbuf = s.outbuf

/-- 41_tree_builder.md R147: the index identities; no sum of weights wraps (R149). -/
def Obligations.TreeIndexIdentities : Prop :=
  ∀ s t : State, s.alphabet ≠ [] → exec .buildTree s = .next t →
    t.nodeCount = 2 * s.alphabet.length - 1 ∧ t.root.toNat = 2 * s.alphabet.length - 2 ∧
    (∀ i, (h : i < t.node.length) → ((∃ sym w, t.node[i] = .leaf sym w) ↔ i < s.alphabet.length)) ∧
    (∀ (i : Nat) (w : Weight) (l r : NodeIx), t.node[i]? = some (.internal w l r) → l.toNat < i ∧ r.toNat < i ∧ l ≠ r) ∧
    (∀ n, t.node[t.root.toNat]? = some n → n.weight.toNat = ((symbols.map fun sym => (s.freqAt sym).toNat).sum)) ∧
    (∀ (i l r : NodeIx) (w : Weight), t.node[i.toNat]? = some (.internal w l r) → w.toNat = leavesBelow t.node t.node.length i) ∧
    (∀ (i j : Nat) (w w' : Weight) (l r l' r' : NodeIx), t.node[i]? = some (.internal w l r) → t.node[j]? = some (.internal w' l' r') → i ≤ j →
      w.toNat ≤ w'.toNat)

/-- 41_tree_builder.md R143 and R144 with 40_priority_queue.md R131: the node popped first is `left`; and the entries are popped in
rising order of the key, two for each internal node, so that these orders fix the tree. -/
def Obligations.TreeSiblingOrder : Prop :=
  ∀ s t : State, s.alphabet ≠ [] → exec .buildTree s = .next t →
    (∀ (i : Nat) (w : Weight) (l r : NodeIx), t.node[i]? = some (.internal w l r) →
      ∃ a b, entryOf t.node l = some a ∧ entryOf t.node r = some b ∧ w = a.weight + b.weight ∧ keyBefore a b = true) ∧
    (∀ (i : Nat) (w w' : Weight) (l r l' r' : NodeIx), t.node[i]? = some (.internal w l r) → t.node[i + 1]? = some (.internal w' l' r') →
      ∃ b a', entryOf t.node r = some b ∧ entryOf t.node l' = some a' ∧ keyBefore b a' = true)

/-- 41_tree_builder.md R148: the arena is a function of FREQ alone. -/
def Obligations.TreeDeterminism : Prop :=
  ∀ s s' t t' : State, s.freq = s'.freq → s.alphabet ≠ [] → exec .buildTree s = .next t → exec .buildTree s' = .next t' →
    t.node = t'.node ∧ t.nodeCount = t'.nodeCount ∧ t.root = t'.root

/-- 41_tree_builder.md R146: one present symbol: its leaf is the root and there is no internal node. -/
def Obligations.OnePresentSymbol : Prop :=
  ∀ (s : State) (sym : Byte), s.alphabet = [sym] →
    ∃ t, exec .buildTree s = .next t ∧ t.nodeCount = 1 ∧ t.root = 0#9 ∧ t.node = [.leaf sym ((s.freqAt sym).setWidth 40)]

/-! ## GEN_CODES -/

/-- 42_code_table.md R160: GEN_CODES completes in every state and changes only CODE and PHASE (and the draw counter, where the arena
is no tree: log 12); in an arena whose children lie below their parents and whose root is Internal, a symbol's code is the path from
the root to a leaf of it, and a symbol with no leaf under the root has no code. -/
def Obligations.CodesArePaths : Prop :=
  ∀ s : State, ∃ codes d, exec .genCodes s = .next { s with phase := 0x5#4, code := codes, draws := d } ∧
    (s.arenaOk = true → d = s.draws ∧
      ∀ (w : Weight) (l r : NodeIx), s.node[s.root.toNat]? = some (.internal w l r) → ∀ sym : Byte,
        isPathTo s.node s.root (codes[sym.toNat]'(symbol_lt sym)) sym ∨
        (codes[sym.toNat]'(symbol_lt sym) = [] ∧ ∀ p, ¬ isPathTo s.node s.root p sym))

/-- 42_code_table.md R161: a root that is a leaf gives its symbol the code "0", and no other symbol a code. -/
def Obligations.RootLeafCode : Prop :=
  ∀ (s : State) (sym : Byte) (w : Weight), s.arenaOk = true → s.node[s.root.toNat]? = some (.leaf sym w) →
    ∃ codes, exec .genCodes s = .next { s with phase := 0x5#4, code := codes } ∧
      ∀ x : Byte, codes[x.toNat]'(symbol_lt x) = if x = sym then [false] else []

/-- 42_code_table.md R162: after BUILD_TREE and GEN_CODES, a symbol has a code exactly when it is present, and no code is a prefix of
another. -/
def Obligations.PrefixCode : Prop :=
  ∀ s b t : State, s.alphabet ≠ [] → exec .buildTree s = .next b → exec .genCodes b = .next t →
    (∀ sym, t.codeAt sym ≠ [] ↔ s.freqAt sym ≠ 0#32) ∧
    (∀ x y, s.freqAt x ≠ 0#32 → s.freqAt y ≠ 0#32 → x ≠ y → ¬ t.codeAt x <+: t.codeAt y)

/-- 42_code_table.md R163: code lengths: 1 to 255, at most L - 1 when L symbols are present, L at least 2. -/
def Obligations.CodeLengths : Prop :=
  ∀ s b t : State, s.alphabet ≠ [] → exec .buildTree s = .next b → exec .genCodes b = .next t →
    ∀ sym, s.freqAt sym ≠ 0#32 → 1 ≤ (t.codeAt sym).length ∧ (t.codeAt sym).length ≤ 255 ∧
      (s.alphabet.length = 1 → (t.codeAt sym).length = 1) ∧
      (2 ≤ s.alphabet.length → (t.codeAt sym).length ≤ s.alphabet.length - 1)

/-! ## ENCODE -/

/-- 43_encoder.md R170: ENCODE of an input all of whose bytes have a code completes: BITS is the codes in input order, NBITS their
number of bits, and besides them only the cursor IN_POS and PHASE change. (Where the codes sum to 2^32 bits or more, which no command
reaches (R174), the spec states no NBITS: their number modulo 2^32 is the model's choice, log 22. Below 2^32 it is the number itself.) -/
def Obligations.EncodeCompletes : Prop :=
  ∀ s : State, s.inLen.toNat ≤ s.params.inMax → (∀ b ∈ s.inputBytes, s.codeAt b ≠ []) →
    ∃ pos, exec .encode s = .next { s with
      phase := 0x6#4
      bits := s.inputBytes.flatMap s.codeAt
      nbits := BitVec.ofNat 32 (s.inputBytes.flatMap s.codeAt).length
      inPos := pos }

/-- 43_encoder.md R171 and 60_exceptions.md R265: the first input byte that has no code raises UnmappedSymbolError with that byte:
STATUS 0x00000656. -/
def Obligations.EncodeUnmapped : Prop :=
  ∀ (s : State) (xs ys : List Byte) (b : Byte), s.inLen.toNat ≤ s.params.inMax → s.inputBytes = xs ++ b :: ys →
    (∀ x ∈ xs, s.codeAt x ≠ []) → s.codeAt b = [] →
    ∃ t, exec .encode s = .next t ∧ t.reports .unmappedSymbol 0x6#4 (b.setWidth 32) ∧ t.status.word = 0x00000656#32 ∧
      t.inbuf = s.inbuf ∧ t.outbuf = s.outbuf ∧ t.freq = s.freq ∧ t.code = s.code ∧ t.node = s.node

/-- 43_encoder.md R172 and R175: PackBits. -/
def Obligations.PackBitsLayout : Prop :=
  (∀ bs : Bits, (packBits bs).length = ceil8 bs.length) ∧
  (∀ (bs : Bits) (j : Nat) (h : j < (packBits bs).length),
    (packBits bs)[j].toNat = ((List.range 8).map fun k => (bs.getD (8 * j + k) false).toNat * 2 ^ (7 - k)).sum) ∧
  (∀ (bs : Bits) (i : Nat) (h : i < bs.length) (h' : byteOffset i < (packBits bs).length),
    bitOf ((packBits bs)[byteOffset i]) i = bs[i]) ∧
  packBits [] = [] ∧ packBits [true] = [0x80#8] ∧ packBits [true, false] = [0x80#8] ∧
  (∀ bs : Bits, 8 * (packBits bs).length - bs.length ≤ 7 ∧ bs.length ≤ 8 * (packBits bs).length)

/-! ## SERIALIZE -/

/-- 45_container.md R200 and R201 (layout 30_encoding.md R95): SERIALIZE of a container that fits completes: ECOUNT is the number of
present symbols; OUTBUF from 0 is entryCount, one entry for each present symbol in ascending value, numberOfBits and the payload
(`State.containerBytes`; NBITS = |BITS| whenever ENCODE has run, R35; where it does not hold, log 22); OUT_POS is past them; every
other byte of OUTBUF is as before; and nothing else but PHASE changes. -/
def Obligations.SerializeCompletes : Prop :=
  ∀ s : State, s.containerSize ≤ s.params.outMax →
    ∃ m, exec .serialize s = .next { s with
        phase := 0x7#4
        ecount := BitVec.ofNat 32 s.alphabet.length
        outPos := BitVec.ofNat 32 s.containerBytes.length
        outbuf := m } ∧
      (s.bits.length = s.nbits.toNat →
        s.containerBytes = headerBytes s.entries s.nbits ++ s.payload ∧ s.containerBytes.length = s.containerSize) ∧
      (∀ k, (h : k < s.containerBytes.length) → Memory.read? m k = some s.containerBytes[k]) ∧
      ∀ a, s.containerBytes.length ≤ a → Memory.read? m a = Memory.read? s.outbuf a

/-- 45_container.md R202 and 60_exceptions.md R268, second row: a container that does not fit raises CapacityError before any byte is
written: STATUS 0x00000786. -/
def Obligations.SerializeCapacity : Prop :=
  ∀ s : State, s.params.outMax < s.containerSize →
    ∃ t, exec .serialize s = .next t ∧ t.reports .capacity 0x7#4 2#32 ∧ t.status.word = 0x00000786#32 ∧
      t.outbuf = s.outbuf ∧ t.inbuf = s.inbuf ∧ t.freq = s.freq ∧ t.bits = s.bits ∧ t.nbits = s.nbits ∧
      t.node = s.node ∧ t.code = s.code

/-! ## DESERIALIZE -/

/-- 45_container.md R203 and R210: DESERIALIZE of a container whose table is acceptable and whose payload is inside the input
completes, with the entries in any order (30_encoding.md R98): FREQ holds the entries and nothing else. -/
def Obligations.DeserializeCompletes : Prop :=
  ∀ (s : State) (es : List (Byte × Word)) (n : Word) (rest : List Byte), s.inLen.toNat ≤ s.params.inMax →
    s.inputBytes = headerBytes es n ++ rest → entriesOk es → ceil8 n.toNat ≤ rest.length →
    ∃ f, exec .deserialize s = .next { s with
        phase := 0x8#4
        freq := f
        ecount := BitVec.ofNat 32 es.length
        nbits := n
        inPos := BitVec.ofNat 32 (8 + 5 * es.length)
        payOff := BitVec.ofNat 32 (8 + 5 * es.length) } ∧
      tableHolds f es ∧ 1 ≤ es.length ∧ es.length ≤ 256 ∧ 8 + 5 * es.length + ceil8 n.toNat ≤ s.inLen.toNat

/-- 45_container.md R204 and R205: an input too short for entryCount raises TruncatedStreamError(0), STATUS 0x00000836; an entryCount
of 0 raises EmptyTableError, STATUS 0x00000826, whatever follows it. -/
def Obligations.DeserializeCountFaults : Prop :=
  ∀ s : State, s.inLen.toNat ≤ s.params.inMax →
    (s.inLen.toNat < 4 →
      ∃ t, exec .deserialize s = .next t ∧ t.reports .truncatedStream 0x8#4 0#32 ∧ t.status.word = 0x00000836#32) ∧
    (∀ rest, s.inputBytes = be32Bytes 0#32 ++ rest →
      ∃ t, exec .deserialize s = .next t ∧ t.reports .emptyTable 0x8#4 0#32 ∧ t.status.word = 0x00000826#32)

/-- 45_container.md R204, R206, R207 and R209: the entry after `es`, all of which pass, ends the command when it is cut short
(TruncatedStreamError at its offset), repeats a symbol (CorruptStreamError 1), or has frequency 0 (CorruptStreamError 2), in that
order. -/
def Obligations.DeserializeEntryFaults : Prop :=
  ∀ (s : State) (count : Word) (es : List (Byte × Word)) (rest : List Byte), s.inLen.toNat ≤ s.params.inMax →
    s.inputBytes = be32Bytes count ++ (es.flatMap fun e => e.1 :: be32Bytes e.2) ++ rest → es.length < count.toNat →
    (es.map Prod.fst).Nodup → (∀ e ∈ es, e.2 ≠ 0#32) →
    (rest.length < 5 →
      ∃ t, exec .deserialize s = .next t ∧ t.reports .truncatedStream 0x8#4 (BitVec.ofNat 32 (4 + 5 * es.length)) ∧
        t.status.word = 0x00000836#32) ∧
    (∀ sym f rest', rest = sym :: be32Bytes f ++ rest' → sym ∈ es.map Prod.fst →
      ∃ t, exec .deserialize s = .next t ∧ t.reports .corruptStream 0x8#4 1#32 ∧ t.status.word = 0x00000846#32) ∧
    (∀ sym rest', rest = sym :: be32Bytes 0#32 ++ rest' → sym ∉ es.map Prod.fst →
      ∃ t, exec .deserialize s = .next t ∧ t.reports .corruptStream 0x8#4 2#32 ∧ t.status.word = 0x00000846#32)

/-- 45_container.md R204: after the entries, a numberOfBits field cut short raises TruncatedStreamError at its offset, and so does a
payload that is shorter than promised, at the payload's offset. -/
def Obligations.DeserializeTailFaults : Prop :=
  ∀ (s : State) (es : List (Byte × Word)) (rest : List Byte), s.inLen.toNat ≤ s.params.inMax → entriesOk es →
    s.inputBytes = be32Bytes (BitVec.ofNat 32 es.length) ++ (es.flatMap fun e => e.1 :: be32Bytes e.2) ++ rest →
    (rest.length < 4 →
      ∃ t, exec .deserialize s = .next t ∧ t.reports .truncatedStream 0x8#4 (BitVec.ofNat 32 (4 + 5 * es.length)) ∧
        t.status.word = 0x00000836#32) ∧
    (∀ n pay, rest = be32Bytes n ++ pay → pay.length < ceil8 n.toNat →
      ∃ t, exec .deserialize s = .next t ∧ t.reports .truncatedStream 0x8#4 (BitVec.ofNat 32 (8 + 5 * es.length)) ∧
        t.status.word = 0x00000836#32)

/-- 45_container.md R211: reading inverts writing: what SERIALIZE wrote, copied to INBUF with IN_LEN at least its size, reads back as
the same FREQ, the same NBITS, and the payload at PAY_OFF. -/
def Obligations.ReadingInvertsWriting : Prop :=
  ∀ s t u : State, s.bits.length = s.nbits.toNat → s.alphabet ≠ [] → s.containerSize ≤ s.params.outMax →
    exec .serialize s = .next t → u.inLen.toNat ≤ u.params.inMax → s.containerSize ≤ u.inLen.toNat →
    (∀ k, k < s.containerSize → Memory.read? t.outbuf k = some (u.inByte k)) →
    ∃ v, exec .deserialize u = .next v ∧ v.status = u.status ∧ v.freq = s.freq ∧ v.nbits = s.nbits ∧
      ∀ k, (h : k < s.payload.length) → v.inByte (v.payOff.toNat + k) = s.payload[k]

/-! ## DECODE -/

/-- 44_decoder.md R186 to R189 and R192: where the payload is inside the input and the walk of its bits from the root (`walkBits`) gives
the bytes `out` and stands on `c` at the end, DECODE writes `out` to OUTBUF from 0 and completes, or ends the command with the first of
its faults. On completion every other byte of OUTBUF is as before, and besides the cursors only PHASE changes. -/
def Obligations.DecodeOutcome : Prop :=
  ∀ (s : State) (out : List Byte) (c : NodeIx), s.inLen.toNat ≤ s.params.inMax → s.arenaOk = true →
    s.payOff.toNat + ceil8 s.nbits.toNat ≤ s.inLen.toNat → walkBits s.node s.root s.root s.payloadBits = some (out, c) →
    ∃ t, exec .decode s = .next t ∧
      if s.params.outMax < s.freqSum.toNat ∧ s.params.outMax < out.length then
        t.reports .capacity 0x9#4 2#32 ∧ t.status.word = 0x00000986#32
      else if s.freqSum.toNat < out.length then t.reports .corruptStream 0x9#4 4#32 ∧ t.status.word = 0x00000946#32
      else if c ≠ s.root then t.reports .corruptStream 0x9#4 3#32 ∧ t.status.word = 0x00000946#32
      else if out.length ≠ s.freqSum.toNat then t.reports .corruptStream 0x9#4 4#32 ∧ t.status.word = 0x00000946#32
      else t = { s with
          phase := 0x9#4
          outbuf := t.outbuf
          expected := s.freqSum
          emitted := BitVec.ofNat 32 out.length
          cur := s.root
          bitPos := t.bitPos } ∧
        t.outHolds 0 out ∧ ∀ a, out.length ≤ a → Memory.read? t.outbuf a = Memory.read? s.outbuf a

/-- 44_decoder.md R190: under a root that is a leaf every bit, 0 or 1, is one occurrence of its symbol. -/
def Obligations.DecodeSingleLeaf : Prop :=
  ∀ (s : State) (sym : Byte) (w : Weight), s.inLen.toNat ≤ s.params.inMax → s.arenaOk = true →
    s.payOff.toNat + ceil8 s.nbits.toNat ≤ s.inLen.toNat → s.node[s.root.toNat]? = some (.leaf sym w) →
    s.nbits.toNat = s.freqSum.toNat → s.nbits.toNat ≤ s.params.outMax →
    ∃ t, exec .decode s = .next t ∧ t.status = s.status ∧ t.cur = t.root ∧ t.emitted = s.nbits ∧
      t.outHolds 0 (List.replicate s.nbits.toNat sym)

/-- 44_decoder.md R188 and 30_encoding.md R100: the bits after the last significant one are not looked at: two states that differ only
in INBUF, and hold the same payload bits, decode alike. (In an arena that is no tree, `s.arenaOk = false`, the spec states no walk: that
DECODE completes there, over free values for the nodes and children, is the model's choice, log 12; and that both runs draw the same
free values, so that they agree there too, is the model's choice, log 4. Where `s.arenaOk = true` no clause rests on either.) -/
def Obligations.DecodeIgnoresPadding : Prop :=
  ∀ (s : State) (m : Memory), s.inLen.toNat ≤ s.params.inMax → s.payOff.toNat + ceil8 s.nbits.toNat ≤ s.inLen.toNat →
    State.payloadBits { s with inbuf := m } = s.payloadBits →
    ∃ t, exec .decode s = .next t ∧ exec .decode { s with inbuf := m } = .next { t with inbuf := m }

/-- 44_decoder.md R194: the concatenated codes of symbols of the tree walk back to the symbols, and the walk ends at the root. -/
def Obligations.DecodingInvertsEncoding : Prop :=
  ∀ (s b t : State) (syms : List Byte), s.alphabet ≠ [] → exec .buildTree s = .next b → exec .genCodes b = .next t →
    syms ≠ [] → (∀ x ∈ syms, x ∈ s.alphabet) →
    walkBits t.node t.root t.root (syms.flatMap t.codeAt) = some (syms, t.root)

/-! ## The commands -/

/-- 46_codec_engine.md R234, 60_exceptions.md R261: COMPRESS of the empty input fails with EmptyInputError and never produces a
container. -/
def Obligations.CompressEmpty : Prop :=
  ∀ s : State, s.inLen = 0#32 →
    ∃ t, exec .compress s = .next t ∧ t.reports .emptyInput 0x4#4 0#32 ∧ t.status.word = 0x00000416#32 ∧ t.outbuf = s.outbuf

/-- 46_codec_engine.md R239 with R234: COMPRESS of a non-empty input that fits INBUF completes. The container has one entry for each
distinct byte value, the frequencies sum to IN_LEN, numberOfBits is at least 1, the payload has ceil(numberOfBits / 8) bytes and its
pad bits are 0. It is written when it fits OUTBUF, as it does when OUT_MAX is as large as 00_scope.md R8 asks for; else the command
ends with CapacityError(2), STATUS 0x00000786, and nothing is written. -/
def Obligations.CompressCompletes : Prop :=
  ∀ s : State, 1 ≤ s.inLen.toNat → s.inLen.toNat ≤ s.params.inMax →
    ∃ (t : State) (es : List (Byte × Word)) (bits : Bits), exec .compress s = .next t ∧
      es.Pairwise (fun a b => a.1 < b.1) ∧ (∀ sym, sym ∈ es.map Prod.fst ↔ sym ∈ s.inputBytes) ∧
      (∀ e ∈ es, e.2.toNat = s.inputBytes.count e.1) ∧ (es.map fun e => e.2.toNat).sum = s.inLen.toNat ∧
      1 ≤ bits.length ∧ bits.length < 2 ^ 32 ∧
      8 + 5 * es.length + ceil8 bits.length ≤ 1288 + ceil8 (255 * s.inLen.toNat) ∧
      t.inbuf = s.inbuf ∧ t.inLen = s.inLen ∧
      (8 + 5 * es.length + ceil8 bits.length ≤ s.params.outMax →
        t.succeeds (8 + 5 * es.length + ceil8 bits.length) ∧ t.status.word = 0x00000002#32 ∧
        t.outHolds 0 (headerBytes es (BitVec.ofNat 32 bits.length) ++ packBits bits) ∧
        ∀ a, 8 + 5 * es.length + ceil8 bits.length ≤ a → Memory.read? t.outbuf a = Memory.read? s.outbuf a) ∧
      (s.params.outMax < 8 + 5 * es.length + ceil8 bits.length →
        t.reports .capacity 0x7#4 2#32 ∧ t.status.word = 0x00000786#32 ∧ t.outbuf = s.outbuf)

/-- 46_codec_engine.md R238: the round trip: if COMPRESS of `b` succeeds with a container that fits INBUF, and `b` fits OUTBUF, then
DECOMPRESS of the container, in any state of a block with the same capacities, succeeds with output `b`. -/
def Obligations.RoundTrip : Prop :=
  ∀ s t u : State, 1 ≤ s.inLen.toNat → s.inLen.toNat ≤ s.params.inMax → s.inLen.toNat ≤ s.params.outMax →
    exec .compress s = .next t → t.status = Status.succeeded → t.outLen.toNat ≤ s.params.inMax →
    u.params = s.params → u.inLen = t.outLen → (∀ k, k < t.outLen.toNat → Memory.read? t.outbuf k = some (u.inByte k)) →
    ∃ v, exec .decompress u = .next v ∧ v.succeeds s.inLen.toNat ∧ v.outHolds 0 s.inputBytes

/-- 46_codec_engine.md R235 and 30_encoding.md R102: DECOMPRESS completes, on conditions on IN_LEN, the input bytes and the capacities
alone: the input is a container whose table is acceptable and whose payload is inside the input (with or without bytes after it, R101),
and the payload bits walk, in the tree of the entries (`treeOf`: 41_tree_builder.md R140 as a function of the table), to as many symbols
as the frequencies sum to and back to the root. It succeeds with those symbols. BUILD_TREE on the table of the entries makes that very
tree (R148). -/
def Obligations.DecompressCompletes : Prop :=
  ∀ (s : State) (es : List (Byte × Word)) (n : Word) (rest : List Byte) (f : Vector Word 256),
    s.inLen.toNat ≤ s.params.inMax → s.inputBytes = headerBytes es n ++ rest → entriesOk es → ceil8 n.toNat ≤ rest.length →
    tableHolds f es →
    (∃ b, exec .buildTree { s with freq := f } = .next b ∧ b.node = (treeOf f).1 ∧ b.root = (treeOf f).2) ∧
    ∀ out : List Byte,
      walkBits (treeOf f).1 (treeOf f).2 (treeOf f).2
        ((List.range n.toNat).map fun i => bitOf (rest.getD (byteOffset i) 0#8) i) = some (out, (treeOf f).2) →
      out.length = (es.map fun e => e.2.toNat).sum → out.length ≤ s.params.outMax →
      ∃ t, exec .decompress s = .next t ∧ t.succeeds out.length ∧ t.outHolds 0 out ∧ t.inbuf = s.inbuf ∧ t.inLen = s.inLen ∧
        ∀ a, out.length ≤ a → Memory.read? t.outbuf a = Memory.read? s.outbuf a

/-- 46_codec_engine.md R242 and 10_state.md R41: the outcome of a command depends on the input bytes, IN_LEN and the capacities alone,
not on any earlier command. -/
def Obligations.CommandIsFunctionOfInput : Prop :=
  ∀ (i : Instr) (s s' t : State), i = .compress ∨ i = .decompress → s'.params = s.params → s'.inLen = s.inLen →
    s'.inputBytes = s.inputBytes → exec i s = .next t →
    ∃ t', exec i s' = .next t' ∧ t'.status = t.status ∧ t'.errInfo = t.errInfo ∧ t'.outLen = t.outLen ∧
      ∀ k, k < t.outLen.toNat → Memory.read? t'.outbuf k = Memory.read? t.outbuf k

/-- 46_codec_engine.md R240: a command run as one transition and the same command run micro-operation by micro-operation end in the same
block. Six moves are enough for dispatch and five micro-operations, and the idle engine does nothing after them. -/
def Obligations.CommandIsAtomic : Prop :=
  ∀ (i : Instr) (s : State), s.status = Status.running → s.phase = 0x0#4 → s.host = [] → decodeCmd s.op = .ok i →
    ∃ t u, exec i s = .next t ∧ Sys2Proof.core.run 6 { s with bySteps := true } = .next u ∧ SameBlock u t

/-- 46_codec_engine.md R241: every command ends: from any state of a block driven as the spec says, BUSY is 0 after finitely many steps,
whatever the host does and however the schedule's free values fall. -/
def Obligations.EveryCommandEnds : Prop :=
  ∀ s : State, s.Ready → ∃ n t, Sys2Proof.core.run n s = .next t ∧ t.status.busy = false

/-! ## Every state, every instruction -/

/-- 10_state.md R28, R24, R47: no instruction writes INBUF, IN_LEN, OP, the capacities, or anything that is the host's. -/
def Obligations.NoInstructionWritesInput : Prop :=
  ∀ (i : Instr) (s t : State), exec i s = .next t →
    t.inbuf = s.inbuf ∧ t.inLen = s.inLen ∧ t.params = s.params ∧ t.op = s.op ∧ t.host = s.host ∧ t.seen = s.seen ∧
    t.epoch = s.epoch ∧ t.slots = s.slots ∧ t.bySteps = s.bySteps

/-- 10_state.md R30 to R37: which micro-operations write which state: every other micro-operation leaves it unchanged. -/
def Obligations.WriteOwnership : Prop :=
  ∀ (i : Instr) (s t : State), i.slot = .phase → exec i s = .next t →
    (i ≠ .freqScan → i ≠ .deserialize → t.freq = s.freq) ∧
    (i ≠ .genCodes → t.code = s.code) ∧
    (i ≠ .buildTree → t.node = s.node ∧ t.root = s.root) ∧
    (i ≠ .buildTree → i ≠ .pqPush → i ≠ .pqPopMin → t.pq = s.pq) ∧
    (i ≠ .encode → t.bits = s.bits) ∧
    (i ≠ .encode → i ≠ .deserialize → t.nbits = s.nbits) ∧
    (i ≠ .serialize → i ≠ .deserialize → t.ecount = s.ecount) ∧
    (i ≠ .deserialize → t.payOff = s.payOff) ∧
    (i ≠ .serialize → i ≠ .decode → t.outbuf = s.outbuf) ∧
    (i ≠ .serialize → t.outPos = s.outPos) ∧
    (i ≠ .freqScan → i ≠ .encode → i ≠ .deserialize → t.inPos = s.inPos) ∧
    (i ≠ .decode → t.bitPos = s.bitPos ∧ t.cur = s.cur ∧ t.emitted = s.emitted ∧ t.expected = s.expected)

/-- 60_exceptions.md R260 and R270, 10_state.md R23: a micro-operation leaves STATUS, OUT_LEN and ERR_INFO as they were, or it has ended
the command with one of the errors its row of R260 names, recorded as R270 says. -/
def Obligations.MicroOperationFaults : Prop :=
  ∀ (i : Instr) (s t : State) (p : PhaseNum), i.phaseNumber = some p → exec i s = .next t →
    (t.status = s.status ∧ t.outLen = s.outLen ∧ t.errInfo = s.errInfo) ∨
    ∃ e q info, t.reports e q info ∧ (e.code, q) ∈ faultSites ∧ (q = p ∨ (i = .buildTree ∧ q = 0x3#4))

/-- The invariant holds at reset. -/
def Obligations.ResetInvariant : Prop := State.reset.Inv

/-- The invariant of the block is kept by every step: the buffers keep their canonical form and their bounds, STATUS is one of the four
states of 10_state.md R23 with an error and a phase that R260 pairs, PHASE is 0 while idle and a named number while running (R38, R105),
OUT_LEN and ERR_INFO are 0 where R25 and R26 say so, every byte below OUT_LEN has been written (R29), and the queue and the arena stay
within 40_priority_queue.md R135 and 10_state.md R32. -/
def Obligations.StepKeepsInvariant : Prop :=
  ∀ s t : State, s.Inv → step s = .next t → t.Inv

/-- 20_memory.md R76 and 93_implementation_defined.md U17: a block driven as the spec says never stops: every step answers a next state,
which is again one of a block driven as the spec says. In particular the engine never reads outside the input and never writes outside
OUTBUF. -/
def Obligations.ReadyNeverStops : Prop :=
  ∀ s : State, s.Ready → ∃ t, step s = .next t ∧ t.Ready
end

