-- ==== Sys2Proof/Laws/State.lean ====
section
/-!
SUPPORT. The named updates of State, field by field: one lemma per field per update, so that no proof unfolds a record update.
-/
namespace Sys2Proof.Machine

variable (s : State)

/-! ## setPhase -/

@[simp] theorem setPhase_params (p : PhaseNum) : (setPhase p s).params = s.params := rfl
@[simp] theorem setPhase_status (p : PhaseNum) : (setPhase p s).status = s.status := rfl
@[simp] theorem setPhase_inLen (p : PhaseNum) : (setPhase p s).inLen = s.inLen := rfl
@[simp] theorem setPhase_outLen (p : PhaseNum) : (setPhase p s).outLen = s.outLen := rfl
@[simp] theorem setPhase_errInfo (p : PhaseNum) : (setPhase p s).errInfo = s.errInfo := rfl
@[simp] theorem setPhase_inbuf (p : PhaseNum) : (setPhase p s).inbuf = s.inbuf := rfl
@[simp] theorem setPhase_outbuf (p : PhaseNum) : (setPhase p s).outbuf = s.outbuf := rfl
@[simp] theorem setPhase_freq (p : PhaseNum) : (setPhase p s).freq = s.freq := rfl
@[simp] theorem setPhase_code (p : PhaseNum) : (setPhase p s).code = s.code := rfl
@[simp] theorem setPhase_node (p : PhaseNum) : (setPhase p s).node = s.node := rfl
@[simp] theorem setPhase_root (p : PhaseNum) : (setPhase p s).root = s.root := rfl
@[simp] theorem setPhase_pq (p : PhaseNum) : (setPhase p s).pq = s.pq := rfl
@[simp] theorem setPhase_bits (p : PhaseNum) : (setPhase p s).bits = s.bits := rfl
@[simp] theorem setPhase_nbits (p : PhaseNum) : (setPhase p s).nbits = s.nbits := rfl
@[simp] theorem setPhase_ecount (p : PhaseNum) : (setPhase p s).ecount = s.ecount := rfl
@[simp] theorem setPhase_payOff (p : PhaseNum) : (setPhase p s).payOff = s.payOff := rfl
@[simp] theorem setPhase_inPos (p : PhaseNum) : (setPhase p s).inPos = s.inPos := rfl
@[simp] theorem setPhase_outPos (p : PhaseNum) : (setPhase p s).outPos = s.outPos := rfl
@[simp] theorem setPhase_bitPos (p : PhaseNum) : (setPhase p s).bitPos = s.bitPos := rfl
@[simp] theorem setPhase_cur (p : PhaseNum) : (setPhase p s).cur = s.cur := rfl
@[simp] theorem setPhase_emitted (p : PhaseNum) : (setPhase p s).emitted = s.emitted := rfl
@[simp] theorem setPhase_expected (p : PhaseNum) : (setPhase p s).expected = s.expected := rfl
@[simp] theorem setPhase_phase (p : PhaseNum) : (setPhase p s).phase = p := rfl
@[simp] theorem setPhase_op (p : PhaseNum) : (setPhase p s).op = s.op := rfl
@[simp] theorem setPhase_pushNode (p : PhaseNum) : (setPhase p s).pushNode = s.pushNode := rfl
@[simp] theorem setPhase_pushWeight (p : PhaseNum) : (setPhase p s).pushWeight = s.pushWeight := rfl
@[simp] theorem setPhase_popNode (p : PhaseNum) : (setPhase p s).popNode = s.popNode := rfl
@[simp] theorem setPhase_popWeight (p : PhaseNum) : (setPhase p s).popWeight = s.popWeight := rfl
@[simp] theorem setPhase_callerPhase (p : PhaseNum) : (setPhase p s).callerPhase = s.callerPhase := rfl
@[simp] theorem setPhase_host (p : PhaseNum) : (setPhase p s).host = s.host := rfl
@[simp] theorem setPhase_seen (p : PhaseNum) : (setPhase p s).seen = s.seen := rfl
@[simp] theorem setPhase_slots (p : PhaseNum) : (setPhase p s).slots = s.slots := rfl
@[simp] theorem setPhase_bySteps (p : PhaseNum) : (setPhase p s).bySteps = s.bySteps := rfl
@[simp] theorem setPhase_draws (p : PhaseNum) : (setPhase p s).draws = s.draws := rfl
@[simp] theorem setPhase_epoch (p : PhaseNum) : (setPhase p s).epoch = s.epoch := rfl

/-! ## takeFault -/

@[simp] theorem takeFault_params (e : ErrCode) (info : Word) : (takeFault e info s).params = s.params := rfl
@[simp] theorem takeFault_status (e : ErrCode) (info : Word) : (takeFault e info s).status = Status.failed e s.phase := rfl
@[simp] theorem takeFault_inLen (e : ErrCode) (info : Word) : (takeFault e info s).inLen = s.inLen := rfl
@[simp] theorem takeFault_outLen (e : ErrCode) (info : Word) : (takeFault e info s).outLen = 0#32 := rfl
@[simp] theorem takeFault_errInfo (e : ErrCode) (info : Word) : (takeFault e info s).errInfo = info := rfl
@[simp] theorem takeFault_inbuf (e : ErrCode) (info : Word) : (takeFault e info s).inbuf = s.inbuf := rfl
@[simp] theorem takeFault_outbuf (e : ErrCode) (info : Word) : (takeFault e info s).outbuf = s.outbuf := rfl
@[simp] theorem takeFault_freq (e : ErrCode) (info : Word) : (takeFault e info s).freq = s.freq := rfl
@[simp] theorem takeFault_code (e : ErrCode) (info : Word) : (takeFault e info s).code = s.code := rfl
@[simp] theorem takeFault_node (e : ErrCode) (info : Word) : (takeFault e info s).node = s.node := rfl
@[simp] theorem takeFault_root (e : ErrCode) (info : Word) : (takeFault e info s).root = s.root := rfl
@[simp] theorem takeFault_pq (e : ErrCode) (info : Word) : (takeFault e info s).pq = s.pq := rfl
@[simp] theorem takeFault_bits (e : ErrCode) (info : Word) : (takeFault e info s).bits = s.bits := rfl
@[simp] theorem takeFault_nbits (e : ErrCode) (info : Word) : (takeFault e info s).nbits = s.nbits := rfl
@[simp] theorem takeFault_ecount (e : ErrCode) (info : Word) : (takeFault e info s).ecount = s.ecount := rfl
@[simp] theorem takeFault_payOff (e : ErrCode) (info : Word) : (takeFault e info s).payOff = s.payOff := rfl
@[simp] theorem takeFault_inPos (e : ErrCode) (info : Word) : (takeFault e info s).inPos = s.inPos := rfl
@[simp] theorem takeFault_outPos (e : ErrCode) (info : Word) : (takeFault e info s).outPos = s.outPos := rfl
@[simp] theorem takeFault_bitPos (e : ErrCode) (info : Word) : (takeFault e info s).bitPos = s.bitPos := rfl
@[simp] theorem takeFault_cur (e : ErrCode) (info : Word) : (takeFault e info s).cur = s.cur := rfl
@[simp] theorem takeFault_emitted (e : ErrCode) (info : Word) : (takeFault e info s).emitted = s.emitted := rfl
@[simp] theorem takeFault_expected (e : ErrCode) (info : Word) : (takeFault e info s).expected = s.expected := rfl
@[simp] theorem takeFault_phase (e : ErrCode) (info : Word) : (takeFault e info s).phase = 0#4 := rfl
@[simp] theorem takeFault_op (e : ErrCode) (info : Word) : (takeFault e info s).op = s.op := rfl
@[simp] theorem takeFault_pushNode (e : ErrCode) (info : Word) : (takeFault e info s).pushNode = s.pushNode := rfl
@[simp] theorem takeFault_pushWeight (e : ErrCode) (info : Word) : (takeFault e info s).pushWeight = s.pushWeight := rfl
@[simp] theorem takeFault_popNode (e : ErrCode) (info : Word) : (takeFault e info s).popNode = s.popNode := rfl
@[simp] theorem takeFault_popWeight (e : ErrCode) (info : Word) : (takeFault e info s).popWeight = s.popWeight := rfl
@[simp] theorem takeFault_callerPhase (e : ErrCode) (info : Word) : (takeFault e info s).callerPhase = s.callerPhase := rfl
@[simp] theorem takeFault_host (e : ErrCode) (info : Word) : (takeFault e info s).host = s.host := rfl
@[simp] theorem takeFault_seen (e : ErrCode) (info : Word) : (takeFault e info s).seen = s.seen := rfl
@[simp] theorem takeFault_slots (e : ErrCode) (info : Word) : (takeFault e info s).slots = s.slots := rfl
@[simp] theorem takeFault_bySteps (e : ErrCode) (info : Word) : (takeFault e info s).bySteps = s.bySteps := rfl
@[simp] theorem takeFault_draws (e : ErrCode) (info : Word) : (takeFault e info s).draws = s.draws := rfl
@[simp] theorem takeFault_epoch (e : ErrCode) (info : Word) : (takeFault e info s).epoch = s.epoch := rfl

/-! ## finishCommand -/

@[simp] theorem finishCommand_params (len : Word) : (finishCommand len s).params = s.params := rfl
@[simp] theorem finishCommand_status (len : Word) : (finishCommand len s).status = Status.succeeded := rfl
@[simp] theorem finishCommand_inLen (len : Word) : (finishCommand len s).inLen = s.inLen := rfl
@[simp] theorem finishCommand_outLen (len : Word) : (finishCommand len s).outLen = len := rfl
@[simp] theorem finishCommand_errInfo (len : Word) : (finishCommand len s).errInfo = 0#32 := rfl
@[simp] theorem finishCommand_inbuf (len : Word) : (finishCommand len s).inbuf = s.inbuf := rfl
@[simp] theorem finishCommand_outbuf (len : Word) : (finishCommand len s).outbuf = s.outbuf := rfl
@[simp] theorem finishCommand_freq (len : Word) : (finishCommand len s).freq = s.freq := rfl
@[simp] theorem finishCommand_code (len : Word) : (finishCommand len s).code = s.code := rfl
@[simp] theorem finishCommand_node (len : Word) : (finishCommand len s).node = s.node := rfl
@[simp] theorem finishCommand_root (len : Word) : (finishCommand len s).root = s.root := rfl
@[simp] theorem finishCommand_pq (len : Word) : (finishCommand len s).pq = s.pq := rfl
@[simp] theorem finishCommand_bits (len : Word) : (finishCommand len s).bits = s.bits := rfl
@[simp] theorem finishCommand_nbits (len : Word) : (finishCommand len s).nbits = s.nbits := rfl
@[simp] theorem finishCommand_ecount (len : Word) : (finishCommand len s).ecount = s.ecount := rfl
@[simp] theorem finishCommand_payOff (len : Word) : (finishCommand len s).payOff = s.payOff := rfl
@[simp] theorem finishCommand_inPos (len : Word) : (finishCommand len s).inPos = s.inPos := rfl
@[simp] theorem finishCommand_outPos (len : Word) : (finishCommand len s).outPos = s.outPos := rfl
@[simp] theorem finishCommand_bitPos (len : Word) : (finishCommand len s).bitPos = s.bitPos := rfl
@[simp] theorem finishCommand_cur (len : Word) : (finishCommand len s).cur = s.cur := rfl
@[simp] theorem finishCommand_emitted (len : Word) : (finishCommand len s).emitted = s.emitted := rfl
@[simp] theorem finishCommand_expected (len : Word) : (finishCommand len s).expected = s.expected := rfl
@[simp] theorem finishCommand_phase (len : Word) : (finishCommand len s).phase = 0#4 := rfl
@[simp] theorem finishCommand_op (len : Word) : (finishCommand len s).op = s.op := rfl
@[simp] theorem finishCommand_pushNode (len : Word) : (finishCommand len s).pushNode = s.pushNode := rfl
@[simp] theorem finishCommand_pushWeight (len : Word) : (finishCommand len s).pushWeight = s.pushWeight := rfl
@[simp] theorem finishCommand_popNode (len : Word) : (finishCommand len s).popNode = s.popNode := rfl
@[simp] theorem finishCommand_popWeight (len : Word) : (finishCommand len s).popWeight = s.popWeight := rfl
@[simp] theorem finishCommand_callerPhase (len : Word) : (finishCommand len s).callerPhase = s.callerPhase := rfl
@[simp] theorem finishCommand_host (len : Word) : (finishCommand len s).host = s.host := rfl
@[simp] theorem finishCommand_seen (len : Word) : (finishCommand len s).seen = s.seen := rfl
@[simp] theorem finishCommand_slots (len : Word) : (finishCommand len s).slots = s.slots := rfl
@[simp] theorem finishCommand_bySteps (len : Word) : (finishCommand len s).bySteps = s.bySteps := rfl
@[simp] theorem finishCommand_draws (len : Word) : (finishCommand len s).draws = s.draws := rfl
@[simp] theorem finishCommand_epoch (len : Word) : (finishCommand len s).epoch = s.epoch := rfl

/-! ## startCommand -/

@[simp] theorem startCommand_params (v : Word) : (startCommand v s).params = s.params := rfl
@[simp] theorem startCommand_status (v : Word) : (startCommand v s).status = Status.running := rfl
@[simp] theorem startCommand_inLen (v : Word) : (startCommand v s).inLen = s.inLen := rfl
@[simp] theorem startCommand_outLen (v : Word) : (startCommand v s).outLen = 0#32 := rfl
@[simp] theorem startCommand_errInfo (v : Word) : (startCommand v s).errInfo = 0#32 := rfl
@[simp] theorem startCommand_inbuf (v : Word) : (startCommand v s).inbuf = s.inbuf := rfl
@[simp] theorem startCommand_outbuf (v : Word) : (startCommand v s).outbuf = s.outbuf := rfl
@[simp] theorem startCommand_freq (v : Word) : (startCommand v s).freq = zeroFreq := rfl
@[simp] theorem startCommand_code (v : Word) : (startCommand v s).code = noCodes := rfl
@[simp] theorem startCommand_node (v : Word) : (startCommand v s).node = [] := rfl
@[simp] theorem startCommand_root (v : Word) : (startCommand v s).root = s.root := rfl
@[simp] theorem startCommand_pq (v : Word) : (startCommand v s).pq = [] := rfl
@[simp] theorem startCommand_bits (v : Word) : (startCommand v s).bits = [] := rfl
@[simp] theorem startCommand_nbits (v : Word) : (startCommand v s).nbits = 0#32 := rfl
@[simp] theorem startCommand_ecount (v : Word) : (startCommand v s).ecount = 0#32 := rfl
@[simp] theorem startCommand_payOff (v : Word) : (startCommand v s).payOff = 0#32 := rfl
@[simp] theorem startCommand_inPos (v : Word) : (startCommand v s).inPos = 0#32 := rfl
@[simp] theorem startCommand_outPos (v : Word) : (startCommand v s).outPos = 0#32 := rfl
@[simp] theorem startCommand_bitPos (v : Word) : (startCommand v s).bitPos = 0#32 := rfl
@[simp] theorem startCommand_cur (v : Word) : (startCommand v s).cur = 0#9 := rfl
@[simp] theorem startCommand_emitted (v : Word) : (startCommand v s).emitted = 0#32 := rfl
@[simp] theorem startCommand_expected (v : Word) : (startCommand v s).expected = 0#40 := rfl
@[simp] theorem startCommand_phase (v : Word) : (startCommand v s).phase = 0#4 := rfl
@[simp] theorem startCommand_op (v : Word) : (startCommand v s).op = v := rfl
@[simp] theorem startCommand_pushNode (v : Word) : (startCommand v s).pushNode = 0#9 := rfl
@[simp] theorem startCommand_pushWeight (v : Word) : (startCommand v s).pushWeight = 0#40 := rfl
@[simp] theorem startCommand_popNode (v : Word) : (startCommand v s).popNode = 0#9 := rfl
@[simp] theorem startCommand_popWeight (v : Word) : (startCommand v s).popWeight = 0#40 := rfl
@[simp] theorem startCommand_callerPhase (v : Word) : (startCommand v s).callerPhase = 0#4 := rfl
@[simp] theorem startCommand_host (v : Word) : (startCommand v s).host = s.host := rfl
@[simp] theorem startCommand_seen (v : Word) : (startCommand v s).seen = s.seen := rfl
@[simp] theorem startCommand_slots (v : Word) : (startCommand v s).slots = s.slots := rfl
@[simp] theorem startCommand_bySteps (v : Word) : (startCommand v s).bySteps = s.bySteps := rfl
@[simp] theorem startCommand_draws (v : Word) : (startCommand v s).draws = s.draws := rfl
@[simp] theorem startCommand_epoch (v : Word) : (startCommand v s).epoch = s.epoch := rfl

/-! ## The flags of each STATUS -/

@[simp] theorem idle_busy : Status.idle.busy = false := rfl
@[simp] theorem running_busy : Status.running.busy = true := rfl
@[simp] theorem succeeded_busy : Status.succeeded.busy = false := rfl
@[simp] theorem failed_busy (e : ErrCode) (p : PhaseNum) : (Status.failed e p).busy = false := rfl
@[simp] theorem running_err : Status.running.err = false := rfl
@[simp] theorem succeeded_err : Status.succeeded.err = false := rfl
@[simp] theorem failed_err (e : ErrCode) (p : PhaseNum) : (Status.failed e p).err = true := rfl

end Sys2Proof.Machine
end

