-- ==== Sys2Proof/Laws/Memory.lean ====
section
/-!
SUPPORT. The buffers: a read after a write, what a write leaves alone, and that every operation keeps the canonical form.
-/
namespace Sys2Proof.Machine

@[simp] theorem read?_nil (a : Nat) : Memory.read? [] a = none := rfl

theorem read?_write (m : Memory) (a c : Nat) (b : Byte) :
    Memory.read? (Memory.write m a b) c = if c = a then some b else Memory.read? m c := by
  induction m with
  | nil => simp [Memory.write, Memory.read?]
  | cons x m ih =>
    obtain ⟨k, v⟩ := x
    simp only [Memory.write]
    split_ifs <;> simp only [Memory.read?, ih] <;> split_ifs <;> simp_all

theorem read?_writeBytes (bs : List Byte) (m : Memory) (a c : Nat) :
    Memory.read? (Memory.writeBytes m a bs) c =
      if a ≤ c ∧ c < a + bs.length then bs[c - a]? else Memory.read? m c := by
  induction bs generalizing m a with
  | nil => simp [Memory.writeBytes]
  | cons b bs ih =>
    rw [Memory.writeBytes, ih, read?_write]
    by_cases h1 : c = a
    · subst h1; simp
    · by_cases h2 : a + 1 ≤ c ∧ c < a + 1 + bs.length
      · have e : c - a = (c - (a + 1)) + 1 := by omega
        rw [if_pos h2, if_pos (by simp; omega), e, List.getElem?_cons_succ]
      · rw [if_neg h2, if_neg h1, if_neg (by simp; omega)]

theorem read?_writeBytes_inside (bs : List Byte) (m : Memory) (a k : Nat) (h : k < bs.length) :
    Memory.read? (Memory.writeBytes m a bs) (a + k) = some bs[k] := by
  rw [read?_writeBytes, if_pos (by omega)]; simp [h]

theorem read?_writeBytes_outside (bs : List Byte) (m : Memory) (a c : Nat) (h : c < a ∨ a + bs.length ≤ c) :
    Memory.read? (Memory.writeBytes m a bs) c = Memory.read? m c := by
  rw [read?_writeBytes, if_neg (by omega)]

theorem mem_write {m : Memory} {a : Nat} {b : Byte} {x : Host.Cell} (h : x ∈ Memory.write m a b) :
    x = (a, b) ∨ x ∈ m := by
  induction m with
  | nil => simpa [Memory.write] using h
  | cons y m ih =>
    simp only [Memory.write] at h
    split_ifs at h
    · simpa using h
    · rcases List.mem_cons.1 h with h | h
      · exact .inl h
      · exact .inr (List.mem_cons_of_mem _ h)
    · rcases List.mem_cons.1 h with h | h
      · exact .inr (h ▸ List.mem_cons_self)
      · exact (ih h).imp id (List.mem_cons_of_mem _)

theorem wf_write {m : Memory} (h : Memory.wf m) (a : Nat) (b : Byte) : Memory.wf (Memory.write m a b) := by
  induction m with
  | nil => simp [Memory.write, Memory.wf]
  | cons y m ih =>
    obtain ⟨k, v⟩ := y
    simp only [Memory.wf, List.pairwise_cons] at h
    simp only [Memory.write]
    split_ifs with h1 h2
    · refine List.pairwise_cons.2 ⟨fun x hx => ?_, List.pairwise_cons.2 h⟩
      rcases List.mem_cons.1 hx with rfl | hx
      · exact h1
      · exact lt_trans h1 (h.1 x hx)
    · subst h2; exact List.pairwise_cons.2 h
    · refine List.pairwise_cons.2 ⟨fun x hx => ?_, ih h.2⟩
      rcases mem_write hx with rfl | hx
      · show k < a; omega
      · exact h.1 x hx

theorem wf_writeBytes (bs : List Byte) {m : Memory} (h : Memory.wf m) (a : Nat) : Memory.wf (Memory.writeBytes m a bs) := by
  induction bs generalizing m a with
  | nil => exact h
  | cons b bs ih => exact ih (wf_write h a b) (a + 1)

theorem below_writeBytes (bs : List Byte) {m : Memory} {top a : Nat} (h : ∀ c ∈ m, c.1 < top) (ha : a + bs.length ≤ top) :
    ∀ c ∈ Memory.writeBytes m a bs, c.1 < top := by
  induction bs generalizing m a with
  | nil => exact h
  | cons b bs ih =>
    simp only [List.length_cons] at ha
    refine ih (fun c hc => ?_) (by omega)
    rcases mem_write hc with rfl | hc
    · show a < top; omega
    · exact h c hc

theorem mem_of_read? {m : Memory} {a : Nat} {b : Byte} (h : Memory.read? m a = some b) : (a, b) ∈ m := by
  induction m with
  | nil => simp at h
  | cons y m ih =>
    obtain ⟨k, v⟩ := y
    simp only [Memory.read?] at h
    split_ifs at h with h1
    · simp_all
    · exact List.mem_cons_of_mem _ (ih h)

theorem read?_of_mem {m : Memory} (hw : Memory.wf m) {a : Nat} {b : Byte} (h : (a, b) ∈ m) : Memory.read? m a = some b := by
  induction m with
  | nil => simp at h
  | cons y m ih =>
    obtain ⟨k, v⟩ := y
    simp only [Memory.wf, List.pairwise_cons] at hw
    rcases List.mem_cons.1 h with h | h
    · simp [Memory.read?, Prod.ext_iff] at h ⊢; simp [h]
    · have := hw.1 _ h
      simp only [Memory.read?]
      rw [if_neg (by simp at this; omega)]
      exact ih hw.2 h

/-- Equal memories are equal data: two buffers in canonical form that read alike are one list. -/
theorem memory_ext {m n : Memory} (hm : Memory.wf m) (hn : Memory.wf n) (h : ∀ a, Memory.read? m a = Memory.read? n a) :
    m = n := by
  have hp : ∀ {l : Memory}, Memory.wf l → l.Pairwise fun x y => x.1 < y.1 := id
  have nd : ∀ {l : Memory}, Memory.wf l → l.Nodup := fun hl => List.Pairwise.imp (fun {x y} hxy e => by subst e; exact lt_irrefl _ hxy) hl
  have hperm : m.Perm n := (List.perm_ext_iff_of_nodup (nd hm) (nd hn)).2 fun x => by
    obtain ⟨a, b⟩ := x
    exact ⟨fun hx => mem_of_read? (h a ▸ read?_of_mem hm hx), fun hx => mem_of_read? ((h a).symm ▸ read?_of_mem hn hx)⟩
  exact hperm.eq_of_pairwise (fun a b _ _ h1 h2 => absurd (lt_trans h1 h2) (lt_irrefl _)) hm hn

end Sys2Proof.Machine
end

