-- ==== Sys2Proof/Laws/Run.lean ====
section
/-!
SUPPORT. Runs of pseudocode: sequencing, faults, the outcome of an instruction, and the engine's accesses.
-/
namespace Sys2Proof.Machine

@[simp] theorem run_bind_ok {α β : Type} (a : α) (f : α → Run β) : ((Except.ok a : Run α) >>= f) = f a := rfl
@[simp] theorem run_bind_error {α β : Type} (h : Halt) (f : α → Run β) :
    ((Except.error h : Run α) >>= f) = .error h := rfl
@[simp] theorem run_pure {α : Type} (a : α) : (pure a : Run α) = .ok a := rfl
@[simp] theorem raise_bind {α β : Type} (e : ErrCode) (info : Word) (s : State) (f : α → Run β) :
    ((raise e info s : Run α) >>= f) = raise e info s := rfl

/-- A run in two parts comes to its end when both parts do. -/
theorem run_bind_eq_ok {α β : Type} {x : Run α} {f : α → Run β} {b : β} :
    (x >>= f) = .ok b ↔ ∃ a, x = .ok a ∧ f a = .ok b := by
  cases x <;> simp

/-- A run in two parts halts when the first part does, or the first ends and the second halts. -/
theorem run_bind_eq_error {α β : Type} {x : Run α} {f : α → Run β} {h : Halt} :
    (x >>= f) = .error h ↔ x = .error h ∨ ∃ a, x = .ok a ∧ f a = .error h := by
  cases x <;> simp

@[simp] theorem outcome_ok (s : State) : Run.outcome (.ok s) = .next s := rfl
@[simp] theorem outcome_raise (e : ErrCode) (info : Word) (s : State) :
    Run.outcome (raise e info s) = .next (takeFault e info s) := rfl

/-- An instruction answers a next state exactly when its pseudocode ends, or a fault of the block ends it. -/
theorem outcome_eq_next {r : Run State} {t : State} :
    r.outcome = .next t ↔ r = .ok t ∨ r = .error (.ended t) := by
  rcases r with (_ | _ | _) | _ <;> simp [Run.outcome]

/-! ## The engine's accesses -/

theorem memRead_ok {s : State} {a : Nat} (h1 : a < s.inLen.toNat) (h2 : s.inLen.toNat ≤ s.params.inMax) :
    memRead s a = .ok (s.inByte a) := if_pos ⟨h1, by omega⟩

/-- MemRead answers INBUF[a] and only for an index below IN_LEN and IN_MAX (20_memory.md R76). -/
theorem memRead_eq_ok {s : State} {a : Nat} {b : Byte} :
    memRead s a = .ok b ↔ (a < s.inLen.toNat ∧ a < s.params.inMax) ∧ s.inByte a = b := by
  unfold memRead; split <;> simp_all

theorem memRead_eq_error {s : State} {a : Nat} {h : Halt} (e : memRead s a = .error h) : h = .fault (.readOutsideInput a) := by
  unfold memRead at e; split at e <;> simp_all

theorem memReadWord_ok {s : State} {a : Nat} (h1 : a + 4 ≤ s.inLen.toNat) (h2 : s.inLen.toNat ≤ s.params.inMax) :
    memReadWord s a = .ok (be32 (s.inByte a) (s.inByte (a + 1)) (s.inByte (a + 2)) (s.inByte (a + 3))) := by
  unfold memReadWord
  rw [memRead_ok (by omega) h2, memRead_ok (by omega) h2, memRead_ok (by omega) h2, memRead_ok (by omega) h2]
  rfl

theorem memReadWord_eq_error {s : State} {a : Nat} {h : Halt} (e : memReadWord s a = .error h) :
    ∃ k, h = .fault (.readOutsideInput k) := by
  simp only [memReadWord, run_bind_eq_error, run_pure] at e
  rcases e with e | ⟨_, _, e | ⟨_, _, e | ⟨_, _, e | ⟨_, _, e⟩⟩⟩⟩
  · exact ⟨_, memRead_eq_error e⟩
  · exact ⟨_, memRead_eq_error e⟩
  · exact ⟨_, memRead_eq_error e⟩
  · exact ⟨_, memRead_eq_error e⟩
  · exact absurd e (by simp)

theorem memWrite_ok {s : State} {a : Nat} {bs : List Byte} (h : a + bs.length ≤ s.params.outMax) :
    memWrite a bs s = .ok { s with outbuf := Memory.writeBytes s.outbuf a bs } := if_pos h

/-- MemWrite writes OUTBUF at `a` onward and nothing else, and only inside OUT_MAX (R76). -/
theorem memWrite_eq_ok {s t : State} {a : Nat} {bs : List Byte} :
    memWrite a bs s = .ok t ↔ a + bs.length ≤ s.params.outMax ∧ { s with outbuf := Memory.writeBytes s.outbuf a bs } = t := by
  unfold memWrite; split <;> simp_all

theorem memWrite_eq_error {s : State} {a : Nat} {bs : List Byte} {h : Halt} (e : memWrite a bs s = .error h) :
    s.params.outMax < a + bs.length ∧ h = .fault (.writeOutsideOutput a) := by
  unfold memWrite at e; split at e <;> simp_all

end Sys2Proof.Machine
end

