-- ==== Sys2Proof/Laws/Queue.lean ====
section
/-!
SUPPORT. The priority queue: its key orders all entries, pushing keeps the set and its order, popping takes the least.
-/
namespace Sys2Proof.Machine

/-! ## The key -/

theorem keyBefore_iff {a b : Entry} :
    keyBefore a b = true ↔
      a.weight.toNat < b.weight.toNat ∨ (a.weight = b.weight ∧ a.node.toNat < b.node.toNat) := by
  simp [keyBefore]

theorem keyBefore_trans {a b c : Entry} (h1 : keyBefore a b = true) (h2 : keyBefore b c = true) : keyBefore a c = true := by
  rw [keyBefore_iff] at *
  rcases h1 with h1 | ⟨e1, h1⟩ <;> rcases h2 with h2 | ⟨e2, h2⟩
  · exact .inl (by omega)
  · exact .inl (by rw [← e2]; exact h1)
  · exact .inl (by rw [e1]; exact h2)
  · exact .inr ⟨e1.trans e2, by omega⟩

theorem keyBefore_irrefl (a : Entry) : keyBefore a a = false := by
  simp [keyBefore]

theorem keyBefore_total {a b : Entry} (h : a ≠ b) : keyBefore a b = true ∨ keyBefore b a = true := by
  simp only [keyBefore_iff]
  rcases lt_trichotomy a.weight.toNat b.weight.toNat with hw | hw | hw
  · exact .inl (.inl hw)
  · have hw' : a.weight = b.weight := BitVec.eq_of_toNat_eq hw
    rcases lt_trichotomy a.node.toNat b.node.toNat with hn | hn | hn
    · exact .inl (.inr ⟨hw', hn⟩)
    · exact absurd (by cases a; cases b; simp_all [BitVec.toNat_inj]) h
    · exact .inr (.inr ⟨hw'.symm, hn⟩)
  · exact .inr (.inl hw)

theorem keyBefore_asymm {a b : Entry} (h : keyBefore a b = true) : keyBefore b a = false := by
  by_contra hc
  have := keyBefore_trans h (by simpa using hc)
  rw [keyBefore_irrefl] at this
  exact absurd this (by simp)

/-- A lesser key has no greater weight. -/
theorem weight_le_of_keyBefore {a b : Entry} (h : keyBefore a b = true) : a.weight.toNat ≤ b.weight.toNat := by
  rcases keyBefore_iff.1 h with h | ⟨e, _⟩
  · omega
  · rw [e]

/-! ## The least entry -/

theorem leastEntry_eq_none {q : List Entry} : leastEntry q = none ↔ q = [] := by
  cases q with
  | nil => simp [leastEntry]
  | cons e es => simp only [leastEntry]; split <;> (try split) <;> simp

/-- The entry PQ_POP_MIN takes is in the queue, and its key is below every other's. -/
theorem leastEntry_spec {q : List Entry} {e : Entry} (h : leastEntry q = some e) :
    e ∈ q ∧ ∀ x ∈ q, x ≠ e → keyBefore e x = true := by
  induction q generalizing e with
  | nil => simp [leastEntry] at h
  | cons y ys ih =>
    simp only [leastEntry] at h
    split at h
    · rename_i hn
      rw [leastEntry_eq_none] at hn
      subst hn; simp_all
    · rename_i m hm
      obtain ⟨hmem, hle⟩ := ih hm
      split at h
      · rename_i hb
        obtain rfl := Option.some.inj h
        refine ⟨List.mem_cons_self, fun x hx hne => ?_⟩
        rcases List.mem_cons.1 hx with rfl | hx
        · exact absurd rfl hne
        · by_cases hxm : x = m
          · subst hxm; exact hb
          · exact keyBefore_trans hb (hle x hx hxm)
      · rename_i hb
        obtain rfl := Option.some.inj h
        refine ⟨List.mem_cons_of_mem _ hmem, fun x hx hne => ?_⟩
        rcases List.mem_cons.1 hx with rfl | hx
        · rcases keyBefore_total hne with h' | h'
          · exact absurd h' (by simpa using hb)
          · exact h'
        · exact hle x hx hne

/-! ## Insertion -/

theorem insertEntry_perm (e : Entry) (q : List Entry) : (insertEntry e q).Perm (e :: q) := by
  induction q with
  | nil => exact .refl _
  | cons x xs ih =>
    simp only [insertEntry]
    split
    · exact .refl _
    · exact ((List.Perm.cons x ih).trans (List.Perm.swap e x xs))

@[simp] theorem insertEntry_length (e : Entry) (q : List Entry) : (insertEntry e q).length = q.length + 1 := by
  simpa using (insertEntry_perm e q).length_eq

@[simp] theorem mem_insertEntry {e x : Entry} {q : List Entry} : x ∈ insertEntry e q ↔ x = e ∨ x ∈ q := by
  simpa using (insertEntry_perm e q).mem_iff (a := x)

/-- A queue in rising order of the key stays so when an entry it does not hold is added. -/
theorem insertEntry_sorted {e : Entry} {q : List Entry} (hq : q.Pairwise fun a b => keyBefore a b = true) (he : e ∉ q) :
    (insertEntry e q).Pairwise fun a b => keyBefore a b = true := by
  induction q with
  | nil => simp [insertEntry]
  | cons x xs ih =>
    rw [List.pairwise_cons] at hq
    simp only [List.mem_cons, not_or] at he
    simp only [insertEntry]
    split
    · rename_i hb
      refine List.pairwise_cons.2 ⟨fun y hy => ?_, List.pairwise_cons.2 hq⟩
      rcases List.mem_cons.1 hy with rfl | hy
      · exact hb
      · exact keyBefore_trans hb (hq.1 y hy)
    · rename_i hb
      refine List.pairwise_cons.2 ⟨fun y hy => ?_, ih hq.2 he.2⟩
      rcases mem_insertEntry.1 hy with rfl | hy
      · exact (keyBefore_total he.1).resolve_left hb
      · exact hq.1 y hy

/-! ## PQ_PUSH and PQ_POP_MIN -/

/-- PQ_PUSH, all it can do: the two refusals of U19, or the entry added and the caller's number restored. -/
theorem pqPush_eq (s : State) :
    pqPush s =
      if s.pushNode ∈ s.pq.map Entry.node then .error (.refused (.pushQueuedNode s.pushNode))
      else if 256 ≤ s.pqCount then .error (.refused .pushFullQueue)
      else .ok { s with
        pq := insertEntry { weight := s.pushWeight, node := s.pushNode } s.pq
        phase := s.callerPhase } := by
  have h : (s.pq.any fun e => e.node == s.pushNode) = decide (s.pushNode ∈ s.pq.map Entry.node) := by
    rw [Bool.eq_iff_iff]; simp
  unfold pqPush
  simp only [setPhase_pq, setPhase_pushNode, h, decide_eq_true_eq, State.pqCount]
  rfl

theorem pqPush_ok {s : State} (h1 : s.pushNode ∉ s.pq.map Entry.node) (h2 : s.pqCount < 256) :
    pqPush s = .ok { s with
      pq := insertEntry { weight := s.pushWeight, node := s.pushNode } s.pq
      phase := s.callerPhase } := by
  rw [pqPush_eq, if_neg h1, if_neg (by omega)]

/-- PQ_POP_MIN, all it can do. -/
theorem pqPopMin_eq (s : State) :
    pqPopMin s =
      match leastEntry s.pq with
      | none => raise .emptyQueue 0#32 (setPhase 0x3#4 s)
      | some e => .ok { s with pq := s.pq.erase e, popWeight := e.weight, popNode := e.node, phase := s.callerPhase } := by
  unfold pqPopMin
  simp only [setPhase_pq]
  cases leastEntry s.pq <;> rfl

/-- `call PQ_PUSH(n, w)` in a caller: the caller's number is back at the end (30_encoding.md R105). -/
theorem callPush_ok {s : State} {n : NodeIx} {w : Weight} (h1 : n ∉ s.pq.map Entry.node) (h2 : s.pqCount < 256) :
    callPush n w s = .ok { s with
      pushNode := n
      pushWeight := w
      callerPhase := s.phase
      pq := insertEntry { weight := w, node := n } s.pq } := by
  unfold callPush
  rw [pqPush_ok (by simpa using h1) (by simpa [State.pqCount] using h2)]

/-- `call PQ_POP_MIN()` in a caller, the queue not empty. -/
theorem callPopMin_ok {s : State} {e : Entry} (h : leastEntry s.pq = some e) :
    callPopMin s = .ok { s with
      callerPhase := s.phase
      pq := s.pq.erase e
      popWeight := e.weight
      popNode := e.node } := by
  unfold callPopMin
  rw [pqPopMin_eq]
  simp only [h]

end Sys2Proof.Machine
end

