-- ==== Sys2Proof/Laws/Tree.lean ====
section
/-!
SUPPORT. BUILD_TREE: its loops as functions of the arena and the queue alone, the forest they keep, and what is left alone.
-/
namespace Sys2Proof.Machine

/-! ## What BUILD_TREE may change -/

/-- `t` is `s` but for the arena, the queue and the operands of the queue's operations. -/
def TreeFrame (s t : State) : Prop :=
  t = { s with
    node := t.node, pq := t.pq, pushNode := t.pushNode, pushWeight := t.pushWeight
    popNode := t.popNode, popWeight := t.popWeight, callerPhase := t.callerPhase }

theorem TreeFrame.rfl {s : State} : TreeFrame s s := by cases s; exact Eq.refl _

theorem TreeFrame.trans {s t u : State} (h1 : TreeFrame s t) (h2 : TreeFrame t u) : TreeFrame s u := by
  unfold TreeFrame at *; rw [h2, h1]

theorem TreeFrame.freq {s t : State} (h : TreeFrame s t) : t.freq = s.freq := by rw [h]
theorem TreeFrame.phase {s t : State} (h : TreeFrame s t) : t.phase = s.phase := by rw [h]
theorem TreeFrame.freqAt {s t : State} (h : TreeFrame s t) (sym : Byte) : t.freqAt sym = s.freqAt sym := by
  simp only [State.freqAt, h.freq]

/-! ## The leaf loop -/

theorem allEntries_append (nodes : List Node) (n : Node) :
    allEntries (nodes ++ [n]) = allEntries nodes ++ [{ weight := n.weight, node := BitVec.ofNat 9 nodes.length }] := by
  simp [allEntries, List.zipIdx_append]

theorem mem_allEntries {nodes : List Node} {e : Entry} :
    e ∈ allEntries nodes ↔ ∃ i, ∃ h : i < nodes.length, e = { weight := nodes[i].weight, node := BitVec.ofNat 9 i } := by
  simp only [allEntries, List.mem_map, Prod.exists, List.mem_zipIdx_iff_getElem?]
  constructor
  · rintro ⟨n, i, h, rfl⟩
    obtain ⟨hi, rfl⟩ := List.getElem?_eq_some_iff.1 h
    exact ⟨i, hi, Eq.refl _⟩
  · rintro ⟨i, hi, rfl⟩
    exact ⟨nodes[i], i, by simp [hi], Eq.refl _⟩

theorem allEntries_nodes (nodes : List Node) : (allEntries nodes).map Entry.node = (List.range nodes.length).map (BitVec.ofNat 9) := by
  apply List.ext_getElem <;> simp [allEntries]

theorem ofNat9_inj {i j : Nat} (hi : i < 512) (hj : j < 512) (h : BitVec.ofNat 9 i = BitVec.ofNat 9 j) : i = j := by
  have := congrArg BitVec.toNat h
  simp only [BitVec.toNat_ofNat] at this
  omega

theorem addLeaves_spec (syms : List Byte) (s : State) (hp : s.pq.Perm (allEntries s.node))
    (hn : s.nodeCount + (syms.filter s.present).length ≤ 256) :
    ∃ t, addLeaves syms s = .ok t ∧ TreeFrame s t ∧
      t.node = s.node ++ (syms.filter s.present).map (leafOf s.freq) ∧ t.pq.Perm (allEntries t.node) ∧
      (s.pq.Pairwise (fun a b => keyBefore a b = true) → t.pq.Pairwise (fun a b => keyBefore a b = true)) := by
  induction syms generalizing s with
  | nil => exact ⟨s, Eq.refl _, TreeFrame.rfl, by simp, hp, id⟩
  | cons sym syms ih =>
    by_cases hf : s.freqAt sym = 0#32
    · have hpr : s.present sym = false := by simp [State.present, hf]
      simp only [addLeaves, addLeaf, hf, if_true, run_bind_ok]
      rw [List.filter_cons_of_neg (by simp [hpr])] at hn ⊢
      exact ih s hp hn
    · have hpr : s.present sym = true := by simp [State.present, hf]
      rw [List.filter_cons_of_pos hpr] at hn ⊢
      simp only [List.length_cons] at hn
      have hlen : s.pq.length = s.nodeCount := by
        rw [hp.length_eq]; simp [allEntries, State.nodeCount]
      have hnot : s.nextNode ∉ s.pq.map Entry.node := by
        rw [(hp.map Entry.node).mem_iff, allEntries_nodes]
        simp only [State.nextNode, List.mem_map, List.mem_range, not_exists, not_and]
        intro i hi he
        have := ofNat9_inj (by simp only [State.nodeCount] at hn; omega) (by omega) he
        simp only [State.nodeCount] at this
        omega
      let s1 : State := { s with node := s.node ++ [.leaf sym ((s.freqAt sym).setWidth 40)] }
      have hcall := callPush_ok (s := s1) (n := s.nextNode) (w := (s.freqAt sym).setWidth 40) hnot
        (by show s.pq.length < 256; omega)
      simp only [addLeaves, addLeaf, hf, if_false]
      rw [show callPush s.nextNode ((s.freqAt sym).setWidth 40)
        { s with node := s.node ++ [.leaf sym ((s.freqAt sym).setWidth 40)] } = _ from hcall]
      rw [run_bind_ok]
      obtain ⟨t, h1, h2, h3, h4, h5⟩ := ih { s1 with
          pushNode := s.nextNode, pushWeight := (s.freqAt sym).setWidth 40, callerPhase := s.phase
          pq := insertEntry { weight := (s.freqAt sym).setWidth 40, node := s.nextNode } s.pq } (by
        show (insertEntry _ s.pq).Perm (allEntries (s.node ++ [_]))
        rw [allEntries_append]
        exact (insertEntry_perm _ _).trans ((List.Perm.cons _ hp).trans (List.perm_append_singleton _ _).symm)) (by
        show (s.node ++ [_]).length + (syms.filter s.present).length ≤ 256
        simp only [State.nodeCount] at hn
        simp; omega)
      refine ⟨t, h1, TreeFrame.trans ?_ h2, ?_, h4, fun hs => h5 ?_⟩
      · cases s; exact Eq.refl _
      · rw [h3]
        show (s.node ++ [_]) ++ (syms.filter s.present).map (leafOf s.freq) = _
        simp [leafOf, State.freqAt]
      · show (insertEntry _ s.pq).Pairwise _
        exact insertEntry_sorted hs (fun hm => hnot (List.mem_map.2 ⟨_, hm, Eq.refl _⟩))

/-! ## The combine loop -/

/-- One turn of the combine loop on the arena and the queue alone. -/
def combinePair (x : List Node × List Entry) : List Node × List Entry :=
  match leastEntry x.2 with
  | none => x
  | some e =>
    match leastEntry (x.2.erase e) with
    | none => x
    | some f =>
      (x.1 ++ [.internal (e.weight + f.weight) e.node f.node],
       insertEntry { weight := e.weight + f.weight, node := BitVec.ofNat 9 x.1.length } ((x.2.erase e).erase f))

/-- The combine loop on the arena and the queue alone. -/
def combinePairs : Nat → List Node × List Entry → List Node × List Entry
  | 0, x => x
  | k + 1, x => if 1 < x.2.length then combinePairs k (combinePair x) else x

/-- The queue and the arena while BUILD_TREE combines, with `L` leaves: every node that no node has as a child is queued, and
every other is the child of exactly one (10_state.md R42). -/
structure Forest (L : Nat) (nodes : List Node) (pq : List Entry) : Prop where
  few     : L ≤ 256
  count   : nodes.length + pq.length = 2 * L
  queued  : ∀ e ∈ pq, ∃ n, nodes[e.node.toNat]? = some n ∧ n.weight = e.weight
  nodup   : (pq.map Entry.node).Nodup
  edges   : ∀ i, i < nodes.length → parentEdges nodes i = if i ∈ pq.map (fun e => e.node.toNat) then 0 else 1
  below   : ∀ i n, nodes[i]? = some n → childrenBelow i n = true
  leaves  : ∀ i sym w, nodes[i]? = some (.leaf sym w) → i < L
  inners  : ∀ i w l r, nodes[i]? = some (.internal w l r) → L ≤ i
  last    : ∃ e ∈ pq, e.node.toNat + 1 = nodes.length
  enough  : L ≤ nodes.length

theorem Forest.node_lt {L : Nat} {nodes : List Node} {pq : List Entry} (h : Forest L nodes pq) {e : Entry} (he : e ∈ pq) :
    e.node.toNat < nodes.length := by
  obtain ⟨n, hn, _⟩ := h.queued e he
  exact (List.getElem?_eq_some_iff.1 hn).1

theorem parentEdges_append (nodes : List Node) (n : Node) (i : Nat) :
    parentEdges (nodes ++ [n]) i = parentEdges nodes i + parentEdges [n] i := by
  simp [parentEdges]

theorem parentEdges_internal (w : Weight) (l r : NodeIx) (i : Nat) :
    parentEdges [.internal w l r] i = (if l.toNat = i then 1 else 0) + (if r.toNat = i then 1 else 0) := by
  simp [parentEdges]

/-- With two entries or more the two pops succeed and take two different entries. -/
theorem two_least {pq : List Entry} (h : 1 < pq.length) :
    ∃ e f, leastEntry pq = some e ∧ leastEntry (pq.erase e) = some f ∧ e ∈ pq ∧ f ∈ pq.erase e ∧
      ((pq.erase e).erase f).length + 2 = pq.length := by
  cases he : leastEntry pq with
  | none => rw [leastEntry_eq_none.1 he] at h; simp at h
  | some e =>
    have hme := (leastEntry_spec he).1
    have hl : (pq.erase e).length + 1 = pq.length := by
      rw [List.length_erase_of_mem hme]; omega
    cases hf : leastEntry (pq.erase e) with
    | none => rw [leastEntry_eq_none.1 hf] at hl; simp at hl; omega
    | some f =>
      have hmf := (leastEntry_spec hf).1
      refine ⟨e, f, Eq.refl _, hf, hme, hmf, ?_⟩
      rw [List.length_erase_of_mem hmf]; omega

theorem Forest.perm {L : Nat} {nodes : List Node} {pq pq' : List Entry} (h : Forest L nodes pq) (hp : pq.Perm pq') :
    Forest L nodes pq' where
  few := h.few
  count := by rw [← hp.length_eq]; exact h.count
  queued := fun e he => h.queued e (hp.mem_iff.2 he)
  nodup := (hp.map _).nodup_iff.1 h.nodup
  edges := fun i hi => by rw [h.edges i hi]; simp only [(hp.map _).mem_iff]
  below := h.below
  leaves := h.leaves
  inners := h.inners
  last := by obtain ⟨e, he, hl⟩ := h.last; exact ⟨e, hp.mem_iff.1 he, hl⟩
  enough := h.enough

/-- A turn of the combine loop, when the queue is `e`, `f` and others. -/
theorem Forest.join {L : Nat} {nodes : List Node} {e f : Entry} {q : List Entry} (h : Forest L nodes (e :: f :: q)) :
    Forest L (nodes ++ [.internal (e.weight + f.weight) e.node f.node])
      ({ weight := e.weight + f.weight, node := BitVec.ofNat 9 nodes.length } :: q) := by
  have hcount : nodes.length + (q.length + 2) = 2 * L := by simpa using h.count
  have hlt : nodes.length < 511 := by have := h.few; omega
  have hnew : (BitVec.ofNat 9 nodes.length).toNat = nodes.length := by
    rw [BitVec.toNat_ofNat]; omega
  have he := h.node_lt (e := e) (by simp)
  have hf := h.node_lt (e := f) (by simp)
  have hq : ∀ x ∈ q, x.node.toNat < nodes.length := fun x hx => h.node_lt (by simp [hx])
  have hnd := h.nodup
  simp only [List.map_cons, List.nodup_cons, List.mem_cons, not_or] at hnd
  have hinj : ∀ a b : NodeIx, a.toNat = b.toNat ↔ a = b := fun a b => BitVec.toNat_inj
  refine ⟨h.few, by simp; omega, ?_, ?_, ?_, ?_, ?_, ?_, ?_, by simp; have := h.enough; omega⟩
  · intro x hx
    rcases List.mem_cons.1 hx with rfl | hx
    · exact ⟨.internal (e.weight + f.weight) e.node f.node, by simp [hnew], Eq.refl _⟩
    · obtain ⟨n, hn, hw⟩ := h.queued x (by simp [hx])
      exact ⟨n, by rw [List.getElem?_append_left (hq x hx)]; exact hn, hw⟩
  · simp only [List.map_cons, List.nodup_cons]
    refine ⟨fun hm => ?_, hnd.2.2⟩
    obtain ⟨x, hx, hxe⟩ := List.mem_map.1 hm
    have := hq x hx
    rw [hxe, hnew] at this
    omega
  · intro i hi
    rw [parentEdges_append, parentEdges_internal]
    simp only [List.length_append, List.length_singleton] at hi
    simp only [List.map_cons, List.mem_cons, hnew]
    rcases Nat.lt_or_ge i nodes.length with hil | hil
    · rw [h.edges i hil]
      simp only [List.map_cons, List.mem_cons]
      have hine : i ≠ nodes.length := by omega
      by_cases h1 : e.node.toNat = i
      · have h2 : f.node.toNat ≠ i := by
          rw [← h1, Ne, hinj]; exact fun hc => hnd.1.1 hc.symm
        have h3 : i ∉ q.map fun x => x.node.toNat := by
          rw [← h1]; intro hm
          obtain ⟨x, hx, hxe⟩ := List.mem_map.1 hm
          exact hnd.1.2 (List.mem_map.2 ⟨x, hx, (hinj _ _).1 hxe⟩)
        simp [h1, h2, h3, hine]
      · by_cases h2 : f.node.toNat = i
        · have h3 : i ∉ q.map fun x => x.node.toNat := by
            rw [← h2]; intro hm
            obtain ⟨x, hx, hxe⟩ := List.mem_map.1 hm
            exact hnd.2.1 (List.mem_map.2 ⟨x, hx, (hinj _ _).1 hxe⟩)
          simp [h1, h2, h3, hine]
        · have h1' : i ≠ e.node.toNat := fun hc => h1 hc.symm
          have h2' : i ≠ f.node.toNat := fun hc => h2 hc.symm
          simp [h1, h2, h1', h2', hine]
    · have hieq : i = nodes.length := by omega
      have hzero : parentEdges nodes i = 0 := by
        have : ∀ n ∈ nodes, (match n with
            | .leaf _ _ => 0
            | .internal _ l r => (if l.toNat = i then 1 else 0) + (if r.toNat = i then 1 else 0) : Nat) = 0 := by
          intro n hn
          obtain ⟨j, hj, rfl⟩ := List.mem_iff_getElem.1 hn
          have hb := h.below j nodes[j] (by simp [hj])
          revert hb
          cases nodes[j] with
          | leaf _ _ => simp
          | internal w l r =>
            simp only [childrenBelow, Bool.and_eq_true, decide_eq_true_eq]
            rintro ⟨hl, hr⟩
            rw [if_neg (by omega), if_neg (by omega)]
        unfold parentEdges
        rw [List.sum_eq_zero]
        intro x hx
        obtain ⟨n, hn, rfl⟩ := List.mem_map.1 hx
        exact this n hn
      rw [hzero, if_neg (by omega), if_neg (by omega), if_pos (Or.inl hieq)]
  · intro i n hn
    rcases Nat.lt_or_ge i nodes.length with hil | hil
    · rw [List.getElem?_append_left hil] at hn
      exact h.below i n hn
    · rw [List.getElem?_append_right hil] at hn
      have hi0 : i - nodes.length = 0 := by
        by_contra hc
        rw [List.getElem?_eq_none (by simp; omega)] at hn
        exact absurd hn (by simp)
      rw [hi0] at hn
      simp only [List.getElem?_cons_zero, Option.some.injEq] at hn
      subst hn
      simp only [childrenBelow, Bool.and_eq_true, decide_eq_true_eq]
      omega
  · intro i sym w hn
    rcases Nat.lt_or_ge i nodes.length with hil | hil
    · rw [List.getElem?_append_left hil] at hn
      exact h.leaves i sym w hn
    · rw [List.getElem?_append_right hil] at hn
      cases hd : i - nodes.length with
      | zero => rw [hd] at hn; simp at hn
      | succ k => rw [hd] at hn; simp at hn
  · intro i w l r hn
    rcases Nat.lt_or_ge i nodes.length with hil | hil
    · rw [List.getElem?_append_left hil] at hn
      exact h.inners i w l r hn
    · have := h.enough; omega
  · exact ⟨_, List.mem_cons_self, by simp [hnew]⟩

theorem Forest.combinePair {L : Nat} {nodes : List Node} {pq : List Entry} (h : Forest L nodes pq) (h2 : 1 < pq.length) :
    Forest L (combinePair (nodes, pq)).1 (combinePair (nodes, pq)).2 ∧ (Machine.combinePair (nodes, pq)).2.length + 1 = pq.length := by
  obtain ⟨e, f, he, hf, hme, hmf, hlen⟩ := two_least h2
  have hp : pq.Perm (e :: f :: (pq.erase e).erase f) :=
    (List.perm_cons_erase hme).trans (List.Perm.cons e (List.perm_cons_erase hmf))
  simp only [Machine.combinePair, he, hf]
  exact ⟨((h.perm hp).join).perm (insertEntry_perm _ _).symm, by simp; omega⟩

theorem Forest.combinePairs {L k : Nat} {nodes : List Node} {pq : List Entry} (h : Forest L nodes pq) (hk : pq.length ≤ k + 1) :
    Forest L (combinePairs k (nodes, pq)).1 (combinePairs k (nodes, pq)).2 ∧
      (Machine.combinePairs k (nodes, pq)).2.length = 1 := by
  induction k generalizing nodes pq with
  | zero =>
    obtain ⟨e, he, _⟩ := h.last
    have : 0 < pq.length := List.length_pos_of_mem he
    exact ⟨h, by show pq.length = 1; omega⟩
  | succ k ih =>
    simp only [Machine.combinePairs]
    split
    · rename_i h2
      obtain ⟨h3, h4⟩ := h.combinePair h2
      exact ih h3 (show (Machine.combinePair (nodes, pq)).2.length ≤ k + 1 by omega)
    · rename_i h2
      obtain ⟨e, he, _⟩ := h.last
      have : 0 < pq.length := List.length_pos_of_mem he
      have h2' : ¬ 1 < pq.length := h2
      exact ⟨h, by show pq.length = 1; omega⟩

/-- One turn of the combine loop, in a forest of two trees or more: it ends, it does what `combinePair` says, and it leaves all
else alone. -/
theorem combineTwo_spec {L : Nat} {s : State} (h : Forest L s.node s.pq) (h2 : 1 < s.pq.length) :
    ∃ t, combineTwo s = .ok t ∧ TreeFrame s t ∧ (t.node, t.pq) = combinePair (s.node, s.pq) := by
  obtain ⟨e, f, he, hf, hme, hmf, hlen⟩ := two_least h2
  have hcount := h.count
  have hfew := h.few
  have henough := h.enough
  unfold combineTwo
  rw [callPopMin_ok he, run_bind_ok]
  simp only
  rw [callPopMin_ok hf, run_bind_ok]
  simp only [State.nextNode, State.nodeCount]
  have hnot : BitVec.ofNat 9 s.node.length ∉ ((s.pq.erase e).erase f).map Entry.node := by
    intro hm
    obtain ⟨x, hx, hxe⟩ := List.mem_map.1 hm
    have := h.node_lt (List.mem_of_mem_erase (List.mem_of_mem_erase hx))
    rw [hxe, BitVec.toNat_ofNat] at this
    have hL : s.node.length < 512 := by omega
    omega
  rw [callPush_ok hnot (by simp only [State.pqCount]; omega)]
  refine ⟨_, Eq.refl _, ?_, ?_⟩
  · cases s; exact Eq.refl _
  · simp only [combinePair, he, hf]

theorem combine_spec {L k : Nat} {s : State} (h : Forest L s.node s.pq) :
    ∃ t, combine k s = .ok t ∧ TreeFrame s t ∧ (t.node, t.pq) = combinePairs k (s.node, s.pq) := by
  induction k generalizing s with
  | zero => exact ⟨s, Eq.refl _, TreeFrame.rfl, Eq.refl _⟩
  | succ k ih =>
    simp only [combine, combinePairs]
    by_cases h2 : 1 < s.pq.length
    · obtain ⟨t, h3, h4, h5⟩ := combineTwo_spec h h2
      have hF := (h.combinePair h2).1
      rw [← h5] at hF
      obtain ⟨u, h6, h7, h8⟩ := ih (s := t) hF
      rw [if_pos (show 1 < s.pqCount from h2), if_pos h2, h3, run_bind_ok]
      exact ⟨u, h6, h4.trans h7, by rw [h8, h5]⟩
    · rw [if_neg (show ¬ 1 < s.pqCount from h2), if_neg h2]
      exact ⟨s, Eq.refl _, TreeFrame.rfl, Eq.refl _⟩

/-! ## BUILD_TREE -/

theorem alphabet_length_le (s : State) : s.alphabet.length ≤ 256 := by
  refine (List.length_filter_le _ _).trans ?_
  simp [symbols]

/-- The leaves, all queued, are a forest. -/
theorem Forest.ofLeaves {syms : List Byte} {freq : Vector Word 256} {pq : List Entry} (h0 : syms ≠ [])
    (h1 : syms.length ≤ 256) (hp : pq.Perm (allEntries (syms.map (leafOf freq)))) :
    Forest syms.length (syms.map (leafOf freq)) pq := by
  refine Forest.perm ?_ hp.symm
  have hpos : 0 < syms.length := List.length_pos_iff.2 h0
  have hl : (allEntries (syms.map (leafOf freq))).length = syms.length := by simp [allEntries]
  have hto : ∀ i, i < syms.length → (BitVec.ofNat 9 i).toNat = i := fun i hi => by
    rw [BitVec.toNat_ofNat]; omega
  have hget : ∀ i n, (syms.map (leafOf freq))[i]? = some n → i < syms.length ∧ ∃ sym w, n = .leaf sym w := by
    intro i n hn
    obtain ⟨hi, rfl⟩ := List.getElem?_eq_some_iff.1 hn
    exact ⟨by simpa using hi, by simp [leafOf]⟩
  refine ⟨h1, by rw [hl]; simp; omega, ?_, ?_, ?_, ?_, ?_, ?_, ?_, by simp⟩
  · intro e he
    obtain ⟨i, hi, rfl⟩ := mem_allEntries.1 he
    exact ⟨(syms.map (leafOf freq))[i], by simp only [hto i (by simpa using hi)]; simp only [hi, List.getElem?_eq_getElem], Eq.refl _⟩
  · rw [allEntries_nodes]
    refine List.Nodup.map_on (fun i hi j hj h => ?_) List.nodup_range
    rw [List.mem_range] at hi hj
    simp only [List.length_map] at hi hj
    exact ofNat9_inj (by omega) (by omega) h
  · intro i hi
    have hz : parentEdges (syms.map (leafOf freq)) i = 0 := by
      unfold parentEdges
      rw [List.sum_eq_zero]
      intro x hx
      simp only [List.map_map, List.mem_map] at hx
      obtain ⟨sym, _, rfl⟩ := hx
      exact Eq.refl _
    rw [hz, if_pos]
    exact List.mem_map.2 ⟨_, mem_allEntries.2 ⟨i, hi, Eq.refl _⟩, hto i (by simpa using hi)⟩
  · intro i n hn
    obtain ⟨_, sym, w, rfl⟩ := hget i n hn
    exact Eq.refl _
  · intro i sym w hn; exact (hget i _ hn).1
  · intro i w l r hn
    obtain ⟨_, sym, w', h⟩ := hget i _ hn
    exact absurd h (by simp)
  · refine ⟨_, mem_allEntries.2 ⟨syms.length - 1, by simp; omega, Eq.refl _⟩, ?_⟩
    rw [hto _ (by omega)]; simp; omega

/-- BUILD_TREE of a table with a present symbol (R140, R141, R143): it ends; the arena and the queue are a forest of one tree,
whose first nodes are the leaves in ascending symbol value; ROOT is the last node; and nothing else is changed. -/
theorem buildTree_spec {s : State} (h : s.alphabet ≠ []) :
    ∃ t pq0, buildTree s = .ok t ∧
      TreeFrame { setPhase 0x4#4 s with root := t.root } t ∧
      pq0.Perm (allEntries (s.alphabet.map (leafOf s.freq))) ∧ pq0.Pairwise (fun a b => keyBefore a b = true) ∧
      (t.node, t.pq) = combinePairs s.alphabet.length (s.alphabet.map (leafOf s.freq), pq0) ∧
      Forest s.alphabet.length t.node t.pq ∧ t.pq.length = 1 ∧ t.root.toNat + 1 = t.node.length := by
  let s0 : State := { setPhase 0x4#4 s with node := [], pq := [] }
  have hpres : s0.present = s.present := Eq.refl _
  have hnode : s0.node = [] := Eq.refl _
  have hfreq : s0.freq = s.freq := Eq.refl _
  obtain ⟨t1, h1, h2, h3, h4, hs⟩ := addLeaves_spec symbols s0 (List.Perm.refl _) (by
    show 0 + s.alphabet.length ≤ 256
    have := alphabet_length_le s; omega)
  have h3' : t1.node = s.alphabet.map (leafOf s.freq) := by
    rw [h3, hnode, hfreq, hpres]; exact Eq.refl _
  rw [h3'] at h4
  have hF := Forest.ofLeaves h (alphabet_length_le s) h4
  have hlen : t1.pq.length = s.alphabet.length := by rw [h4.length_eq]; simp [allEntries]
  obtain ⟨t2, h5, h6, h7⟩ := combine_spec (L := s.alphabet.length) (k := s.alphabet.length) (s := t1) (by rw [h3']; exact hF)
  have hF2 := hF.combinePairs (k := s.alphabet.length) (by omega)
  rw [h3'] at h7
  rw [← h7] at hF2
  obtain ⟨hF3, hone⟩ := hF2
  simp only at hF3 hone
  obtain ⟨e, hpq⟩ : ∃ e, t2.pq = [e] := List.length_eq_one_iff.1 hone
  have hroot : e.node.toNat + 1 = t2.node.length := by
    obtain ⟨x, hx, hxl⟩ := hF3.last
    rw [hpq, List.mem_singleton] at hx
    rw [← hx]; exact hxl
  refine ⟨{ t2 with root := e.node }, t1.pq, ?_, ?_, h4, hs List.Pairwise.nil, h7, hF3, hone, hroot⟩
  · unfold buildTree
    rw [show addLeaves symbols { setPhase 0x4#4 s with node := [], pq := [] } = .ok t1 from h1, run_bind_ok]
    have hne : t1.nodeCount ≠ 0 := by
      rw [State.nodeCount, h3', List.length_map]
      exact fun hc => h (List.length_eq_zero_iff.1 hc)
    rw [if_neg hne, show t1.pqCount = s.alphabet.length from hlen, h5, run_bind_ok]
    simp only [setRoot, hpq, run_pure]
  · have hf := h2.trans h6
    unfold TreeFrame at hf ⊢
    conv_lhs => rw [hf]

/-- BUILD_TREE of an empty table (R142). -/
theorem buildTree_empty {s : State} (h : s.alphabet = []) :
    buildTree s = raise .emptyInput 0#32 { setPhase 0x4#4 s with node := [], pq := [] } := by
  have key : ∀ syms : List Byte, ∀ u : State, (∀ sym ∈ syms, u.freqAt sym = 0#32) → addLeaves syms u = .ok u := by
    intro syms
    induction syms with
    | nil => intro u _; exact Eq.refl _
    | cons sym syms ih =>
      intro u hu
      simp only [addLeaves, addLeaf, hu sym (by simp), if_true, run_bind_ok]
      exact ih u (fun x hx => hu x (by simp [hx]))
  unfold buildTree
  rw [key symbols]
  · exact Eq.refl _
  · intro sym hsym
    have := List.filter_eq_nil_iff.1 h sym hsym
    have h0 : s.freqAt sym = 0#32 := by simpa [State.present] using this
    exact h0

/-! ## The tree of a table -/

/-- Putting an entry into a queue that does not hold it, by the reference order and by the machine's. -/
theorem orderedInsert_eq {e : Entry} {q : List Entry} (h : e ∉ q) : q.orderedInsert keyLe e = insertEntry e q := by
  induction q with
  | nil => rfl
  | cons x xs ih =>
    simp only [List.mem_cons, not_or] at h
    have hk : keyLe e x ↔ keyBefore e x = true := by
      have hne : ¬ (e.weight = x.weight ∧ e.node.toNat = x.node.toNat) := fun ⟨hw, hn⟩ => h.1 (by
        cases e; cases x; simp_all [BitVec.toNat_inj])
      rw [keyBefore_iff]
      refine or_congr Iff.rfl (and_congr_right fun hw => ⟨fun hle => ?_, Nat.le_of_lt⟩)
      exact Nat.lt_of_le_of_ne hle fun hn => hne ⟨hw, hn⟩
    simp only [List.orderedInsert_cons, insertEntry, hk, ih h.2]

/-- The reference queue of entries without repeats is in rising order of the key. -/
theorem insertionSort_sorted {l : List Entry} (h : l.Nodup) :
    (l.insertionSort keyLe).Pairwise fun a b => keyBefore a b = true := by
  induction l with
  | nil => exact List.Pairwise.nil
  | cons e l ih =>
    rw [List.nodup_cons] at h
    have he : e ∉ l.insertionSort keyLe := by rw [List.mem_insertionSort]; exact h.1
    rw [List.insertionSort_cons, orderedInsert_eq he]
    exact insertEntry_sorted (ih h.2) he

/-- The least entry of a queue in rising order of the key is the first. -/
theorem leastEntry_sorted {e : Entry} {q : List Entry} (h : (e :: q).Pairwise fun a b => keyBefore a b = true) :
    leastEntry (e :: q) = some e := by
  cases hm : leastEntry (e :: q) with
  | none => exact absurd (leastEntry_eq_none.1 hm) (by simp)
  | some m =>
    obtain ⟨hmem, hle⟩ := leastEntry_spec hm
    rcases List.mem_cons.1 hmem with rfl | hq
    · rfl
    · by_contra hne
      have h1 := (List.pairwise_cons.1 h).1 m hq
      have h2 := hle e List.mem_cons_self fun he => hne (by rw [he])
      exact absurd (keyBefore_asymm h1) (by rw [h2]; simp)

/-- The combine loop of the machine is the reference's, on a queue in rising order of the key. -/
theorem combineSorted_eq {L k : Nat} {nodes : List Node} {pq : List Entry} (h : Forest L nodes pq)
    (hs : pq.Pairwise fun a b => keyBefore a b = true) (hk : pq.length ≤ k + 1) :
    ∃ e, (combinePairs k (nodes, pq)).2 = [e] ∧ combineSorted k nodes pq = ((combinePairs k (nodes, pq)).1, e.node) := by
  induction k generalizing nodes pq with
  | zero =>
    match pq, hk, h.last with
    | [e], _, _ => exact ⟨e, rfl, rfl⟩
  | succ k ih =>
    match pq, h, hs, h.last with
    | [e], _, _, _ => exact ⟨e, rfl, rfl⟩
    | e :: f :: q, h, hs, _ =>
      have hF := h.join
      have hq := (List.pairwise_cons.1 (List.pairwise_cons.1 hs).2).2
      have hpair : combinePair (nodes, e :: f :: q) = (nodes ++ [.internal (e.weight + f.weight) e.node f.node],
          insertEntry { weight := e.weight + f.weight, node := BitVec.ofNat 9 nodes.length } q) := by
        simp [combinePair, leastEntry_sorted hs, leastEntry_sorted (List.pairwise_cons.1 hs).2]
      have hnot : ({ weight := e.weight + f.weight, node := BitVec.ofNat 9 nodes.length } : Entry) ∉ q :=
        (List.nodup_cons.1 (List.Nodup.of_map _ hF.nodup)).1
      simp only [combinePairs, combineSorted, orderedInsert_eq hnot, hpair, List.length_cons]
      rw [if_pos (by omega)]
      exact ih (hF.perm (insertEntry_perm _ _).symm) (insertEntry_sorted hq hnot) (by
        simp only [insertEntry_length, List.length_cons] at hk ⊢; omega)

/-- BUILD_TREE makes the tree of its table: NODE and ROOT are a function of FREQ alone (R148). -/
theorem buildTree_treeOf {s t : State} (h : buildTree s = .ok t) : (t.node, t.root) = treeOf s.freq := by
  by_cases ha : s.alphabet = []
  · rw [buildTree_empty ha] at h; exact absurd h (by simp [raise])
  · obtain ⟨u, pq0, h1, _, hp, hs, hc, hT, _, hr⟩ := buildTree_spec ha
    obtain rfl : t = u := by rw [h] at h1; exact Except.ok.inj h1
    have hF := Forest.ofLeaves ha (alphabet_length_le s) hp
    have hnd : (allEntries (leavesOf s.freq)).Nodup := (hp.nodup_iff).1 (List.Nodup.of_map _ hF.nodup)
    have hq : pq0 = (allEntries (leavesOf s.freq)).insertionSort keyLe :=
      (hp.trans (List.perm_insertionSort _ _).symm).eq_of_pairwise
        (fun a b _ _ hab hba => absurd (keyBefore_asymm hab) (by rw [hba]; simp)) hs (insertionSort_sorted hnd)
    obtain ⟨e, he, hcs⟩ := combineSorted_eq (k := s.alphabet.length) hF hs (by rw [hp.length_eq]; simp [allEntries])
    have hpq : t.pq = [e] := (congrArg Prod.snd hc).trans he
    have hroot : t.root = e.node := by
      obtain ⟨x, hx, hxl⟩ := hT.last
      rw [hpq, List.mem_singleton] at hx
      exact BitVec.eq_of_toNat_eq (by rw [← hx]; omega)
    have hlen : (leavesOf s.freq).length = s.alphabet.length := List.length_map ..
    have hn : t.node = _ := congrArg Prod.fst hc
    unfold treeOf
    rw [hroot, hn, ← hq, hlen]
    exact hcs.symm

end Sys2Proof.Machine
end

