-- ==== Sys2Proof/Laws/Codes.lean ====
section
/-!
SUPPORT. Paths in the tree and the codes GEN_CODES records (42_code_table.md).
-/
namespace Sys2Proof.Machine

/-! ## The files indexed by symbol -/

theorem symbol_inj {a b : Byte} : a.toNat = b.toNat ↔ a = b := BitVec.toNat_inj

theorem getElem_setCode (code : Vector Bits 256) (x sym : Byte) (v : Bits) :
    (setCode code x v)[sym.toNat]'(symbol_lt sym) = if x = sym then v else code[sym.toNat]'(symbol_lt sym) := by
  unfold setCode
  rw [Vector.getElem_set]
  simp only [symbol_inj]

theorem getElem_setFreq (freq : Vector Word 256) (x sym : Byte) (v : Word) :
    (setFreq freq x v)[sym.toNat]'(symbol_lt sym) = if x = sym then v else freq[sym.toNat]'(symbol_lt sym) := by
  unfold setFreq
  rw [Vector.getElem_set]
  simp only [symbol_inj]

@[simp] theorem getElem_noCodes (sym : Byte) : noCodes[sym.toNat]'(symbol_lt sym) = [] := by
  simp [noCodes]

@[simp] theorem getElem_zeroFreq (sym : Byte) : zeroFreq[sym.toNat]'(symbol_lt sym) = 0#32 := by
  simp [zeroFreq]

theorem mem_symbols (sym : Byte) : sym ∈ symbols :=
  List.mem_map.2 ⟨sym.toNat, List.mem_range.2 (symbol_lt sym), by simp⟩

theorem symbols_nodup : symbols.Nodup := by
  refine List.Nodup.map_on (fun i hi j hj h => ?_) List.nodup_range
  have := congrArg BitVec.toNat h
  simp only [BitVec.toNat_ofNat, List.mem_range] at this hi hj
  omega

theorem alphabet_nodup (s : State) : s.alphabet.Nodup := symbols_nodup.filter _

theorem mem_alphabet {s : State} {sym : Byte} : sym ∈ s.alphabet ↔ s.freqAt sym ≠ 0#32 := by
  simp [State.alphabet, mem_symbols, State.present]

/-! ## Paths -/

theorem followPath_append (nodes : List Node) (n : NodeIx) (p q : Bits) :
    followPath nodes n (p ++ q) = (followPath nodes n p).bind fun m => followPath nodes m q := by
  induction p generalizing n with
  | nil => rfl
  | cons b p ih =>
    simp only [List.cons_append, followPath]
    split
    · exact ih _
    · rfl

/-- No path leaves a leaf. -/
theorem followPath_leaf {nodes : List Node} {n m : NodeIx} {sym : Byte} {w : Weight} {p : Bits}
    (hn : nodes[n.toNat]? = some (.leaf sym w)) (h : followPath nodes n p = some m) : p = [] ∧ m = n := by
  cases p with
  | nil => simp [followPath] at h; exact ⟨rfl, h.symm⟩
  | cons b p => simp [followPath, hn] at h

/-- `sym` has its leaf at the end of path `q` from node `n`. -/
def LeafAt (nodes : List Node) (n : NodeIx) (sym : Byte) (q : Bits) : Prop :=
  ∃ m w, followPath nodes n q = some m ∧ nodes[m.toNat]? = some (.leaf sym w)

theorem LeafAt.cons {nodes : List Node} {n l r : NodeIx} {w : Weight} {sym : Byte} {b : Bool} {q : Bits}
    (hn : nodes[n.toNat]? = some (.internal w l r)) :
    LeafAt nodes n sym (b :: q) ↔ LeafAt nodes (if b then r else l) sym q := by
  simp only [LeafAt, followPath, hn]

theorem LeafAt.nil {nodes : List Node} {n l r : NodeIx} {w : Weight} {sym : Byte}
    (hn : nodes[n.toNat]? = some (.internal w l r)) : ¬ LeafAt nodes n sym [] := by
  rintro ⟨m, w', h, h'⟩
  simp only [followPath, Option.some.injEq] at h
  subst h
  rw [hn] at h'
  simp at h'

/-- The walk of GEN_CODES from a node (R160): it records for each symbol the path so far and then the path to a leaf of it, and
leaves alone the symbols that have no leaf there. -/
theorem walk_spec {nodes : List Node} (hb : ∀ i n, nodes[i]? = some n → childrenBelow i n = true) (depth : Nat) (n : NodeIx)
    (p : Bits) (code : Vector Bits 256) (sym : Byte) (hd : n.toNat < depth) :
    ((walk nodes depth n p code)[sym.toNat]'(symbol_lt sym) = code[sym.toNat]'(symbol_lt sym) ∧ ∀ q, ¬ LeafAt nodes n sym q) ∨
      ∃ q, LeafAt nodes n sym q ∧ (walk nodes depth n p code)[sym.toNat]'(symbol_lt sym) = p ++ q := by
  induction depth generalizing n p code with
  | zero => omega
  | succ depth ih =>
    cases hn : nodes[n.toNat]? with
    | none =>
      simp only [walk, hn]
      refine .inl ⟨trivial, fun q hq => ?_⟩
      obtain ⟨m, w, h1, h2⟩ := hq
      cases q with
      | nil =>
        simp only [followPath, Option.some.injEq] at h1
        subst h1; rw [hn] at h2; simp at h2
      | cons b q => simp [followPath, hn] at h1
    | some node =>
      cases node with
      | leaf x w =>
        simp only [walk, hn, getElem_setCode]
        by_cases hx : x = sym
        · subst hx
          exact .inr ⟨[], ⟨n, w, rfl, hn⟩, by simp⟩
        · refine .inl ⟨by rw [if_neg hx], fun q hq => ?_⟩
          obtain ⟨m, w', h1, h2⟩ := hq
          obtain ⟨rfl, rfl⟩ := followPath_leaf hn h1
          rw [hn] at h2
          simp only [Option.some.injEq, Node.leaf.injEq] at h2
          exact hx h2.1
      | internal w l r =>
        have hc := hb _ _ hn
        simp only [childrenBelow, Bool.and_eq_true, decide_eq_true_eq] at hc
        simp only [walk, hn]
        rcases ih r (p ++ [true]) (walk nodes depth l (p ++ [false]) code) (by omega) with ⟨h1, h2⟩ | ⟨q, h1, h2⟩
        · rcases ih l (p ++ [false]) code (by omega) with ⟨h3, h4⟩ | ⟨q, h3, h4⟩
          · refine .inl ⟨by rw [h1, h3], fun q hq => ?_⟩
            cases q with
            | nil => exact LeafAt.nil hn hq
            | cons b q =>
              rw [LeafAt.cons hn] at hq
              cases b
              · exact h4 q hq
              · exact h2 q hq
          · exact .inr ⟨false :: q, (LeafAt.cons hn).2 h3, by rw [h1, h4]; simp⟩
        · exact .inr ⟨true :: q, (LeafAt.cons hn).2 h1, by rw [h2]; simp⟩

/-! ## The tree of BUILD_TREE -/

/-- What BUILD_TREE leaves (R42, R147): a forest of one tree whose root is the last node, its leaves being those of the table. -/
structure Grown (s t : State) : Prop where
  forest : Forest s.alphabet.length t.node t.pq
  single : t.pq.length = 1
  last   : t.root.toNat + 1 = t.node.length
  leaves : ∀ i, (h : i < s.alphabet.length) → t.node[i]? = some (leafOf s.freq s.alphabet[i])

theorem combinePair_prefix (x : List Node × List Entry) : x.1 <+: (combinePair x).1 := by
  unfold combinePair
  split
  · exact List.prefix_refl _
  · split
    · exact List.prefix_refl _
    · exact List.prefix_append _ _

theorem combinePairs_prefix (k : Nat) (x : List Node × List Entry) : x.1 <+: (combinePairs k x).1 := by
  induction k generalizing x with
  | zero => exact List.prefix_refl _
  | succ k ih =>
    simp only [combinePairs]
    split
    · exact (combinePair_prefix x).trans (ih _)
    · exact List.prefix_refl _

/-- BUILD_TREE of a table with a present symbol leaves its tree. -/
theorem buildTree_grown {s : State} (h : s.alphabet ≠ []) :
    ∃ t, buildTree s = .ok t ∧ TreeFrame { setPhase 0x4#4 s with root := t.root } t ∧ Grown s t := by
  obtain ⟨t, pq0, h1, h2, _, _, h4, h5, h6, h7⟩ := buildTree_spec h
  refine ⟨t, h1, h2, h5, h6, h7, fun i hi => ?_⟩
  have hp := combinePairs_prefix s.alphabet.length (s.alphabet.map (leafOf s.freq), pq0)
  rw [← h4] at hp
  obtain ⟨rest, hr⟩ := hp
  simp only at hr
  rw [← hr, List.getElem?_append_left (by simpa using hi)]
  simp [hi]

/-- BUILD_TREE is a function of FREQ (41_tree_builder.md R148). -/
theorem buildTree_unique {s s' t t' : State} (hf : s.freq = s'.freq) (h : buildTree s = .ok t) (h' : buildTree s' = .ok t') :
    t.node = t'.node ∧ t.root = t'.root := by
  have hp : (t.node, t.root) = (t'.node, t'.root) := by rw [buildTree_treeOf h, buildTree_treeOf h', hf]
  exact Prod.mk.inj hp

theorem Grown.length_lt {s t : State} (h : Grown s t) : t.node.length ≤ 511 := by
  have := h.forest.count; have := h.forest.few; have := h.single; omega

theorem Grown.root_toNat {s t : State} (h : Grown s t) : t.root.toNat = 2 * s.alphabet.length - 2 := by
  have := h.forest.count; have := h.single; have := h.last; omega

theorem arenaOk_iff {s : State} :
    s.arenaOk = true ↔ s.root.toNat < s.node.length ∧ ∀ i n, s.node[i]? = some n → childrenBelow i n = true := by
  unfold State.arenaOk
  rw [Bool.and_eq_true, decide_eq_true_eq, List.all_eq_true]
  refine and_congr Iff.rfl ⟨fun h i n hn => h (n, i) ?_, fun h ni hni => h _ _ ?_⟩
  · rw [List.mem_zipIdx_iff_getElem?]; exact hn
  · rw [← List.mem_zipIdx_iff_getElem?]; exact hni

theorem Grown.arenaOk {s t : State} (h : Grown s t) : t.arenaOk = true :=
  arenaOk_iff.2 ⟨by have := h.last; omega, h.forest.below⟩

/-- The one node that no node has as a child is the root (R42). -/
theorem Grown.edges {s t : State} (h : Grown s t) {i : Nat} (hi : i < t.node.length) :
    parentEdges t.node i = if i = t.root.toNat then 0 else 1 := by
  obtain ⟨e, he⟩ := List.length_eq_one_iff.1 h.single
  obtain ⟨x, hx, hxl⟩ := h.forest.last
  have hl := h.last
  rw [he, List.mem_singleton] at hx
  subst hx
  rw [h.forest.edges i hi, he]
  have : x.node.toNat = t.root.toNat := by omega
  simp [this]

theorem Grown.isTree {s t : State} (h : Grown s t) : t.isTree := by
  have hl := h.last
  exact ⟨hl, h.arenaOk, by rw [h.edges (by omega)]; simp, fun i hi => by rw [h.edges (by omega), if_neg (by omega)]⟩

theorem exists_parent {nodes : List Node} {i : Nat} (h : parentEdges nodes i ≠ 0) :
    ∃ (j : Nat) (w : Weight) (l r : NodeIx), nodes[j]? = some (Node.internal w l r) ∧ (l.toNat = i ∨ r.toNat = i) := by
  by_contra hc
  push Not at hc
  refine h ?_
  unfold parentEdges
  rw [List.sum_eq_zero]
  intro x hx
  obtain ⟨n, hn, rfl⟩ := List.mem_map.1 hx
  obtain ⟨j, hj, rfl⟩ := List.mem_iff_getElem.1 hn
  cases hnode : nodes[j] with
  | leaf _ _ => rfl
  | internal w l r =>
    have := hc j w l r (by simp [hj, hnode])
    simp [this.1, this.2]

theorem ofNat9_toNat {i : Nat} (h : i < 512) : (BitVec.ofNat 9 i).toNat = i := by
  rw [BitVec.toNat_ofNat]; omega

/-- "the nodes reachable from ROOT are all of NODE[0 .. NODE_COUNT - 1]" (R42). -/
theorem Grown.reach {s t : State} (h : Grown s t) (k : Nat) {i : Nat} (hi : i < t.node.length) (hk : t.node.length ≤ i + k) :
    ∃ q, followPath t.node t.root q = some (BitVec.ofNat 9 i) := by
  have hlen := h.length_lt
  have hlast := h.last
  induction k generalizing i with
  | zero => omega
  | succ k ih =>
    by_cases hr : i = t.root.toNat
    · exact ⟨[], by subst hr; simp [followPath]⟩
    · have he := h.edges hi
      rw [if_neg hr] at he
      obtain ⟨j, w, l, r, hj, hlr⟩ := exists_parent (nodes := t.node) (i := i) (by rw [he]; simp)
      have hb := h.forest.below j _ hj
      simp only [childrenBelow, Bool.and_eq_true, decide_eq_true_eq] at hb
      have hjl := (List.getElem?_eq_some_iff.1 hj).1
      obtain ⟨q, hq⟩ := ih (i := j) hjl (by omega)
      rcases hlr with hc | hc
      · refine ⟨q ++ [false], ?_⟩
        rw [followPath_append, hq]
        simp only [Option.bind_some, followPath, ofNat9_toNat (show j < 512 by omega), hj]
        simp [← hc]
      · refine ⟨q ++ [true], ?_⟩
        rw [followPath_append, hq]
        simp only [Option.bind_some, followPath, ofNat9_toNat (show j < 512 by omega), hj]
        simp [← hc]

theorem leafOf_eq (freq : Vector Word 256) (sym x : Byte) (w : Weight) (h : leafOf freq sym = .leaf x w) : sym = x := by
  simp [leafOf] at h; exact h.1

/-- The leaves of the tree are those of the present symbols (R141). -/
theorem Grown.leafAt_iff {s t : State} (h : Grown s t) {sym : Byte} :
    (∃ q, LeafAt t.node t.root sym q) ↔ sym ∈ s.alphabet := by
  have hlen := h.length_lt
  have hen := h.forest.enough
  constructor
  · rintro ⟨q, m, w, _, hm⟩
    have hlt := h.forest.leaves _ _ _ hm
    rw [h.leaves _ hlt] at hm
    rw [← leafOf_eq _ _ _ _ (Option.some.inj hm)]
    exact List.getElem_mem _
  · intro hs
    obtain ⟨i, hi, rfl⟩ := List.mem_iff_getElem.1 hs
    obtain ⟨q, hq⟩ := h.reach t.node.length (i := i) (by omega) (by omega)
    exact ⟨q, _, _, hq, by rw [ofNat9_toNat (by omega)]; exact h.leaves i hi⟩

/-- A path to a leaf passes one node at a time, each above the leaves (42_code_table.md R163). -/
theorem Grown.path_length {s t : State} (h : Grown s t) {n m : NodeIx} {q : Bits} (hq : followPath t.node n q = some m) :
    q = [] ∨ q.length + s.alphabet.length ≤ n.toNat + 1 := by
  induction q generalizing n with
  | nil => exact .inl rfl
  | cons b q ih =>
    right
    cases hn : t.node[n.toNat]? with
    | none => simp [followPath, hn] at hq
    | some node =>
      cases node with
      | leaf _ _ => simp [followPath, hn] at hq
      | internal w l r =>
        simp only [followPath, hn] at hq
        have hb := h.forest.below _ _ hn
        have hL := h.forest.inners _ _ _ _ hn
        simp only [childrenBelow, Bool.and_eq_true, decide_eq_true_eq] at hb
        rcases ih hq with rfl | hlen
        · simp; omega
        · cases b
          · simp at hlen ⊢; omega
          · simp at hlen ⊢; omega

/-! ## The code table of the tree -/

/-- The table GEN_CODES makes of BUILD_TREE's tree (R160, R161, R162): an absent symbol has no code; of one present symbol the
code is "0"; of two or more, the code of each is the path to its leaf. -/
theorem Grown.codes {s t : State} (h : Grown s t) (sym : Byte) :
    (sym ∉ s.alphabet → (treeCodes t.node t.root)[sym.toNat]'(symbol_lt sym) = []) ∧
    (sym ∈ s.alphabet → s.alphabet.length = 1 → (treeCodes t.node t.root)[sym.toNat]'(symbol_lt sym) = [false]) ∧
    (sym ∈ s.alphabet → 2 ≤ s.alphabet.length →
      LeafAt t.node t.root sym ((treeCodes t.node t.root)[sym.toNat]'(symbol_lt sym))) := by
  have hroot := h.root_toNat
  have hlast := h.last
  have hen := h.forest.enough
  by_cases h1 : s.alphabet.length = 1
  · have hn := h.leaves 0 (by omega)
    have hr : t.root.toNat = 0 := by omega
    obtain ⟨a, ha⟩ := List.length_eq_one_iff.1 h1
    have htc : treeCodes t.node t.root = setCode noCodes a [false] := by
      unfold treeCodes
      rw [hr, hn]
      simp [leafOf, ha]
    rw [htc, getElem_setCode, ha]
    simp only [List.mem_singleton, getElem_noCodes]
    refine ⟨fun hs => by rw [if_neg (fun hc => hs hc.symm)], fun hs _ => by rw [if_pos hs.symm], fun _ h2 => ?_⟩
    simp at h2
  · have hint : ∃ w l r, t.node[t.root.toNat]? = some (.internal w l r) := by
      have hlt : t.root.toNat < t.node.length := by omega
      cases hn : t.node[t.root.toNat] with
      | internal w l r => exact ⟨w, l, r, by simp [hlt, hn]⟩
      | leaf x w =>
        have := h.forest.leaves t.root.toNat x w (by simp [hlt, hn])
        omega
    obtain ⟨w, l, r, hn⟩ := hint
    have htc : treeCodes t.node t.root = walk t.node t.node.length t.root [] noCodes := by
      unfold treeCodes; rw [hn]
    rw [htc]
    rcases walk_spec h.forest.below t.node.length t.root [] noCodes sym (by omega) with ⟨h3, h4⟩ | ⟨q, h3, h4⟩
    · rw [h3, getElem_noCodes]
      refine ⟨fun _ => rfl, fun _ hc => absurd hc h1, fun hs _ => ?_⟩
      obtain ⟨q, hq⟩ := h.leafAt_iff.2 hs
      exact absurd hq (h4 q)
    · rw [h4, List.nil_append]
      refine ⟨fun hs => absurd (h.leafAt_iff.1 ⟨q, h3⟩) hs, fun _ hc => absurd hc h1, fun _ _ => h3⟩

/-- The path to a leaf is not empty when the root is not a leaf, and "1 <= |CODE[s]| <= 255" (R163). -/
theorem Grown.code_length {s t : State} (h : Grown s t) {sym : Byte} (hs : sym ∈ s.alphabet) :
    1 ≤ ((treeCodes t.node t.root)[sym.toNat]'(symbol_lt sym)).length ∧
      ((treeCodes t.node t.root)[sym.toNat]'(symbol_lt sym)).length ≤ 255 := by
  have hfew := h.forest.few
  have hroot := h.root_toNat
  have hlast := h.last
  have hpos : 0 < s.alphabet.length := List.length_pos_of_mem hs
  obtain ⟨_, h1, h2⟩ := h.codes sym
  by_cases hL : s.alphabet.length = 1
  · rw [h1 hs hL]; simp
  · have hL2 : 2 ≤ s.alphabet.length := by omega
    obtain ⟨m, w, hp, hm⟩ := h2 hs hL2
    rcases h.path_length hp with he | hlen
    · rw [he] at hp
      simp only [followPath, Option.some.injEq] at hp
      subst hp
      have := h.forest.leaves _ _ _ hm
      omega
    · refine ⟨?_, by omega⟩
      by_contra hc
      have he : (treeCodes t.node t.root)[sym.toNat]'(symbol_lt sym) = [] := List.length_eq_zero_iff.1 (by omega)
      rw [he] at hp
      simp only [followPath, Option.some.injEq] at hp
      subst hp
      have := h.forest.leaves _ _ _ hm
      omega

/-- "no code is a prefix of another" (R162). -/
theorem Grown.prefix_free {s t : State} (h : Grown s t) {a b : Byte} (ha : a ∈ s.alphabet) (hb : b ∈ s.alphabet)
    (hp : (treeCodes t.node t.root)[a.toNat]'(symbol_lt a) <+: (treeCodes t.node t.root)[b.toNat]'(symbol_lt b)) : a = b := by
  have hpos : 0 < s.alphabet.length := List.length_pos_of_mem ha
  by_cases hL : s.alphabet.length = 1
  · obtain ⟨x, hx⟩ := List.length_eq_one_iff.1 hL
    rw [hx, List.mem_singleton] at ha hb
    rw [ha, hb]
  · obtain ⟨m, w, hm, hml⟩ := (h.codes a).2.2 ha (by omega)
    obtain ⟨m', w', hm', hml'⟩ := (h.codes b).2.2 hb (by omega)
    obtain ⟨rest, hr⟩ := hp
    rw [← hr, followPath_append, hm, Option.bind_some] at hm'
    obtain ⟨_, rfl⟩ := followPath_leaf hml hm'
    rw [hml] at hml'
    simp only [Option.some.injEq, Node.leaf.injEq] at hml'
    exact hml'.1

end Sys2Proof.Machine
end

