-- ==== Sys2Proof/Laws/Input.lean ====
section
/-!
SUPPORT. The loops over the input, FREQ_SCAN (46_codec_engine.md R233) and ENCODE (43_encoder.md R170), and the packing of bits.
-/
namespace Sys2Proof.Machine

/-! ## Stretches of the input -/

/-- INBUF[a .. a + k - 1]. -/
def State.inSlice (s : State) (a : Nat) : Nat → List Byte
  | 0 => []
  | k + 1 => s.inByte a :: s.inSlice (a + 1) k

@[simp] theorem inSlice_length (s : State) (a k : Nat) : (s.inSlice a k).length = k := by
  induction k generalizing a with
  | zero => rfl
  | succ k ih => simp [State.inSlice, ih]

theorem inSlice_eq_map (s : State) (a k : Nat) : s.inSlice a k = (List.range k).map fun i => s.inByte (a + i) := by
  induction k generalizing a with
  | zero => rfl
  | succ k ih =>
    rw [State.inSlice, ih, List.range_succ_eq_map]
    simp only [List.map_cons, List.map_map, Nat.add_zero, List.cons.injEq, true_and]
    refine List.map_congr_left fun i _ => ?_
    simp only [Function.comp_apply]
    congr 1; omega

theorem inSlice_input (s : State) : s.inSlice 0 s.inLen.toNat = s.inputBytes := by
  rw [inSlice_eq_map]; simp [State.inputBytes]

theorem inSlice_congr {s s' : State} (h : ∀ a, s.inByte a = s'.inByte a) (a k : Nat) : s.inSlice a k = s'.inSlice a k := by
  simp only [inSlice_eq_map, h]

theorem inSlice_add (s : State) (a j k : Nat) : s.inSlice a (j + k) = s.inSlice a j ++ s.inSlice (a + j) k := by
  induction j generalizing a with
  | zero => simp [State.inSlice]
  | succ j ih =>
    rw [show j + 1 + k = (j + k) + 1 by omega, State.inSlice, ih, State.inSlice, show a + (j + 1) = a + 1 + j by omega]
    rfl

theorem word_succ {x : Word} {n : Nat} (h : x.toNat + 1 ≤ n) (hn : n < 2 ^ 32) : (x + 1#32).toNat = x.toNat + 1 := by
  rw [BitVec.toNat_add]; simp; omega

theorem word_add {x : Word} {k : Nat} (h : x.toNat + k < 2 ^ 32) : (x + BitVec.ofNat 32 k).toNat = x.toNat + k := by
  rw [BitVec.toNat_add, BitVec.toNat_ofNat]; omega

/-! ## FREQ_SCAN -/

/-- FREQ_SCAN's loop: it ends, each count is raised by how often its symbol stands in the bytes read, and IN_POS is past them. -/
theorem scanBytes_spec (k : Nat) (s : State) (h1 : s.inPos.toNat + k ≤ s.inLen.toNat) (h2 : s.inLen.toNat ≤ s.params.inMax) :
    ∃ f, scanBytes k s = .ok { s with freq := f, inPos := s.inPos + BitVec.ofNat 32 k } ∧
      ∀ sym : Byte, f[sym.toNat]'(symbol_lt sym) = s.freqAt sym + BitVec.ofNat 32 ((s.inSlice s.inPos.toNat k).count sym) := by
  induction k generalizing s with
  | zero => exact ⟨s.freq, by simp [scanBytes], fun sym => by simp [State.inSlice, State.freqAt]⟩
  | succ k ih =>
    have hw : (s.inPos + 1#32).toNat = s.inPos.toNat + 1 := word_succ (n := s.inLen.toNat) (by omega) s.inLen.isLt
    let b := s.inByte s.inPos.toNat
    let s1 : State := { s with freq := setFreq s.freq b (s.freqAt b + 1#32), inPos := s.inPos + 1#32 }
    obtain ⟨f, h3, h4⟩ := ih s1 (by show (s.inPos + 1#32).toNat + k ≤ s.inLen.toNat; omega) h2
    refine ⟨f, ?_, fun sym => ?_⟩
    · simp only [scanBytes, scanByte]
      rw [memRead_ok (by omega) h2, run_bind_ok, run_pure, run_bind_ok]
      refine h3.trans ?_
      simp only [s1]
      congr 2
      rw [BitVec.add_assoc]
      congr 1
      apply BitVec.eq_of_toNat_eq
      simp; omega
    · rw [h4]
      have hs : s1.inSlice s1.inPos.toNat k = s.inSlice (s.inPos.toNat + 1) k := by
        show s1.inSlice (s.inPos + 1#32).toNat k = _
        rw [hw]; exact inSlice_congr (by intro _; rfl) _ _
      rw [hs, State.inSlice, List.count_cons]
      have hf : s1.freqAt sym = if b = sym then s.freqAt b + 1#32 else s.freqAt sym := getElem_setFreq _ _ _ _
      rw [hf]
      by_cases hb : b = sym
      · have hb' : s.inByte s.inPos.toNat = sym := hb
        rw [if_pos hb, hb', hb]
        simp only [beq_self_eq_true, if_true]
        rw [BitVec.add_assoc]
        congr 1
        apply BitVec.eq_of_toNat_eq
        simp; omega
      · have hb' : ¬ s.inByte s.inPos.toNat = sym := hb
        rw [if_neg hb]
        simp [hb']

/-- FREQ_SCAN (R233): it ends, and changes only FREQ, IN_POS and PHASE. -/
theorem freqScan_spec {s : State} (h : s.inLen.toNat ≤ s.params.inMax) :
    ∃ f, freqScan s = .ok { s with phase := 0x1#4, freq := f, inPos := s.inLen } ∧
      ∀ sym : Byte, f[sym.toNat]'(symbol_lt sym) = BitVec.ofNat 32 (s.inputBytes.count sym) := by
  obtain ⟨f, h1, h2⟩ := scanBytes_spec s.inLen.toNat { setPhase 0x1#4 s with freq := zeroFreq, inPos := 0#32 }
    (by simp) h
  refine ⟨f, ?_, fun sym => ?_⟩
  · unfold freqScan
    rw [h1]
    simp [setPhase]
  · rw [h2]
    have hz : State.freqAt { setPhase 0x1#4 s with freq := zeroFreq, inPos := 0#32 } sym = 0#32 := getElem_zeroFreq sym
    rw [hz, ← inSlice_input, BitVec.zero_add]
    exact congrArg _ (congrArg _ (inSlice_congr (by intro _; rfl) _ _))

/-! ## ENCODE -/

/-- ENCODE's loop over bytes that all have a code. -/
theorem encodeBytes_spec (k : Nat) (s : State) (h1 : s.inPos.toNat + k ≤ s.inLen.toNat) (h2 : s.inLen.toNat ≤ s.params.inMax)
    (h3 : ∀ b ∈ s.inSlice s.inPos.toNat k, s.codeAt b ≠ []) :
    encodeBytes k s = .ok { s with
      bits := s.bits ++ (s.inSlice s.inPos.toNat k).flatMap s.codeAt
      inPos := s.inPos + BitVec.ofNat 32 k } := by
  induction k generalizing s with
  | zero => simp [encodeBytes, State.inSlice]
  | succ k ih =>
    have hw : (s.inPos + 1#32).toNat = s.inPos.toNat + 1 := word_succ (n := s.inLen.toNat) (by omega) s.inLen.isLt
    let b := s.inByte s.inPos.toNat
    have hb : s.codeAt b ≠ [] := h3 b (by simp [State.inSlice, b])
    let s1 : State := { s with bits := s.bits ++ s.codeAt b, inPos := s.inPos + 1#32 }
    have hs : s1.inSlice s1.inPos.toNat k = s.inSlice (s.inPos.toNat + 1) k := by
      show s1.inSlice (s.inPos + 1#32).toNat k = _
      rw [hw]; exact inSlice_congr (by intro _; rfl) _ _
    have hi := ih s1 (by show (s.inPos + 1#32).toNat + k ≤ s.inLen.toNat; omega) h2 (by
      rw [hs]; exact fun x hx => h3 x (by rw [State.inSlice]; exact List.mem_cons_of_mem _ hx))
    simp only [encodeBytes, encodeByte]
    rw [memRead_ok (by omega) h2, run_bind_ok, if_neg hb, run_pure, run_bind_ok]
    rw [show encodeBytes k { s with bits := s.bits ++ s.codeAt (s.inByte s.inPos.toNat), inPos := s.inPos + 1#32 } = _ from hi, hs]
    simp only [s1, State.inSlice, List.flatMap_cons, List.append_assoc]
    congr 2
    rw [BitVec.add_assoc]
    congr 1
    apply BitVec.eq_of_toNat_eq
    simp; omega

/-- ENCODE (R170) of an input all of whose bytes have a code: it ends, BITS is the codes one after another, NBITS their number,
and only PHASE and IN_POS change besides. -/
theorem encodeInput_spec {s : State} (h : s.inLen.toNat ≤ s.params.inMax) (hc : ∀ b ∈ s.inputBytes, s.codeAt b ≠ []) :
    encodeInput s = .ok { s with
      phase := 0x6#4
      bits := s.inputBytes.flatMap s.codeAt
      inPos := s.inLen
      nbits := BitVec.ofNat 32 (s.inputBytes.flatMap s.codeAt).length } := by
  have he := encodeBytes_spec s.inLen.toNat { setPhase 0x6#4 s with bits := [], inPos := 0#32 } (by simp) h (by
    intro b hb
    refine hc b ?_
    rw [← inSlice_input]
    have hs : State.inSlice { setPhase 0x6#4 s with bits := [], inPos := 0#32 } 0 s.inLen.toNat = s.inSlice 0 s.inLen.toNat :=
      inSlice_congr (by intro _; rfl) _ _
    rw [← hs]; exact hb)
  unfold encodeInput
  rw [he, run_bind_ok, run_pure]
  have hs : State.inSlice { setPhase 0x6#4 s with bits := [], inPos := 0#32 } 0 s.inLen.toNat = s.inputBytes := by
    rw [← inSlice_input]; exact inSlice_congr (by intro _; rfl) _ _
  have hz : (0#32 : Word).toNat = 0 := rfl
  have hp : (0#32 : Word) + BitVec.ofNat 32 s.inLen.toNat = s.inLen := by simp
  simp only [hz, hs, hp, List.nil_append]
  rfl

/-! ## Packing -/

/-- Bit `k` of eight, packed most significant first (R172). -/
theorem pack_eight (f : Nat → Bool) (k : Nat) (hk : k < 8) :
    (BitVec.ofNat 8 (((List.range 8).map fun k => (f k).toNat * 2 ^ (7 - k)).sum)).getLsbD (7 - k) = f k := by
  have h : ∀ b0 b1 b2 b3 b4 b5 b6 b7 : Bool, ∀ k : Fin 8,
      (BitVec.ofNat 8 (b0.toNat * 128 + (b1.toNat * 64 + (b2.toNat * 32 + (b3.toNat * 16 + (b4.toNat * 8 + (b5.toNat * 4 +
        (b6.toNat * 2 + b7.toNat)))))))).getLsbD (7 - k.val) = [b0, b1, b2, b3, b4, b5, b6, b7][k.val] := by decide +kernel
  have := h (f 0) (f 1) (f 2) (f 3) (f 4) (f 5) (f 6) (f 7) ⟨k, hk⟩
  simp only [List.range_succ, List.range_zero, List.nil_append, List.cons_append, List.map_cons, List.map_nil, List.sum_cons, List.sum_nil]
  simp only [Nat.reduceSub, Nat.reducePow, Nat.mul_one, Nat.add_zero]
  rw [this]
  interval_cases k <;> rfl

/-- Payload bit `i` is bit `7 - (i mod 8)` of payload byte `i div 8` (R172, 44_decoder.md R185). -/
theorem bitOf_packByte (bs : Bits) (i : Nat) : bitOf (packByte bs (byteOffset i)) i = bs.getD i false := by
  have := pack_eight (fun k => bs.getD (8 * (i / 8) + k) false) (i % 8) (Nat.mod_lt _ (by omega))
  unfold bitOf packByte byteOffset bitNumber
  rw [this]
  congr 1; omega

@[simp] theorem packBits_length (bs : Bits) : (packBits bs).length = ceil8 bs.length := by
  simp [packBits]

theorem packBits_getElem (bs : Bits) (j : Nat) (h : j < (packBits bs).length) : (packBits bs)[j] = packByte bs j := by
  simp [packBits]

theorem ceil8_lt {i n : Nat} (h : i < n) : byteOffset i < ceil8 n := by
  unfold byteOffset ceil8; omega

end Sys2Proof.Machine
end

