-- ==== Sys2Proof/Laws/Container.lean ====
section
/-!
SUPPORT. The container: SERIALIZE writes the layout of 30_encoding.md R95 (45_container.md R200), DESERIALIZE reads it back (R203).
-/
namespace Sys2Proof.Machine

/-! ## Writing -/

theorem writeBytes_append (bs cs : List Byte) (m : Memory) (a : Nat) :
    Memory.writeBytes m a (bs ++ cs) = Memory.writeBytes (Memory.writeBytes m a bs) (a + bs.length) cs := by
  induction bs generalizing m a with
  | nil => simp [Memory.writeBytes]
  | cons b bs ih =>
    simp only [List.cons_append, Memory.writeBytes, ih, List.length_cons]
    congr 1; omega

/-- `bs` written at OUT_POS, and OUT_POS past them. -/
def putAt (bs : List Byte) (s : State) : State :=
  { s with outbuf := Memory.writeBytes s.outbuf s.outPos.toNat bs, outPos := s.outPos + BitVec.ofNat 32 bs.length }

theorem putBytes_ok {s : State} {bs : List Byte} (h : s.outPos.toNat + bs.length ≤ s.params.outMax) :
    putBytes bs s = .ok (putAt bs s) := by
  unfold putBytes
  rw [memWrite_ok h, run_bind_ok, run_pure]
  rfl

theorem putAt_outPos {s : State} {bs : List Byte} (h : s.outPos.toNat + bs.length ≤ s.params.outMax) :
    (putAt bs s).outPos.toNat = s.outPos.toNat + bs.length :=
  word_add (by have := s.params.outTop; omega)

theorem putAt_append {s : State} {bs cs : List Byte} (h : s.outPos.toNat + bs.length ≤ s.params.outMax) :
    putAt cs (putAt bs s) = putAt (bs ++ cs) s := by
  have h1 := putAt_outPos h
  unfold putAt at *
  simp only at h1 ⊢
  rw [h1, writeBytes_append, BitVec.add_assoc]
  congr 2
  apply BitVec.eq_of_toNat_eq
  simp

/-- The bytes of the entries of the symbols given (30_encoding.md R97, 45_container.md R201). -/
def entryBytes (freq : Vector Word 256) (syms : List Byte) : List Byte :=
  (syms.filter fun sym => freq[sym.toNat]'(symbol_lt sym) != 0#32).flatMap fun sym =>
    sym :: be32Bytes (freq[sym.toNat]'(symbol_lt sym))

@[simp] theorem be32Bytes_length (v : Word) : (be32Bytes v).length = 4 := rfl

theorem putEntries_ok (syms : List Byte) (s : State)
    (h : s.outPos.toNat + (entryBytes s.freq syms).length ≤ s.params.outMax) :
    putEntries syms s = .ok (putAt (entryBytes s.freq syms) s) := by
  induction syms generalizing s with
  | nil => simp [putEntries, entryBytes, putAt, Memory.writeBytes]
  | cons sym syms ih =>
    by_cases hz : s.freqAt sym = 0#32
    · have hz' : s.freq[sym.toNat]'(symbol_lt sym) = 0#32 := hz
      have he : entryBytes s.freq (sym :: syms) = entryBytes s.freq syms := by simp [entryBytes, hz']
      rw [he] at h ⊢
      rw [putEntries, putEntry, if_pos hz, run_bind_ok, ih s h]
    · have hz' : s.freq[sym.toNat]'(symbol_lt sym) ≠ 0#32 := hz
      have he : entryBytes s.freq (sym :: syms) = ([sym] ++ be32Bytes (s.freqAt sym)) ++ entryBytes s.freq syms := by
        simp [entryBytes, hz', State.freqAt]
      rw [he] at h ⊢
      have hl : (entryBytes s.freq syms).length = (entryBytes s.freq syms).length := rfl
      simp only [List.length_append, be32Bytes_length, List.length_singleton] at h
      have h1 : s.outPos.toNat + [sym].length ≤ s.params.outMax := by simp; omega
      have h2 : (putAt [sym] s).outPos.toNat + (be32Bytes (s.freqAt sym)).length ≤ (putAt [sym] s).params.outMax := by
        rw [putAt_outPos h1]; simp [putAt]; omega
      have h3 : s.outPos.toNat + ([sym] ++ be32Bytes (s.freqAt sym)).length ≤ s.params.outMax := by simp; omega
      rw [putEntries, putEntry, if_neg hz, putBytes_ok h1, run_bind_ok,
        show (putAt [sym] s).freqAt sym = s.freqAt sym from rfl, putBytes_ok h2, run_bind_ok, putAt_append h1, ih, ← putAt_append h3]
      · rfl
      · show (putAt ([sym] ++ be32Bytes (s.freqAt sym)) s).outPos.toNat + (entryBytes s.freq syms).length ≤ s.params.outMax
        rw [putAt_outPos h3]; simp; omega

theorem entryBytes_symbols (s : State) : entryBytes s.freq symbols = s.entries.flatMap fun e => e.1 :: be32Bytes e.2 := by
  simp only [entryBytes, State.entries, State.alphabet, List.flatMap_map]
  rfl

@[simp] theorem flatMap_entry_length (es : List (Byte × Word)) :
    (es.flatMap fun e => e.1 :: be32Bytes e.2).length = 5 * es.length := by
  induction es with
  | nil => rfl
  | cons e es ih => simp only [List.flatMap_cons, List.length_append, List.length_cons, be32Bytes_length, ih]; omega

@[simp] theorem headerBytes_length (es : List (Byte × Word)) (n : Word) : (headerBytes es n).length = 8 + 5 * es.length := by
  simp only [headerBytes, List.length_append, be32Bytes_length, flatMap_entry_length]; omega

theorem containerBytes_length_le (s : State) : s.containerBytes.length ≤ s.containerSize := by
  simp [State.containerBytes, State.containerSize, State.entries]; omega

theorem containerBytes_length {s : State} (h : s.bits.length = s.nbits.toNat) : s.containerBytes.length = s.containerSize := by
  simp [State.containerBytes, State.containerSize, State.entries, State.payload, h]; omega

theorem containerBytes_eq {s : State} (h : s.bits.length = s.nbits.toNat) :
    s.containerBytes = headerBytes s.entries s.nbits ++ s.payload := by
  unfold State.containerBytes
  rw [List.take_of_length_le]
  simp [State.payload, h]

theorem entries_fst (s : State) : s.entries.map Prod.fst = s.alphabet := by
  simp [State.entries, Function.comp_def]

theorem serialize_eq (s : State) :
    serialize s =
      if s.params.outMax < s.containerSize then
        raise .capacity 2#32 { s with phase := 0x7#4, ecount := BitVec.ofNat 32 s.alphabet.length }
      else (do
        let s ← putBytes (be32Bytes (BitVec.ofNat 32 s.alphabet.length))
          { s with phase := 0x7#4, ecount := BitVec.ofNat 32 s.alphabet.length, outPos := 0#32 }
        let s ← putEntries symbols s
        let s ← putBytes (be32Bytes s.nbits) s
        putBytes (s.payload.take (ceil8 s.nbits.toNat)) s) := rfl

/-- SERIALIZE of a container that fits (R200). -/
theorem serialize_ok {s : State} (h : s.containerSize ≤ s.params.outMax) :
    serialize s = .ok { s with
      phase := 0x7#4
      ecount := BitVec.ofNat 32 s.alphabet.length
      outPos := BitVec.ofNat 32 s.containerBytes.length
      outbuf := Memory.writeBytes s.outbuf 0 s.containerBytes } := by
  have hl := containerBytes_length_le s
  have hb : s.containerBytes = be32Bytes (BitVec.ofNat 32 s.alphabet.length) ++ entryBytes s.freq symbols ++ be32Bytes s.nbits ++
      s.payload.take (ceil8 s.nbits.toNat) := by
    rw [State.containerBytes, headerBytes, entryBytes_symbols]; simp [State.entries]
  rw [hb] at hl ⊢
  simp only [List.length_append, be32Bytes_length] at hl
  let s0 : State := { setPhase 0x7#4 s with ecount := BitVec.ofNat 32 s.alphabet.length, outPos := 0#32 }
  have p0 : s0.outPos.toNat = 0 := rfl
  have hm : s0.params = s.params := rfl
  have hs : serialize s = (do
      let s ← putBytes (be32Bytes (BitVec.ofNat 32 s.alphabet.length)) s0
      let s ← putEntries symbols s
      let s ← putBytes (be32Bytes s.nbits) s
      putBytes (s.payload.take (ceil8 s.nbits.toNat)) s) := by
    rw [serialize_eq, if_neg (by omega)]
    rfl
  have h1 : s0.outPos.toNat + (be32Bytes (BitVec.ofNat 32 s.alphabet.length)).length ≤ s0.params.outMax := by
    rw [p0, hm, be32Bytes_length]; omega
  have h2 : s0.outPos.toNat + (be32Bytes (BitVec.ofNat 32 s.alphabet.length) ++ entryBytes s.freq symbols).length ≤ s0.params.outMax := by
    rw [p0, hm, List.length_append, be32Bytes_length]; omega
  have h3 : s0.outPos.toNat + (be32Bytes (BitVec.ofNat 32 s.alphabet.length) ++ entryBytes s.freq symbols ++ be32Bytes s.nbits).length ≤ s0.params.outMax := by
    rw [p0, hm, List.length_append, List.length_append, be32Bytes_length, be32Bytes_length]; omega
  rw [hs, putBytes_ok h1, run_bind_ok, putEntries_ok, run_bind_ok]
  · rw [show (putAt (be32Bytes (BitVec.ofNat 32 s.alphabet.length)) s0).freq = s.freq from rfl, putAt_append h1, putBytes_ok, run_bind_ok]
    · rw [show (putAt (be32Bytes (BitVec.ofNat 32 s.alphabet.length) ++ entryBytes s.freq symbols) s0).nbits = s.nbits from rfl,
        putAt_append h2, putBytes_ok]
      · rw [putAt_append h3]
        have hz : (0#32 : Word).toNat = 0 := rfl
        simp only [putAt, s0, hz, BitVec.zero_add]
        rfl
      · rw [putAt_outPos h3, p0, Nat.zero_add]
        show _ + (s.payload.take (ceil8 s.nbits.toNat)).length ≤ s.params.outMax
        simp only [List.length_append, be32Bytes_length]; omega
    · rw [putAt_outPos h2, p0, Nat.zero_add]
      show _ + (be32Bytes s.nbits).length ≤ s.params.outMax
      simp only [List.length_append, be32Bytes_length]; omega
  · rw [putAt_outPos h1, p0, Nat.zero_add]
    show _ + (entryBytes s.freq symbols).length ≤ s.params.outMax
    simp only [be32Bytes_length]; omega

/-- SERIALIZE of a container that does not fit (R202): nothing is written. -/
theorem serialize_full {s : State} (h : s.params.outMax < s.containerSize) :
    serialize s = raise .capacity 2#32 { s with phase := 0x7#4, ecount := BitVec.ofNat 32 s.alphabet.length } := by
  rw [serialize_eq, if_pos h]

/-! ## Reading -/

theorem be32_bytes (v : Word) :
    be32 (v.extractLsb' 24 8) (v.extractLsb' 16 8) (v.extractLsb' 8 8) (v.extractLsb' 0 8) = v := by
  unfold be32
  apply BitVec.eq_of_getLsbD_eq
  intro i hi
  simp only [BitVec.getLsbD_append, BitVec.getLsbD_extractLsb']
  interval_cases i <;> simp

/-- The four bytes of a field stand at `a` (20_memory.md R63). -/
theorem memReadWord_slice {s : State} {a : Nat} {v : Word} (h1 : a + 4 ≤ s.inLen.toNat) (h2 : s.inLen.toNat ≤ s.params.inMax)
    (h : s.inSlice a 4 = be32Bytes v) : memReadWord s a = .ok v := by
  rw [memReadWord_ok h1 h2]
  simp only [State.inSlice, be32Bytes, List.cons.injEq, and_true] at h
  obtain ⟨e0, e1, e2, e3⟩ := h
  rw [e0, e1, e2, e3, be32_bytes]

/-- A table with the entries given set in it. -/
def tableWith (freq : Vector Word 256) (es : List (Byte × Word)) : Vector Word 256 :=
  es.foldl (fun f e => setFreq f e.1 e.2) freq

theorem tableWith_append (freq : Vector Word 256) (es fs : List (Byte × Word)) :
    tableWith freq (es ++ fs) = tableWith (tableWith freq es) fs := by
  simp [tableWith]

theorem getElem_tableWith_other {es : List (Byte × Word)} {sym : Byte} (h : sym ∉ es.map Prod.fst) (freq : Vector Word 256) :
    (tableWith freq es)[sym.toNat]'(symbol_lt sym) = freq[sym.toNat]'(symbol_lt sym) := by
  induction es generalizing freq with
  | nil => rfl
  | cons e es ih =>
    simp only [List.map_cons, List.mem_cons, not_or] at h
    show (tableWith (setFreq freq e.1 e.2) es)[sym.toNat]'(symbol_lt sym) = _
    rw [ih h.2, getElem_setFreq, if_neg (Ne.symm h.1)]

theorem getElem_tableWith_mem {es : List (Byte × Word)} {sym : Byte} {f : Word} (hn : (es.map Prod.fst).Nodup)
    (h : (sym, f) ∈ es) (freq : Vector Word 256) : (tableWith freq es)[sym.toNat]'(symbol_lt sym) = f := by
  induction es generalizing freq with
  | nil => simp at h
  | cons e es ih =>
    simp only [List.map_cons, List.nodup_cons] at hn
    show (tableWith (setFreq freq e.1 e.2) es)[sym.toNat]'(symbol_lt sym) = _
    rcases List.mem_cons.1 h with rfl | h
    · rw [getElem_tableWith_other hn.1, getElem_setFreq, if_pos rfl]
    · exact ih hn.2 h _

/-- The table read from the entries that SERIALIZE writes is the table they were written from (45_container.md R211). -/
theorem tableWith_entries (s : State) : tableWith zeroFreq s.entries = s.freq := by
  apply Vector.ext
  intro i hi
  have hs : (BitVec.ofNat 8 i).toNat = i := by rw [BitVec.toNat_ofNat]; omega
  have key : ∀ sym : Byte, (tableWith zeroFreq s.entries)[sym.toNat]'(symbol_lt sym) = s.freqAt sym := by
    intro sym
    by_cases hm : sym ∈ s.alphabet
    · exact getElem_tableWith_mem (es := s.entries) (by rw [entries_fst]; exact alphabet_nodup _) (List.mem_map.2 ⟨sym, hm, rfl⟩) _
    · rw [getElem_tableWith_other (by rw [entries_fst]; exact hm), getElem_zeroFreq]
      by_contra hc
      exact hm (mem_alphabet.2 (Ne.symm hc))
  have := key (BitVec.ofNat 8 i)
  simp only [State.freqAt, hs] at this
  exact this

theorem readEntry_eq {s : State} {sym : Byte} {f : Word} (h1 : s.inPos.toNat + 5 ≤ s.inLen.toNat)
    (h2 : s.inLen.toNat ≤ s.params.inMax) (h : s.inSlice s.inPos.toNat 5 = sym :: be32Bytes f) :
    readEntry s =
      if s.freqAt sym ≠ 0#32 then raise .corruptStream 1#32 s
      else if f = 0#32 then raise .corruptStream 2#32 s
      else .ok { s with freq := setFreq s.freq sym f, inPos := s.inPos + 5#32 } := by
  rw [show (5 : Nat) = 4 + 1 from rfl, State.inSlice, List.cons.injEq] at h
  unfold readEntry need
  rw [if_neg (by omega), run_bind_ok, memRead_ok (by omega) h2, run_bind_ok, memReadWord_slice (by omega) h2 h.2, run_bind_ok, h.1]
  rfl

theorem readEntries_add (j k : Nat) (s : State) :
    readEntries (j + k) s = (readEntries j s >>= readEntries k) := by
  induction j generalizing s with
  | zero => simp [readEntries]
  | succ j ih =>
    rw [show j + 1 + k = (j + k) + 1 by omega, readEntries, readEntries]
    cases readEntry s with
    | error h => rfl
    | ok t => exact ih t

/-- DESERIALIZE's loop over entries that all pass the checks (R203, R206, R207). -/
theorem readEntries_ok (es : List (Byte × Word)) (s : State) (h1 : s.inPos.toNat + 5 * es.length ≤ s.inLen.toNat)
    (h2 : s.inLen.toNat ≤ s.params.inMax)
    (h : s.inSlice s.inPos.toNat (5 * es.length) = es.flatMap fun e => e.1 :: be32Bytes e.2)
    (hn : (es.map Prod.fst).Nodup) (hz : ∀ e ∈ es, e.2 ≠ 0#32) (hf : ∀ e ∈ es, s.freqAt e.1 = 0#32) :
    readEntries es.length s = .ok { s with freq := tableWith s.freq es, inPos := s.inPos + BitVec.ofNat 32 (5 * es.length) } := by
  induction es generalizing s with
  | nil => simp [readEntries, tableWith]
  | cons e es ih =>
    simp only [List.length_cons] at h1
    rw [List.length_cons, show 5 * (es.length + 1) = 5 + 5 * es.length by omega, inSlice_add, List.flatMap_cons] at h
    obtain ⟨ha, hb⟩ := List.append_inj h (by simp)
    have hw : (s.inPos + 5#32).toNat = s.inPos.toNat + 5 := word_add (k := 5) (by have := s.inLen.isLt; omega)
    simp only [List.map_cons, List.nodup_cons] at hn
    let s1 : State := { s with freq := setFreq s.freq e.1 e.2, inPos := s.inPos + 5#32 }
    have hr : readEntry s = .ok s1 := by
      rw [readEntry_eq (by omega) h2 ha, if_neg (by simp [hf e List.mem_cons_self]), if_neg (hz e List.mem_cons_self)]
    have hi := ih s1 (by show (s.inPos + 5#32).toNat + 5 * es.length ≤ s.inLen.toNat; omega) h2 (by
        show s1.inSlice (s.inPos + 5#32).toNat _ = _
        rw [hw, ← hb]; exact inSlice_congr (by intro _; rfl) _ _) hn.2 (fun x hx => hz x (List.mem_cons_of_mem _ hx)) (by
        intro x hx
        have hne : e.1 ≠ x.1 := fun he => hn.1 (he ▸ List.mem_map_of_mem hx)
        have : s1.freqAt x.1 = s.freqAt x.1 := by
          show (setFreq s.freq e.1 e.2)[x.1.toNat]'(symbol_lt x.1) = _
          rw [getElem_setFreq, if_neg hne]; rfl
        rw [this, hf x (List.mem_cons_of_mem _ hx)])
    rw [List.length_cons, readEntries, hr, run_bind_ok, hi]
    simp only [s1, tableWith, List.foldl_cons]
    congr 2
    rw [BitVec.add_assoc]
    congr 1
    apply BitVec.eq_of_toNat_eq
    simp; omega

/-- DESERIALIZE (R203) of a container whose table and payload length pass the checks. -/
theorem deserialize_ok {s : State} {es : List (Byte × Word)} {n : Word} {rest : List Byte} (h2 : s.inLen.toNat ≤ s.params.inMax)
    (h : s.inputBytes = headerBytes es n ++ rest) (he : entriesOk es) (hr : ceil8 n.toNat ≤ rest.length) :
    deserialize s = .ok { s with
      phase := 0x8#4
      freq := tableWith zeroFreq es
      ecount := BitVec.ofNat 32 es.length
      nbits := n
      inPos := BitVec.ofNat 32 (8 + 5 * es.length)
      payOff := BitVec.ofNat 32 (8 + 5 * es.length) } := by
  obtain ⟨hne, hn, hz⟩ := he
  have hlen : s.inLen.toNat = 8 + 5 * es.length + rest.length := by
    have := congrArg List.length h
    simpa [State.inputBytes] using this
  have hbig := s.inLen.isLt
  have hpos : 0 < es.length := List.length_pos_iff.2 hne
  rw [← inSlice_input, hlen, show 8 + 5 * es.length + rest.length = 4 + (5 * es.length + (4 + rest.length)) by omega,
    inSlice_add, inSlice_add, inSlice_add, headerBytes, List.append_assoc, List.append_assoc] at h
  obtain ⟨ha, h⟩ := List.append_inj h (by simp)
  obtain ⟨hb, h⟩ := List.append_inj h (by rw [inSlice_length, flatMap_entry_length])
  obtain ⟨hc, h⟩ := List.append_inj h (by simp)
  let s0 : State := { s with phase := 0x8#4, inPos := 0#32, freq := zeroFreq }
  have hs : ∀ a k, s0.inSlice a k = s.inSlice a k := inSlice_congr (by intro _; rfl)
  have h4 : need 4 s0 = .ok s0 := if_neg (by show ¬ s.inLen.toNat < 0 + 4; omega)
  have hcount : memReadWord s0 0 = .ok (BitVec.ofNat 32 es.length) :=
    memReadWord_slice (by show 0 + 4 ≤ s.inLen.toNat; omega) h2 ((hs 0 4).trans ha)
  let s1 : State := { s0 with ecount := BitVec.ofNat 32 es.length, inPos := 4#32 }
  have hec : (BitVec.ofNat 32 es.length).toNat = es.length := by rw [BitVec.toNat_ofNat]; omega
  have hread := readEntries_ok es s1 (by show 4 + 5 * es.length ≤ s.inLen.toNat; omega) h2
    ((inSlice_congr (s := s1) (s' := s) (by intro _; rfl) _ _).trans hb) hn hz (fun e _ => getElem_zeroFreq e.1)
  have hp : (4#32 : Word) + BitVec.ofNat 32 (5 * es.length) = BitVec.ofNat 32 (4 + 5 * es.length) := by
    rw [← BitVec.ofNat_add]
  let s2 : State := { s1 with freq := tableWith zeroFreq es, inPos := BitVec.ofNat 32 (4 + 5 * es.length) }
  have hpn : (BitVec.ofNat 32 (4 + 5 * es.length)).toNat = 4 + 5 * es.length := by rw [BitVec.toNat_ofNat]; omega
  have hread' : readEntries (BitVec.ofNat 32 es.length).toNat s1 = .ok s2 := by
    rw [hec, hread, show s1.inPos = 4#32 from rfl, hp]
  have h5 : need 4 s2 = .ok s2 := if_neg (by
    show ¬ s.inLen.toNat < (BitVec.ofNat 32 (4 + 5 * es.length)).toNat + 4; omega)
  have hnb : memReadWord s2 (BitVec.ofNat 32 (4 + 5 * es.length)).toNat = .ok n := by
    rw [hpn]
    refine memReadWord_slice (by show 4 + 5 * es.length + 4 ≤ s.inLen.toNat; omega) h2 ?_
    rw [← hc, show 0 + 4 + 5 * es.length = 4 + 5 * es.length by omega]
    exact inSlice_congr (by intro _; rfl) _ _
  have hq : BitVec.ofNat 32 (4 + 5 * es.length) + 4#32 = BitVec.ofNat 32 (8 + 5 * es.length) := by
    rw [← BitVec.ofNat_add]; congr 1; omega
  have hqn : (BitVec.ofNat 32 (8 + 5 * es.length)).toNat = 8 + 5 * es.length := by rw [BitVec.toNat_ofNat]; omega
  let s3 : State := { s2 with nbits := n, inPos := BitVec.ofNat 32 (8 + 5 * es.length) }
  have h6 : need (ceil8 n.toNat) s3 = .ok s3 := if_neg (by
    show ¬ s.inLen.toNat < (BitVec.ofNat 32 (8 + 5 * es.length)).toNat + ceil8 n.toNat; omega)
  have hd : deserialize s = (do
      let s ← need 4 s0
      let count ← memReadWord s s.inPos.toNat
      let s := { s with ecount := count, inPos := s.inPos + 4#32 }
      if s.ecount = 0#32 then raise .emptyTable 0#32 s
      else
        let s ← readEntries s.ecount.toNat s
        let s ← need 4 s
        let n ← memReadWord s s.inPos.toNat
        let s ← need (ceil8 n.toNat) { s with nbits := n, inPos := s.inPos + 4#32 }
        return { s with payOff := s.inPos }) := rfl
  have hnz : ¬ BitVec.ofNat 32 es.length = 0#32 := fun h0 => by
    have := congrArg BitVec.toNat h0
    rw [hec] at this
    exact absurd this (by show es.length ≠ 0; omega)
  rw [hd, h4, run_bind_ok, show s0.inPos.toNat = 0 from rfl, hcount, run_bind_ok]
  simp only []
  rw [if_neg hnz]
  show (do
    let s ← readEntries (BitVec.ofNat 32 es.length).toNat s1
    let s ← need 4 s
    let n ← memReadWord s s.inPos.toNat
    let s ← need (ceil8 n.toNat) { s with nbits := n, inPos := s.inPos + 4#32 }
    return { s with payOff := s.inPos } : Run State) = _
  rw [hread', run_bind_ok, h5, run_bind_ok, show s2.inPos.toNat = (BitVec.ofNat 32 (4 + 5 * es.length)).toNat from rfl, hnb,
    run_bind_ok, show ({ s2 with nbits := n, inPos := s2.inPos + 4#32 } : State) = s3 by
      simp only [s3, s2, hq], h6, run_bind_ok, run_pure]

/-- DESERIALIZE after the entries (R203): numberOfBits and the place of the payload. -/
def readTail (s : State) : Run State := do
  let s ← need 4 s
  let n ← memReadWord s s.inPos.toNat
  let s ← need (ceil8 n.toNat) { s with nbits := n, inPos := s.inPos + 4#32 }
  return { s with payOff := s.inPos }

/-- DESERIALIZE, the first entries read and passed (R203): the state with their table, at the offset after them. -/
def afterEntries (s : State) (count : Word) (es : List (Byte × Word)) : State :=
  { s with
    phase := 0x8#4
    freq := tableWith zeroFreq es
    ecount := count
    inPos := BitVec.ofNat 32 (4 + 5 * es.length) }

/-- DESERIALIZE of an input that begins with a count and with entries that pass the checks goes on after them. -/
theorem deserialize_after {s : State} {count : Word} {es : List (Byte × Word)} {rest : List Byte} (h2 : s.inLen.toNat ≤ s.params.inMax)
    (h : s.inputBytes = be32Bytes count ++ (es.flatMap fun e => e.1 :: be32Bytes e.2) ++ rest) (hc : es.length ≤ count.toNat)
    (h0 : count ≠ 0#32) (hn : (es.map Prod.fst).Nodup) (hz : ∀ e ∈ es, e.2 ≠ 0#32) :
    deserialize s = (readEntries (count.toNat - es.length) (afterEntries s count es) >>= readTail) ∧
    s.inLen.toNat = 4 + 5 * es.length + rest.length ∧ (afterEntries s count es).inPos.toNat = 4 + 5 * es.length ∧
    (afterEntries s count es).inSlice (4 + 5 * es.length) rest.length = rest := by
  have hlen : s.inLen.toNat = 4 + 5 * es.length + rest.length := by
    have := congrArg List.length h
    simp [State.inputBytes] at this
    omega
  have hbig := s.inLen.isLt
  rw [← inSlice_input, hlen, show 4 + 5 * es.length + rest.length = 4 + (5 * es.length + rest.length) by omega,
    inSlice_add, inSlice_add, List.append_assoc] at h
  obtain ⟨ha, h⟩ := List.append_inj h (by simp)
  obtain ⟨hb, hr⟩ := List.append_inj h (by rw [inSlice_length, flatMap_entry_length])
  let s0 : State := { s with phase := 0x8#4, inPos := 0#32, freq := zeroFreq }
  have h4 : need 4 s0 = .ok s0 := if_neg (by show ¬ s.inLen.toNat < 0 + 4; omega)
  have hcount : memReadWord s0 0 = .ok count :=
    memReadWord_slice (by show 0 + 4 ≤ s.inLen.toNat; omega) h2 ((inSlice_congr (s := s0) (s' := s) (fun _ => rfl) 0 4).trans ha)
  let s1 : State := { s0 with ecount := count, inPos := 4#32 }
  have hread := readEntries_ok es s1 (by show 4 + 5 * es.length ≤ s.inLen.toNat; omega) h2
    ((inSlice_congr (s := s1) (s' := s) (fun _ => rfl) _ _).trans hb) hn hz (fun e _ => getElem_zeroFreq e.1)
  have hp : (4#32 : Word) + BitVec.ofNat 32 (5 * es.length) = BitVec.ofNat 32 (4 + 5 * es.length) := by
    rw [← BitVec.ofNat_add]
  have hread' : readEntries es.length s1 = .ok (afterEntries s count es) := by
    rw [hread, show s1.inPos = 4#32 from rfl, hp]; rfl
  refine ⟨?_, hlen, by show (BitVec.ofNat 32 _).toNat = _; rw [BitVec.toNat_ofNat]; omega, ?_⟩
  · have hd : deserialize s = (do
        let s ← need 4 s0
        let count ← memReadWord s s.inPos.toNat
        let s := { s with ecount := count, inPos := s.inPos + 4#32 }
        if s.ecount = 0#32 then raise .emptyTable 0#32 s
        else readEntries s.ecount.toNat s >>= readTail) := rfl
    rw [hd, h4, run_bind_ok, show s0.inPos.toNat = 0 from rfl, hcount, run_bind_ok]
    dsimp only
    rw [if_neg h0]
    show (readEntries count.toNat s1 >>= readTail) = _
    conv_lhs => rw [show count.toNat = es.length + (count.toNat - es.length) by omega, readEntries_add, hread']
    rfl
  · rw [show 4 + 5 * es.length = 0 + 4 + 5 * es.length by omega]
    exact (inSlice_congr (s := afterEntries s count es) (s' := s) (fun _ => rfl) _ _).trans hr
/-- A symbol has been read exactly when it is one of the entries' (R206). -/
theorem freqAt_afterEntries {s : State} {count : Word} {es : List (Byte × Word)} (hz : ∀ e ∈ es, e.2 ≠ 0#32)
    (hn : (es.map Prod.fst).Nodup) (sym : Byte) : (afterEntries s count es).freqAt sym ≠ 0#32 ↔ sym ∈ es.map Prod.fst := by
  show (tableWith zeroFreq es)[sym.toNat]'(symbol_lt sym) ≠ 0#32 ↔ _
  constructor
  · intro h; by_contra hc; exact h ((getElem_tableWith_other hc _).trans (getElem_zeroFreq _))
  · intro h
    obtain ⟨e, he, rfl⟩ := List.mem_map.1 h
    rw [getElem_tableWith_mem hn (show (e.1, e.2) ∈ es from he)]; exact hz e he

end Sys2Proof.Machine
end

