-- ==== Sys2Proof/Laws/Decoder.lean ====
section
/-!
SUPPORT. DECODE (44_decoder.md R186): its loop is the walk of R187 and R190 over the payload bits, with the two tests of R188, R189
and R192.
-/
namespace Sys2Proof.Machine

theorem getBit_ok {s : State} {i : Nat} (h1 : s.payOff.toNat + byteOffset i < s.inLen.toNat) (h2 : s.inLen.toNat ≤ s.params.inMax) :
    getBit s i = .ok (bitOf (s.inByte (s.payOff.toNat + byteOffset i)) i) := by
  unfold getBit
  rw [memRead_ok h1 h2]; rfl

/-- emit, all it can do (R189, R192, R193). -/
theorem emit_eq {s : State} (sym : Byte) (h : s.emitted.toNat ≤ s.params.outMax) :
    emit sym s =
      if s.emitted.setWidth 40 = s.expected then raise .corruptStream 4#32 s
      else if s.emitted.toNat = s.params.outMax then raise .capacity 2#32 s
      else .ok { s with
        outbuf := Memory.write s.outbuf s.emitted.toNat sym
        emitted := s.emitted + 1#32 } := by
  unfold emit
  split
  · rfl
  · split
    · rfl
    · rw [memWrite_ok (by simp; omega), run_bind_ok, run_pure]
      rfl

theorem emitted_wide {e : Word} {x : Weight} : e.setWidth 40 = x ↔ e.toNat = x.toNat := by
  rw [← BitVec.toNat_inj, BitVec.toNat_setWidth]
  have := e.isLt
  rw [Nat.mod_eq_of_lt (by omega)]

/-- What one turn of the walk does to CUR, and the symbol it emits, if any. -/
def walkOne (nodes : List Node) (root cur : NodeIx) (b : Bool) : Option (Option Byte × NodeIx) :=
  match nodes[root.toNat]? with
  | some (.leaf sym _) => some (some sym, cur)
  | some (.internal _ _ _) =>
    match nodes[cur.toNat]? with
    | some (.internal _ l r) =>
      match nodes[(if b then r else l).toNat]? with
      | some (.leaf sym _) => some (some sym, root)
      | some (.internal _ _ _) => some (none, if b then r else l)
      | none => none
    | _ => none
  | none => none

theorem walkBits_cons (nodes : List Node) (root cur : NodeIx) (b : Bool) (bs : Bits) :
    walkBits nodes root cur (b :: bs) =
      (walkOne nodes root cur b).bind fun x =>
        (walkBits nodes root x.2 bs).map fun r => (x.1.toList ++ r.1, r.2) := by
  rw [walkBits, walkOne]
  cases nodes[root.toNat]? with
  | none => rfl
  | some n =>
    cases n with
    | leaf sym w => simp
    | internal w l r =>
      cases nodes[cur.toNat]? with
      | none => rfl
      | some m =>
        cases m with
        | leaf sym w => rfl
        | internal w' l' r' =>
          dsimp only
          cases nodes[(if b then r' else l').toNat]? with
          | none => rfl
          | some q => cases q <;> simp

theorem emit_root {s t : State} {sym : Byte} (h : emit sym s = .ok t) : t.root = s.root := by
  unfold emit at h
  split at h
  · exact absurd h (by simp [raise])
  · split at h
    · exact absurd h (by simp [raise])
    · obtain ⟨u, hu, hu'⟩ := run_bind_eq_ok.1 h
      rw [memWrite_eq_ok] at hu
      rw [run_pure, Except.ok.injEq] at hu'
      rw [← hu', ← hu.2]

/-- What one payload bit does, where the walk of R187 and R190 is defined and emits nothing. -/
theorem useBit_silent {s : State} {b : Bool} {c : NodeIx} (h : walkOne s.node s.root s.cur b = some (none, c)) :
    useBit b s = .ok { s with cur := c } := by
  unfold walkOne at h
  cases hr : s.node[s.root.toNat]? with
  | none => simp [hr] at h
  | some n =>
    cases n with
    | leaf sym w => simp [hr] at h
    | internal w l r =>
      have hn : s.nodeAt s.root = .internal w l r := by simp [State.nodeAt, hr]
      cases hc : s.node[s.cur.toNat]? with
      | none => simp [hr, hc] at h
      | some m =>
        cases m with
        | leaf sym w => simp [hr, hc] at h
        | internal w' l' r' =>
          have hcn : s.nodeAt s.cur = .internal w' l' r' := by simp [State.nodeAt, hc]
          obtain ⟨d, hd⟩ : ∃ d, d = if b then r' else l' := ⟨_, rfl⟩
          have hch : s.childOf s.cur b = d := by simp [State.childOf, hcn, hd]
          cases hq : s.node[d.toNat]? with
          | none => simp only [hr, hc, ← hd, hq] at h; simp at h
          | some q =>
            cases q with
            | leaf sym w => simp only [hr, hc, ← hd, hq] at h; simp at h
            | internal w2 l2 r2 =>
              simp only [hr, hc, ← hd, hq, Option.some.injEq, Prod.mk.injEq, true_and] at h
              have hqn : State.nodeAt { s with cur := d } d = .internal w2 l2 r2 := by
                simp only [State.nodeAt]; rw [hq]; rfl
              simp only [useBit, hn, walkBit, hch, hqn]; rw [h]

/-- What one payload bit does, where the walk emits a symbol: it is emit's doing, on the state with CUR moved (R186, R187). -/
theorem useBit_emits {s : State} {b : Bool} {sym : Byte} {c : NodeIx} (h : walkOne s.node s.root s.cur b = some (some sym, c)) :
    ∃ d, useBit b s = (emit sym { s with cur := d }).map fun t => { t with cur := c } := by
  unfold walkOne at h
  cases hr : s.node[s.root.toNat]? with
  | none => simp [hr] at h
  | some n =>
    cases n with
    | leaf sym' w =>
      simp only [hr, Option.some.injEq, Prod.mk.injEq] at h
      obtain ⟨rfl, rfl⟩ := h
      have hn : s.nodeAt s.root = .leaf sym' w := by simp [State.nodeAt, hr]
      refine ⟨s.cur, ?_⟩
      simp only [useBit, hn]
      unfold emit
      split
      · rfl
      · split
        · rfl
        · unfold memWrite; split <;> rfl
    | internal w l r =>
      have hn : s.nodeAt s.root = .internal w l r := by simp [State.nodeAt, hr]
      cases hc : s.node[s.cur.toNat]? with
      | none => simp [hr, hc] at h
      | some m =>
        cases m with
        | leaf sym w => simp [hr, hc] at h
        | internal w' l' r' =>
          have hcn : s.nodeAt s.cur = .internal w' l' r' := by simp [State.nodeAt, hc]
          obtain ⟨d, hd⟩ : ∃ d, d = if b then r' else l' := ⟨_, rfl⟩
          have hch : s.childOf s.cur b = d := by simp [State.childOf, hcn, hd]
          cases hq : s.node[d.toNat]? with
          | none => simp only [hr, hc, ← hd, hq] at h; simp at h
          | some q =>
            cases q with
            | internal w2 l2 r2 => simp only [hr, hc, ← hd, hq] at h; simp at h
            | leaf sym' w2 =>
              simp only [hr, hc, ← hd, hq, Option.some.injEq, Prod.mk.injEq] at h
              obtain ⟨rfl, rfl⟩ := h
              have hqn : State.nodeAt { s with cur := d } d = .leaf sym' w2 := by
                simp only [State.nodeAt]; rw [hq]; rfl
              refine ⟨d, ?_⟩
              simp only [useBit, hn, walkBit, hch, hqn]
              cases he : emit sym' { s with cur := d } with
              | error x => rfl
              | ok t => simp only [run_bind_ok, run_pure, Except.map, emit_root he]

/-- The error that ends a decoding which would emit more than EXPECTED or more than OUT_MAX bytes (R188, R192). -/
def overflowError (s : State) : ErrCode × Word :=
  if s.expected.toNat ≤ s.params.outMax then (.corruptStream, 4#32) else (.capacity, 2#32)

/-- DECODE's loop: the bytes the walk gives are written, or the first byte too many ends the command. -/
theorem decodeBits_spec (bs : Bits) (s : State) {out : List Byte} {c : NodeIx}
    (hb : ∀ i, (h : i < bs.length) → getBit s (s.bitPos.toNat + i) = .ok bs[i]) (hp : s.bitPos.toNat + bs.length < 2 ^ 32)
    (hw : walkBits s.node s.root s.cur bs = some (out, c))
    (he : s.emitted.toNat ≤ s.expected.toNat) (ho : s.emitted.toNat ≤ s.params.outMax) :
    (s.emitted.toNat + out.length ≤ s.expected.toNat ∧ s.emitted.toNat + out.length ≤ s.params.outMax →
      decodeBits bs.length s = .ok { s with
        outbuf := Memory.writeBytes s.outbuf s.emitted.toNat out
        emitted := s.emitted + BitVec.ofNat 32 out.length
        cur := c
        bitPos := s.bitPos + BitVec.ofNat 32 bs.length }) ∧
    (¬ (s.emitted.toNat + out.length ≤ s.expected.toNat ∧ s.emitted.toNat + out.length ≤ s.params.outMax) →
      ∃ t, t.phase = s.phase ∧ decodeBits bs.length s = raise (overflowError s).1 (overflowError s).2 t) := by
  induction bs generalizing s out with
  | nil =>
    simp only [walkBits, Option.some.injEq, Prod.mk.injEq] at hw
    obtain ⟨rfl, rfl⟩ := hw
    exact ⟨fun _ => by simp [decodeBits, Memory.writeBytes], fun h => absurd ⟨by simpa using he, by simpa using ho⟩ h⟩
  | cons b bs ih =>
    rw [walkBits_cons] at hw
    cases hone : walkOne s.node s.root s.cur b with
    | none => simp [hone] at hw
    | some x =>
      obtain ⟨o, c'⟩ := x
      rw [hone, Option.bind_some] at hw
      dsimp only at hw
      cases hrest : walkBits s.node s.root c' bs with
      | none => simp [hrest] at hw
      | some y =>
        obtain ⟨out', d⟩ := y
        simp only [hrest, Option.map_some, Option.some.injEq, Prod.mk.injEq] at hw
        obtain ⟨rfl, rfl⟩ := hw
        have hget := hb 0 (by simp)
        simp only [Nat.add_zero, List.getElem_cons_zero] at hget
        simp only [List.length_cons] at hp
        have hbp : (s.bitPos + 1#32).toNat = s.bitPos.toNat + 1 := word_add (k := 1) (by omega)
        have hnext : ∀ t : State, t.inbuf = s.inbuf → t.epoch = s.epoch → t.inLen = s.inLen → t.params = s.params →
            t.payOff = s.payOff → t.bitPos = s.bitPos + 1#32 →
            ∀ i, (h : i < bs.length) → getBit t (t.bitPos.toNat + i) = .ok bs[i] := by
          intro t e1 e2 e3 e4 e5 e6 i hi
          have := hb (i + 1) (by simp; omega)
          rw [List.getElem_cons_succ] at this
          rw [e6, hbp, show s.bitPos.toNat + 1 + i = s.bitPos.toNat + (i + 1) by omega, ← this]
          unfold getBit memRead State.inByte
          rw [e1, e2, e3, e4, e5]
        have hpos : s.bitPos + 1#32 + BitVec.ofNat 32 bs.length = s.bitPos + BitVec.ofNat 32 (bs.length + 1) := by
          rw [BitVec.add_assoc, ← BitVec.ofNat_add, Nat.add_comm]
        rw [List.length_cons, decodeBits, decodeBit, hget, run_bind_ok]
        cases o with
        | none =>
          have hi := ih { s with cur := c', bitPos := s.bitPos + 1#32 } (out := out')
            (hnext _ rfl rfl rfl rfl rfl rfl) (by show (s.bitPos + 1#32).toNat + _ < _; omega) hrest he ho
          rw [useBit_silent hone, run_bind_ok, run_pure, run_bind_ok]
          simp only [Option.toList_none, List.nil_append]
          refine ⟨fun hc => ?_, fun hc => hi.2 hc⟩
          rw [hi.1 hc]; simp only [hpos]
        | some sym =>
          obtain ⟨d, hu⟩ := useBit_emits hone
          rw [emit_eq (s := { s with cur := d }) sym ho] at hu
          simp only [] at hu
          simp only [Option.toList_some, List.cons_append, List.nil_append, List.length_cons]
          by_cases h1 : s.emitted.setWidth 40 = s.expected
          · rw [if_pos h1] at hu
            rw [emitted_wide] at h1
            refine ⟨fun hc => by omega, fun _ => ⟨{ s with cur := d }, rfl, ?_⟩⟩
            rw [hu, overflowError, if_pos (by omega)]
            rfl
          · by_cases h2 : s.emitted.toNat = s.params.outMax
            · rw [if_neg h1, if_pos h2] at hu
              rw [emitted_wide] at h1
              refine ⟨fun hc => by omega, fun _ => ⟨{ s with cur := d }, rfl, ?_⟩⟩
              rw [hu, overflowError, if_neg (by omega)]
              rfl
            · rw [if_neg h1, if_neg h2] at hu
              rw [emitted_wide] at h1
              have hem : (s.emitted + 1#32).toNat = s.emitted.toNat + 1 :=
                word_add (k := 1) (by have := s.params.outTop; omega)
              have hi := ih { s with
                  outbuf := Memory.write s.outbuf s.emitted.toNat sym
                  emitted := s.emitted + 1#32
                  cur := c'
                  bitPos := s.bitPos + 1#32 } (out := out')
                (hnext _ rfl rfl rfl rfl rfl rfl) (by show (s.bitPos + 1#32).toNat + _ < _; omega) hrest
                (by show (s.emitted + 1#32).toNat ≤ s.expected.toNat; omega)
                (by show (s.emitted + 1#32).toNat ≤ s.params.outMax; omega)
              rw [hu]
              simp only [Except.map, run_bind_ok, run_pure]
              simp only [hem] at hi
              refine ⟨fun hc => ?_, fun hc => hi.2 (by omega)⟩
              rw [hi.1 (by omega)]
              simp only [Memory.writeBytes, hpos]
              congr 2
              rw [BitVec.add_assoc, ← BitVec.ofNat_add, Nat.add_comm]

theorem decodePayload_eq {s : State} (ha : s.arenaOk = true) :
    decodePayload s = (do
      let s ← decodeBits s.nbits.toNat { s with
        phase := 0x9#4, expected := s.freqSum, emitted := 0#32, cur := s.root, bitPos := 0#32 }
      if s.cur ≠ s.root then raise .corruptStream 3#32 s
      else if s.emitted.setWidth 40 ≠ s.expected then raise .corruptStream 4#32 s
      else return s) := by
  have : redrawNodes (setPhase 0x9#4 s) = setPhase 0x9#4 s := if_pos ha
  unfold decodePayload
  rw [this]; rfl

/-- DECODE (R186), where the walk of the payload bits is defined: the whole of what it can do. -/
theorem decodePayload_spec {s : State} {out : List Byte} {c : NodeIx} (h2 : s.inLen.toNat ≤ s.params.inMax) (ha : s.arenaOk = true)
    (hp : s.payOff.toNat + ceil8 s.nbits.toNat ≤ s.inLen.toNat)
    (hw : walkBits s.node s.root s.root s.payloadBits = some (out, c)) :
    ∃ t, t.phase = 0x9#4 ∧
      (if s.params.outMax < s.freqSum.toNat ∧ s.params.outMax < out.length then decodePayload s = raise .capacity 2#32 t
      else if s.freqSum.toNat < out.length then decodePayload s = raise .corruptStream 4#32 t
      else if c ≠ s.root then decodePayload s = raise .corruptStream 3#32 t
      else if out.length < s.freqSum.toNat then decodePayload s = raise .corruptStream 4#32 t
      else decodePayload s = .ok { s with
        phase := 0x9#4
        outbuf := Memory.writeBytes s.outbuf 0 out
        expected := s.freqSum
        emitted := BitVec.ofNat 32 out.length
        cur := s.root
        bitPos := s.nbits }) := by
  rw [decodePayload_eq ha]
  generalize s.freqSum = E
  let s0 : State := { s with phase := 0x9#4, expected := E, emitted := 0#32, cur := s.root, bitPos := 0#32 }
  have hlen : s.payloadBits.length = s.nbits.toNat := by simp [State.payloadBits]
  have hspec := decodeBits_spec s.payloadBits s0 (out := out) (c := c) (fun i hi => by
      have hi' : i < s.nbits.toNat := hlen ▸ hi
      have : byteOffset i < ceil8 s.nbits.toNat := ceil8_lt hi'
      show getBit s0 (0 + i) = _
      rw [Nat.zero_add, getBit_ok (s := s0) (by show s.payOff.toNat + byteOffset i < s.inLen.toNat; omega) h2]
      simp only [State.payloadBits, List.getElem_map, List.getElem_range]
      rfl) (by rw [hlen]; show 0 + _ < _; have := s.nbits.isLt; omega) hw (by show 0 ≤ _; omega) (by show 0 ≤ _; omega)
  have e0 : s0.emitted.toNat = 0 := rfl
  have e1 : s0.expected = E := rfl
  have e2 : s0.params = s.params := rfl
  rw [e0, e1, e2, hlen, Nat.zero_add] at hspec
  by_cases hc : out.length ≤ E.toNat ∧ out.length ≤ s.params.outMax
  · replace hspec := hspec.1 hc
    have hz : (0#32 : Word) + BitVec.ofNat 32 out.length = BitVec.ofNat 32 out.length := BitVec.zero_add _
    have hol : (BitVec.ofNat 32 out.length).toNat = out.length := by
      rw [BitVec.toNat_ofNat]; have := s.params.outTop; omega
    have hbp : (0#32 : Word) + BitVec.ofNat 32 s.nbits.toNat = s.nbits := by simp
    let t : State := { s0 with outbuf := Memory.writeBytes s.outbuf 0 out, emitted := BitVec.ofNat 32 out.length, cur := c, bitPos := s.nbits }
    have ht : decodeBits s.nbits.toNat s0 = .ok t := by
      rw [hspec]
      show Except.ok { s0 with outbuf := _, emitted := (0#32 : Word) + _, cur := c, bitPos := (0#32 : Word) + _ } = _
      rw [hz, hbp]
    refine ⟨t, rfl, ?_⟩
    rw [if_neg (by omega), if_neg (by omega)]
    show if c ≠ s.root then (decodeBits s.nbits.toNat s0 >>= _) = raise .corruptStream 3#32 t else _
    rw [show decodeBits s.nbits.toNat _ = Except.ok t from ht, run_bind_ok]
    by_cases hcr : c = s.root
    · have hwide : (t.emitted.setWidth 40 = t.expected) ↔ out.length = E.toNat := by
        rw [emitted_wide]; show (BitVec.ofNat 32 out.length).toNat = _ ↔ _; rw [hol]
      have htr : ¬ (t.cur ≠ t.root) := by simpa using hcr
      rw [if_neg (by simpa using hcr), if_neg htr]
      by_cases hlt : out.length < E.toNat
      · rw [if_pos hlt, if_pos (fun h => by rw [hwide] at h; omega)]
      · rw [if_neg hlt, if_neg (by simp only [ne_eq, not_not]; rw [hwide]; omega), run_pure]
        simp only [t, s0, hcr]
    · have htr : t.cur ≠ t.root := hcr
      rw [if_pos hcr, if_pos htr]
  · obtain ⟨t, ht1, ht2⟩ := hspec.2 hc
    refine ⟨t, ht1, ?_⟩
    rw [overflowError, e1, e2] at ht2
    by_cases h : s.params.outMax < E.toNat ∧ s.params.outMax < out.length
    · rw [if_neg (by omega)] at ht2
      rw [if_pos h]
      show (decodeBits s.nbits.toNat s0 >>= _) = _
      rw [ht2]; rfl
    · rw [if_pos (by omega)] at ht2
      rw [if_neg h, if_pos (by omega)]
      show (decodeBits s.nbits.toNat s0 >>= _) = _
      rw [ht2]; rfl

end Sys2Proof.Machine
end

