-- ==== Sys2Proof/Laws/Weights.lean ====
section
/-!
SUPPORT. The weights of the tree BUILD_TREE makes: sums that do not wrap, and pops in rising order of the key (41_tree_builder.md
R143, R144, R147, R149).
-/
namespace Sys2Proof.Machine

theorem entryOf_append {nodes : List Node} {n : NodeIx} (h : n.toNat < nodes.length) (m : Node) :
    entryOf (nodes ++ [m]) n = entryOf nodes n := by
  unfold entryOf
  rw [List.getElem?_append_left h]

/-- The queue and the arena while BUILD_TREE combines, as to their weights, the leaves summing to `S`. -/
structure Weighed (S : Nat) (nodes : List Node) (pq : List Entry) : Prop where
  total    : (pq.map fun e => e.weight.toNat).sum = S
  small    : S < 2 ^ 40
  positive : ∀ e ∈ pq, 0 < e.weight.toNat
  pairs    : ∀ (i : Nat) (w : Weight) (l r : NodeIx), nodes[i]? = some (.internal w l r) →
    ∃ a b, entryOf nodes l = some a ∧ entryOf nodes r = some b ∧ w = a.weight + b.weight ∧
      w.toNat = a.weight.toNat + b.weight.toNat ∧ keyBefore a b = true
  chain    : ∀ (i : Nat) (w w' : Weight) (l r l' r' : NodeIx), nodes[i]? = some (.internal w l r) →
    nodes[i + 1]? = some (.internal w' l' r') → ∃ b a', entryOf nodes r = some b ∧ entryOf nodes l' = some a' ∧ keyBefore b a' = true
  above    : ∀ (w : Weight) (l r : NodeIx), nodes[nodes.length - 1]? = some (.internal w l r) →
    ∃ b, entryOf nodes r = some b ∧ ∀ e ∈ pq, keyBefore b e = true

theorem Weighed.perm {S : Nat} {nodes : List Node} {pq pq' : List Entry} (h : Weighed S nodes pq) (hp : pq.Perm pq') :
    Weighed S nodes pq' where
  total := by rw [← h.total]; exact (hp.map _).sum_eq.symm
  small := h.small
  positive := fun e he => h.positive e (hp.mem_iff.2 he)
  pairs := h.pairs
  chain := h.chain
  above := fun w l r hn => by
    obtain ⟨b, hb, he⟩ := h.above w l r hn
    exact ⟨b, hb, fun e hm => he e (hp.mem_iff.2 hm)⟩

/-- A turn of the combine loop, when the two least entries of the queue are `e` and `f`, in that order. -/
theorem Weighed.join {S L : Nat} {nodes : List Node} {e f : Entry} {q : List Entry} (hF : Forest L nodes (e :: f :: q))
    (h : Weighed S nodes (e :: f :: q)) (hef : keyBefore e f = true) (hq : ∀ x ∈ q, keyBefore f x = true) :
    Weighed S (nodes ++ [.internal (e.weight + f.weight) e.node f.node])
      ({ weight := e.weight + f.weight, node := BitVec.ofNat 9 nodes.length } :: q) := by
  have ht := h.total
  simp only [List.map_cons, List.sum_cons] at ht
  have hs := h.small
  have hsum : (e.weight + f.weight).toNat = e.weight.toNat + f.weight.toNat := by
    rw [BitVec.toNat_add]; apply Nat.mod_eq_of_lt; omega
  have hent : ∀ x ∈ e :: f :: q, entryOf nodes x.node = some x := fun x hx => by
    obtain ⟨n, hn, hw⟩ := hF.queued x hx
    rw [entryOf, hn]; simp [hw]
  have he := hF.node_lt (e := e) (by simp)
  have hf := hF.node_lt (e := f) (by simp)
  have hpe := h.positive e (by simp)
  have hold : ∀ {n : NodeIx} {a : Entry}, entryOf nodes n = some a →
      entryOf (nodes ++ [.internal (e.weight + f.weight) e.node f.node]) n = some a := fun {n a} hn => by
    rw [entryOf_append _ _]; exact hn
    unfold entryOf at hn
    rcases Nat.lt_or_ge n.toNat nodes.length with hlt | hge
    · exact hlt
    · rw [List.getElem?_eq_none hge] at hn; simp at hn
  have hget : ∀ {i : Nat} {n : Node}, (nodes ++ [Node.internal (e.weight + f.weight) e.node f.node])[i]? = some n →
      (i < nodes.length ∧ nodes[i]? = some n) ∨ (i = nodes.length ∧ n = .internal (e.weight + f.weight) e.node f.node) := by
    intro i n hn
    rcases Nat.lt_or_ge i nodes.length with hlt | hge
    · rw [List.getElem?_append_left hlt] at hn; exact .inl ⟨hlt, hn⟩
    · rw [List.getElem?_append_right hge] at hn
      cases hd : i - nodes.length with
      | zero =>
        rw [hd] at hn
        simp only [List.getElem?_cons_zero, Option.some.injEq] at hn
        exact .inr ⟨by omega, hn.symm⟩
      | succ k => rw [hd] at hn; simp at hn
  refine ⟨by simp only [List.map_cons, List.sum_cons]; omega, hs, ?_, ?_, ?_, ?_⟩
  · intro x hx
    rcases List.mem_cons.1 hx with rfl | hx
    · show 0 < (e.weight + f.weight).toNat; omega
    · exact h.positive x (by simp [hx])
  · intro i w l r hn
    rcases hget hn with ⟨_, hn⟩ | ⟨_, hn⟩
    · obtain ⟨a, b, ha, hb, hw, hw', hk⟩ := h.pairs i w l r hn
      exact ⟨a, b, hold ha, hold hb, hw, hw', hk⟩
    · obtain ⟨rfl, rfl, rfl⟩ := by simpa using hn
      exact ⟨e, f, hold (hent e (by simp)), hold (hent f (by simp)), rfl, hsum, hef⟩
  · intro i w w' l r l' r' hn hn'
    rcases hget hn' with ⟨_, hn'⟩ | ⟨hi, hn'⟩
    · rcases hget hn with ⟨_, hn⟩ | ⟨hi, _⟩
      · obtain ⟨b, a', hb, ha', hk⟩ := h.chain i w w' l r l' r' hn hn'
        exact ⟨b, a', hold hb, hold ha', hk⟩
      · omega
    · obtain ⟨rfl, rfl, rfl⟩ := by simpa using hn'
      rcases hget hn with ⟨_, hn⟩ | ⟨hi', _⟩
      · obtain ⟨b, hb, hk⟩ := h.above w l r (by rw [← hi]; simpa using hn)
        exact ⟨b, e, hold hb, hold (hent e (by simp)), hk e (by simp)⟩
      · omega
  · intro w l r hn
    rcases hget hn with ⟨hlt, _⟩ | ⟨_, hn⟩
    · simp at hlt
    · obtain ⟨rfl, rfl, rfl⟩ := by simpa using hn
      refine ⟨f, hold (hent f (by simp)), fun x hx => ?_⟩
      rcases List.mem_cons.1 hx with rfl | hx
      · rw [keyBefore_iff]; exact .inl (by show f.weight.toNat < (e.weight + f.weight).toNat; omega)
      · exact hq x hx

theorem Weighed.combinePair {S L : Nat} {nodes : List Node} {pq : List Entry} (hF : Forest L nodes pq) (h : Weighed S nodes pq)
    (h2 : 1 < pq.length) : Weighed S (combinePair (nodes, pq)).1 (combinePair (nodes, pq)).2 := by
  obtain ⟨e, f, he, hf, hme, hmf, hlen⟩ := two_least h2
  have hp : pq.Perm (e :: f :: (pq.erase e).erase f) :=
    (List.perm_cons_erase hme).trans (List.Perm.cons e (List.perm_cons_erase hmf))
  have hnd : (e :: f :: (pq.erase e).erase f).Nodup :=
    List.Nodup.of_map _ ((hp.map _).nodup_iff.1 hF.nodup)
  rw [List.nodup_cons, List.nodup_cons, List.mem_cons, not_or] at hnd
  simp only [Machine.combinePair, he, hf]
  refine Weighed.perm ((h.perm hp).join (hF.perm hp) ?_ fun x hx => ?_) (insertEntry_perm _ _).symm
  · exact (leastEntry_spec he).2 f (List.mem_of_mem_erase hmf) (fun hc => hnd.1.1 hc.symm)
  · exact (leastEntry_spec hf).2 x (List.mem_of_mem_erase hx) (fun hc => hnd.2.1 (hc ▸ hx))

theorem Weighed.combinePairs {S L k : Nat} {nodes : List Node} {pq : List Entry} (hF : Forest L nodes pq) (h : Weighed S nodes pq) :
    Weighed S (combinePairs k (nodes, pq)).1 (combinePairs k (nodes, pq)).2 := by
  induction k generalizing nodes pq with
  | zero => exact h
  | succ k ih =>
    simp only [Machine.combinePairs]
    split
    · rename_i h2
      exact ih (hF.combinePair h2).1 (h.combinePair hF h2)
    · exact h

/-- The sum of the frequencies, exact. -/
def State.freqTotal (s : State) : Nat := (symbols.map fun sym => (s.freqAt sym).toNat).sum

theorem sum_le_mul {f : Byte → Nat} {m : Nat} (l : List Byte) (h : ∀ x, f x ≤ m) : (l.map f).sum ≤ l.length * m := by
  induction l with
  | nil => simp
  | cons a l ih =>
    have := h a
    rw [List.map_cons, List.sum_cons, List.length_cons, Nat.add_mul]; omega

theorem symbols_length : symbols.length = 256 := by simp [symbols]

theorem freqTotal_lt (s : State) : s.freqTotal < 2 ^ 40 := by
  have h := sum_le_mul (f := fun sym => (s.freqAt sym).toNat) (m := 2 ^ 32 - 1) symbols (fun x => by
    have := (s.freqAt x).isLt; omega)
  rw [symbols_length] at h
  unfold State.freqTotal
  omega

/-- The absent symbols add nothing to the sum of the frequencies. -/
theorem freqTotal_alphabet (s : State) : s.freqTotal = (s.alphabet.map fun sym => (s.freqAt sym).toNat).sum := by
  unfold State.freqTotal State.alphabet
  generalize symbols = l
  induction l with
  | nil => rfl
  | cons a l ih =>
    rw [List.filter_cons, List.map_cons, List.sum_cons, ih]
    split
    · simp
    · rename_i h
      have : s.freqAt a = 0#32 := by simpa [State.present] using h
      simp [this]

/-- The sum of 44_decoder.md R186 does not wrap. -/
theorem freqSum_toNat (s : State) : s.freqSum.toNat = s.freqTotal := by
  have key : ∀ (l : List Byte) (acc : Weight), acc.toNat + (l.map fun sym => (s.freqAt sym).toNat).sum < 2 ^ 40 →
      (l.foldl (fun acc sym => acc + (s.freqAt sym).setWidth 40) acc).toNat =
        acc.toNat + (l.map fun sym => (s.freqAt sym).toNat).sum := by
    intro l
    induction l with
    | nil => intro acc _; simp
    | cons a l ih =>
      intro acc h
      simp only [List.map_cons, List.sum_cons] at h
      have hlt := (s.freqAt a).isLt
      have hacc : (acc + (s.freqAt a).setWidth 40).toNat = acc.toNat + (s.freqAt a).toNat := by
        rw [BitVec.toNat_add, BitVec.toNat_setWidth, Nat.mod_eq_of_lt (show (s.freqAt a).toNat < 2 ^ 40 by omega)]
        apply Nat.mod_eq_of_lt; omega
      rw [List.foldl_cons, ih _ (by omega), List.map_cons, List.sum_cons, hacc]; omega
  have h := freqTotal_lt s
  unfold State.freqTotal at h
  have := key symbols 0#40 (by simpa using h)
  simpa [State.freqSum, State.freqTotal] using this

/-- The leaves, all queued, weigh what the table sums to. -/
theorem Weighed.ofLeaves {s : State} {pq : List Entry} (hp : pq.Perm (allEntries (s.alphabet.map (leafOf s.freq)))) :
    Weighed s.freqTotal (s.alphabet.map (leafOf s.freq)) pq := by
  refine Weighed.perm ?_ hp.symm
  have hwid : ∀ sym, ((s.freqAt sym).setWidth 40 : Weight).toNat = (s.freqAt sym).toNat := fun sym => by
    rw [BitVec.toNat_setWidth]; apply Nat.mod_eq_of_lt; have := (s.freqAt sym).isLt; omega
  have hno : ∀ (i : Nat) (w : Weight) (l r : NodeIx), (s.alphabet.map (leafOf s.freq))[i]? ≠ some (.internal w l r) := by
    intro i w l r hn
    obtain ⟨hi, hn⟩ := List.getElem?_eq_some_iff.1 hn
    simp [leafOf] at hn
  refine ⟨?_, freqTotal_lt s, fun e he => ?_, fun i w l r hn => absurd hn (hno _ _ _ _),
    fun i w w' l r l' r' hn => absurd hn (hno _ _ _ _), fun w l r hn => absurd hn (hno _ _ _ _)⟩
  · rw [freqTotal_alphabet]
    congr 1
    apply List.ext_getElem
    · simp [allEntries]
    · intro i h1 h2
      simp only [allEntries, List.getElem_map, List.getElem_zipIdx, leafOf, Node.weight]
      exact hwid _
  · obtain ⟨i, hi, rfl⟩ := mem_allEntries.1 he
    simp only [List.getElem_map, leafOf, Node.weight]
    rw [show (s.freq[(s.alphabet[i]'(by simpa using hi)).toNat]'(symbol_lt _)) = s.freqAt (s.alphabet[i]'(by simpa using hi)) from rfl, hwid]
    have hm : s.alphabet[i]'(by simpa using hi) ∈ s.alphabet := List.getElem_mem _
    rw [mem_alphabet] at hm
    have : (s.freqAt (s.alphabet[i]'(by simpa using hi))).toNat ≠ 0 := fun h0 => hm (BitVec.eq_of_toNat_eq (by simpa using h0))
    omega

/-- The tree BUILD_TREE leaves, as to its weights. -/
theorem buildTree_weighed {s t : State} (h : s.alphabet ≠ []) (ht : buildTree s = .ok t) : Weighed s.freqTotal t.node t.pq := by
  obtain ⟨u, pq0, h1, _, h3, _, h5, _, _, _⟩ := buildTree_spec h
  obtain rfl : t = u := by rw [ht] at h1; exact Except.ok.inj h1
  have hw := (Weighed.ofLeaves (s := s) h3).combinePairs (k := s.alphabet.length) (by
    have := Forest.ofLeaves h (alphabet_length_le s) h3
    exact this)
  rw [← h5] at hw
  exact hw

theorem entryOf_eq_some {nodes : List Node} {n : NodeIx} {a : Entry} (h : entryOf nodes n = some a) :
    ∃ x, nodes[n.toNat]? = some x ∧ x.weight = a.weight := by
  unfold entryOf at h
  cases hn : nodes[n.toNat]? with
  | none => simp [hn] at h
  | some x => exact ⟨x, rfl, by simp [hn] at h; rw [← h]⟩

/-- Every node's weight is the exact sum of the leaves below it (R147). -/
theorem Weighed.leavesBelow {S : Nat} {nodes : List Node} {pq : List Entry} (h : Weighed S nodes pq)
    (hb : ∀ i n, nodes[i]? = some n → childrenBelow i n = true) (depth : Nat) (n : NodeIx) (x : Node) (hd : n.toNat < depth)
    (hx : nodes[n.toNat]? = some x) : leavesBelow nodes depth n = x.weight.toNat := by
  induction depth generalizing n x with
  | zero => omega
  | succ depth ih =>
    cases x with
    | leaf sym w => simp [Machine.leavesBelow, hx, Node.weight]
    | internal w l r =>
      obtain ⟨a, b, ha, hb', _, hw, _⟩ := h.pairs _ _ _ _ hx
      obtain ⟨xl, hxl, hwl⟩ := entryOf_eq_some ha
      obtain ⟨xr, hxr, hwr⟩ := entryOf_eq_some hb'
      have hc := hb _ _ hx
      simp only [childrenBelow, Bool.and_eq_true, decide_eq_true_eq] at hc
      simp only [Machine.leavesBelow, hx]
      rw [ih l xl (by omega) hxl, ih r xr (by omega) hxr, hwl, hwr, Node.weight, hw]

/-- The weights of the internal nodes do not fall from one to the next (R147). -/
theorem Weighed.next_le {S : Nat} {nodes : List Node} {pq : List Entry} (h : Weighed S nodes pq) {i : Nat} {w w' : Weight}
    {l r l' r' : NodeIx} (hn : nodes[i]? = some (.internal w l r)) (hn' : nodes[i + 1]? = some (.internal w' l' r')) :
    w.toNat ≤ w'.toNat := by
  obtain ⟨a, b, _, hb, _, hw, hab⟩ := h.pairs _ _ _ _ hn
  obtain ⟨a', b', ha', _, _, hw', hab'⟩ := h.pairs _ _ _ _ hn'
  obtain ⟨x, y, hx, hy, hxy⟩ := h.chain _ _ _ _ _ _ _ hn hn'
  rw [hb] at hx
  rw [ha'] at hy
  obtain rfl := Option.some.inj hx
  obtain rfl := Option.some.inj hy
  have h1 := weight_le_of_keyBefore hab
  have h2 := weight_le_of_keyBefore hxy
  have h3 := weight_le_of_keyBefore hab'
  omega

end Sys2Proof.Machine
end

