-- ==== Sys2Proof/Laws/Commands.lean ====
section
/-!
SUPPORT. The commands as runs: what each part of COMPRESS and DECOMPRESS hands to the next (46_codec_engine.md R234, R235), and that
the walk inverts the code (44_decoder.md R194).
-/
namespace Sys2Proof.Machine

/-! ## The walk inverts the code -/

/-- Under an Internal root the walk of a path to a leaf emits its symbol and is back at the root. -/
theorem walkBits_path {nodes : List Node} {root : NodeIx} {sym : Byte} {w0 w : Weight} {l0 r0 : NodeIx}
    (hr : nodes[root.toNat]? = some (.internal w0 l0 r0)) (p : Bits) (n m : NodeIx) (hp : p ≠ [])
    (hf : followPath nodes n p = some m) (hm : nodes[m.toNat]? = some (.leaf sym w)) (rest : Bits) :
    walkBits nodes root n (p ++ rest) = (walkBits nodes root root rest).map fun x => (sym :: x.1, x.2) := by
  induction p generalizing n with
  | nil => exact absurd rfl hp
  | cons b p ih =>
    cases hn : nodes[n.toNat]? with
    | none => simp [followPath, hn] at hf
    | some x =>
      cases x with
      | leaf _ _ => simp [followPath, hn] at hf
      | internal w1 l r =>
        simp only [followPath, hn] at hf
        rw [List.cons_append, walkBits_cons]
        cases p with
        | nil =>
          simp only [followPath, Option.some.injEq] at hf
          rw [← hf] at hm
          simp only [walkOne, hr, hn, hm, Option.bind_some, Option.toList_some, List.nil_append, List.cons_append]
        | cons b' p =>
          have hint : ∃ w2 l2 r2, nodes[(if b then r else l).toNat]? = some (.internal w2 l2 r2) := by
            cases hx : nodes[(if b then r else l).toNat]? with
            | none => simp only [followPath, hx] at hf; simp at hf
            | some y =>
              cases y with
              | leaf _ _ => simp only [followPath, hx] at hf; simp at hf
              | internal w2 l2 r2 => exact ⟨w2, l2, r2, rfl⟩
          obtain ⟨w2, l2, r2, hx⟩ := hint
          have := ih (if b then r else l) (by simp) hf
          simp only [walkOne, hr, hn, hx, Option.bind_some, Option.toList_none, List.nil_append, this, Option.map_map]
          rfl

/-- Under a root that is a Leaf every bit emits its symbol (44_decoder.md R190). -/
theorem walkBits_leaf {nodes : List Node} {root : NodeIx} {sym : Byte} {w : Weight} (hr : nodes[root.toNat]? = some (.leaf sym w))
    (n : NodeIx) (bs : Bits) : walkBits nodes root n bs = some (List.replicate bs.length sym, n) := by
  induction bs generalizing n with
  | nil => rfl
  | cons b bs ih => rw [walkBits_cons]; simp [walkOne, hr, ih, List.replicate_succ]

/-- Decoding inverts encoding (R194): the walk of the concatenated codes of present symbols gives them back. -/
theorem Grown.walk_codes {s t : State} (h : Grown s t) (syms : List Byte) (hs : ∀ x ∈ syms, x ∈ s.alphabet) :
    walkBits t.node t.root t.root (syms.flatMap fun x => (treeCodes t.node t.root)[x.toNat]'(symbol_lt x)) = some (syms, t.root) := by
  induction syms with
  | nil => rfl
  | cons x syms ih =>
    have hx := hs x List.mem_cons_self
    have ih := ih (fun y hy => hs y (List.mem_cons_of_mem _ hy))
    rw [List.flatMap_cons]
    have hpos : 0 < s.alphabet.length := List.length_pos_of_mem hx
    by_cases hL : s.alphabet.length = 1
    · have hn := h.leaves 0 hpos
      have hr : t.root.toNat = 0 := by have := h.root_toNat; omega
      obtain ⟨a, ha⟩ := List.length_eq_one_iff.1 hL
      have hxa : x = a := by rw [ha] at hx; simpa using hx
      have hroot : t.node[t.root.toNat]? = some (.leaf x ((s.freqAt x).setWidth 40)) := by
        rw [hr, hn]; simp [leafOf, ha, hxa, State.freqAt]
      rw [(h.codes x).2.1 hx hL, walkBits_leaf hroot]
      rw [walkBits_leaf hroot] at ih
      simp only [Option.some.injEq, Prod.mk.injEq, and_true] at ih
      simp only [List.cons_append, List.nil_append, List.length_cons, List.replicate_succ, ih]
    · have hL2 : 2 ≤ s.alphabet.length := by omega
      obtain ⟨m, w, hp, hm⟩ := (h.codes x).2.2 hx hL2
      have hne : (treeCodes t.node t.root)[x.toNat]'(symbol_lt x) ≠ [] := by
        have := (h.code_length hx).1
        intro hc; rw [hc] at this; simp at this
      have hroot : ∃ w0 l0 r0, t.node[t.root.toNat]? = some (.internal w0 l0 r0) := by
        obtain ⟨b, p, hbp⟩ := List.exists_cons_of_ne_nil hne
        rw [hbp] at hp
        cases hn : t.node[t.root.toNat]? with
        | none => simp [followPath, hn] at hp
        | some y =>
          cases y with
          | leaf _ _ => simp [followPath, hn] at hp
          | internal w0 l0 r0 => exact ⟨w0, l0, r0, rfl⟩
      obtain ⟨w0, l0, r0, hroot⟩ := hroot
      rw [walkBits_path hroot _ _ _ hne hp hm, ih]
      rfl

/-! ## The parts of COMPRESS -/

/-- After FREQ_SCAN the present symbols are the bytes of the input (46_codec_engine.md R233). -/
theorem scanned_alphabet {s t : State} (hl : s.inLen.toNat ≤ s.params.inMax) {sym : Byte}
    (h : ∀ sym : Byte, t.freqAt sym = BitVec.ofNat 32 (s.inputBytes.count sym)) : sym ∈ t.alphabet ↔ sym ∈ s.inputBytes := by
  rw [mem_alphabet, h, Ne, ← List.count_eq_zero.not_left]
  have hc : s.inputBytes.count sym ≤ s.inputBytes.length := List.count_le_length
  have hlen : s.inputBytes.length = s.inLen.toNat := by simp [State.inputBytes]
  have := s.params.inTop
  constructor
  · intro h0 hz; rw [hz] at h0; exact h0 rfl
  · intro h0 hz
    have := congrArg BitVec.toNat hz
    rw [BitVec.toNat_ofNat] at this
    simp at this
    omega

theorem inputBytes_length (s : State) : s.inputBytes.length = s.inLen.toNat := by simp [State.inputBytes]

theorem inputBytes_congr {s s' : State} (h1 : s'.inbuf = s.inbuf) (h2 : s'.epoch = s.epoch) (h3 : s'.inLen = s.inLen) :
    s'.inputBytes = s.inputBytes := by
  unfold State.inputBytes State.inByte
  rw [h1, h2, h3]

/-- What a change by BUILD_TREE keeps. -/
theorem TreeFrame.inbuf {s t : State} (h : TreeFrame s t) : t.inbuf = s.inbuf := by rw [h]
theorem TreeFrame.outbuf {s t : State} (h : TreeFrame s t) : t.outbuf = s.outbuf := by rw [h]
theorem TreeFrame.inLen {s t : State} (h : TreeFrame s t) : t.inLen = s.inLen := by rw [h]
theorem TreeFrame.params {s t : State} (h : TreeFrame s t) : t.params = s.params := by rw [h]
theorem TreeFrame.epoch {s t : State} (h : TreeFrame s t) : t.epoch = s.epoch := by rw [h]
theorem TreeFrame.root {s t : State} (h : TreeFrame s t) : t.root = s.root := by rw [h]
theorem TreeFrame.nbits {s t : State} (h : TreeFrame s t) : t.nbits = s.nbits := by rw [h]
theorem TreeFrame.payOff {s t : State} (h : TreeFrame s t) : t.payOff = s.payOff := by rw [h]

theorem genCodes_ok {s : State} (h : s.arenaOk = true) :
    genCodes s = .ok { s with phase := 0x5#4, code := treeCodes s.node s.root } := by
  unfold genCodes
  show (if s.arenaOk = true then _ else _) = _
  rw [if_pos h]; rfl

theorem checkLength_ok {s : State} (h : s.inLen.toNat ≤ s.params.inMax) : checkLength s = .ok s := if_neg (by omega)

/-- Codes of 1 to 255 bits make between one and 255 bits a byte (43_encoder.md R174). -/
theorem flatMap_length_bounds {f : Byte → Bits} (l : List Byte) (h : ∀ x ∈ l, 1 ≤ (f x).length ∧ (f x).length ≤ 255) :
    l.length ≤ (l.flatMap f).length ∧ (l.flatMap f).length ≤ 255 * l.length := by
  induction l with
  | nil => simp
  | cons a l ih =>
    have h1 := h a List.mem_cons_self
    have h2 := ih (fun x hx => h x (List.mem_cons_of_mem _ hx))
    rw [List.flatMap_cons, List.length_append, List.length_cons]
    omega

/-- COMPRESS of a non-empty input that fits INBUF (R234), up to SERIALIZE: the table `u` of the scan, its tree `b`, and the state `d`
with the encoded bits. -/
theorem compress_eq {s : State} (h1 : 1 ≤ s.inLen.toNat) (h2 : s.inLen.toNat ≤ s.params.inMax) :
    ∃ u b d : State,
      (∀ sym : Byte, u.freqAt sym = BitVec.ofNat 32 (s.inputBytes.count sym)) ∧
      (∀ sym, sym ∈ u.alphabet ↔ sym ∈ s.inputBytes) ∧
      buildTree u = .ok b ∧ Grown u b ∧ b.freq = u.freq ∧
      d = { b with
        phase := 0x6#4
        code := treeCodes b.node b.root
        bits := s.inputBytes.flatMap fun x => (treeCodes b.node b.root)[x.toNat]'(symbol_lt x)
        inPos := s.inLen
        nbits := BitVec.ofNat 32 (s.inputBytes.flatMap fun x => (treeCodes b.node b.root)[x.toNat]'(symbol_lt x)).length } ∧
      d.bits.length = d.nbits.toNat ∧ s.inLen.toNat ≤ d.bits.length ∧ d.bits.length ≤ 255 * s.inLen.toNat ∧
      d.inbuf = s.inbuf ∧ d.outbuf = s.outbuf ∧ d.inLen = s.inLen ∧ d.params = s.params ∧ d.epoch = s.epoch ∧
      compress s = (serialize d >>= fun t => .ok (finishCommand t.outPos t)) := by
  obtain ⟨f, hf1, hf2⟩ := freqScan_spec (s := setPhase 0x0#4 s) h2
  let u : State := { setPhase 0x0#4 s with phase := 0x1#4, freq := f, inPos := s.inLen }
  have hfreq : ∀ sym : Byte, u.freqAt sym = BitVec.ofNat 32 (s.inputBytes.count sym) := fun sym => (hf2 sym).trans
    (congrArg _ (congrArg _ (inputBytes_congr rfl rfl rfl)))
  have halpha : ∀ sym, sym ∈ u.alphabet ↔ sym ∈ s.inputBytes := fun sym => scanned_alphabet h2 hfreq
  have hne : u.alphabet ≠ [] := by
    have : 0 < s.inputBytes.length := by rw [inputBytes_length]; omega
    obtain ⟨x, hx⟩ := List.exists_mem_of_length_pos this
    exact List.ne_nil_of_mem ((halpha x).2 hx)
  obtain ⟨b, hb1, hb2, hg⟩ := buildTree_grown hne
  let c : State := { b with phase := 0x5#4, code := treeCodes b.node b.root }
  have hcin : c.inputBytes = s.inputBytes := inputBytes_congr hb2.inbuf hb2.epoch hb2.inLen
  have hcode : ∀ x ∈ s.inputBytes, 1 ≤ (c.codeAt x).length ∧ (c.codeAt x).length ≤ 255 := fun x hx =>
    hg.code_length ((halpha x).2 hx)
  have henc := encodeInput_spec (s := c) (by
      show b.inLen.toNat ≤ b.params.inMax
      rw [hb2.inLen, hb2.params]; exact h2) (by
      rw [hcin]; intro x hx hc
      have := (hcode x hx).1
      rw [hc] at this; simp at this)
  rw [hcin] at henc
  have hbounds := flatMap_length_bounds s.inputBytes hcode
  rw [inputBytes_length] at hbounds
  have hbl : (BitVec.ofNat 32 (s.inputBytes.flatMap c.codeAt).length).toNat = (s.inputBytes.flatMap c.codeAt).length := by
    rw [BitVec.toNat_ofNat]; apply Nat.mod_eq_of_lt
    have := s.params.inTop; omega
  refine ⟨u, b, _, hfreq, halpha, hb1, hg, hb2.freq, rfl, hbl.symm, hbounds.1, hbounds.2, hb2.inbuf, hb2.outbuf, hb2.inLen, hb2.params,
    hb2.epoch, ?_⟩
  have hci : c.inLen = s.inLen := hb2.inLen
  unfold compress
  rw [checkLength_ok (s := setPhase 0x0#4 s) h2, run_bind_ok, hf1, run_bind_ok,
    show buildTree { setPhase 0x0#4 s with phase := 0x1#4, freq := f, inPos := (setPhase 0x0#4 s).inLen } = .ok b from hb1, run_bind_ok,
    genCodes_ok hg.arenaOk, run_bind_ok, show encodeInput { b with phase := 0x5#4, code := treeCodes b.node b.root } = _ from henc,
    run_bind_ok, hci]
  rfl

/-! ## The parts of DECOMPRESS -/

/-- DECOMPRESS of a container whose table and payload length pass (R235), up to DECODE: the table `u` read, its tree `b`, and the state
`d` that DECODE starts from. -/
theorem decompress_eq {s : State} {es : List (Byte × Word)} {n : Word} {rest : List Byte} (h2 : s.inLen.toNat ≤ s.params.inMax)
    (h : s.inputBytes = headerBytes es n ++ rest) (he : entriesOk es) (hr : ceil8 n.toNat ≤ rest.length) :
    ∃ u b d : State,
      u.freq = tableWith zeroFreq es ∧ buildTree u = .ok b ∧ Grown u b ∧ b.freq = u.freq ∧
      d = { b with phase := 0x5#4, code := treeCodes b.node b.root } ∧
      d.nbits = n ∧ d.payOff = BitVec.ofNat 32 (8 + 5 * es.length) ∧
      d.inbuf = s.inbuf ∧ d.outbuf = s.outbuf ∧ d.inLen = s.inLen ∧ d.params = s.params ∧ d.epoch = s.epoch ∧
      decompress s = (decodePayload d >>= fun t => .ok (finishCommand t.emitted t)) := by
  have hd := deserialize_ok (s := setPhase 0x0#4 s) h2 ((inputBytes_congr rfl rfl rfl).trans h) he hr
  let u : State := { setPhase 0x0#4 s with
    phase := 0x8#4
    freq := tableWith zeroFreq es
    ecount := BitVec.ofNat 32 es.length
    nbits := n
    inPos := BitVec.ofNat 32 (8 + 5 * es.length)
    payOff := BitVec.ofNat 32 (8 + 5 * es.length) }
  have hne : u.alphabet ≠ [] := by
    obtain ⟨e, es', rfl⟩ := List.exists_cons_of_ne_nil he.1
    have hm : e ∈ e :: es' := List.mem_cons_self
    refine List.ne_nil_of_mem (a := e.1) (mem_alphabet.2 ?_)
    rw [show u.freqAt e.1 = e.2 from getElem_tableWith_mem he.2.1 hm _]
    exact he.2.2 e hm
  obtain ⟨b, hb1, hb2, hg⟩ := buildTree_grown hne
  refine ⟨u, b, _, rfl, hb1, hg, hb2.freq, rfl, hb2.nbits, hb2.payOff, hb2.inbuf, hb2.outbuf, hb2.inLen, hb2.params, hb2.epoch, ?_⟩
  unfold decompress
  rw [checkLength_ok (s := setPhase 0x0#4 s) h2, run_bind_ok, hd, run_bind_ok, show buildTree _ = .ok b from hb1, run_bind_ok,
    genCodes_ok hg.arenaOk, run_bind_ok]
  rfl

/-- The sum of a table that holds the entries given (44_decoder.md R186). -/
theorem freqTotal_table {s : State} {es : List (Byte × Word)} (hn : (es.map Prod.fst).Nodup) (h : tableHolds s.freq es) :
    s.freqTotal = (es.map fun e => e.2.toNat).sum := by
  have hf : ∀ e ∈ es, (s.freqAt e.1).toNat = e.2.toNat := fun e he => congrArg _ (h.1 e he)
  have hsum : (es.map fun e => e.2.toNat).sum = ((es.map Prod.fst).map fun sym => (s.freqAt sym).toNat).sum := by
    rw [List.map_map]
    exact congrArg _ (List.map_congr_left fun e he => (hf e he).symm)
  rw [hsum]
  have hperm : (symbols.filter fun sym => decide (sym ∈ es.map Prod.fst)).Perm (es.map Prod.fst) :=
    (List.perm_ext_iff_of_nodup (symbols_nodup.filter _) hn).2 fun sym => by simp [mem_symbols]
  rw [← (hperm.map _).sum_eq]
  unfold State.freqTotal
  generalize symbols = l
  induction l with
  | nil => rfl
  | cons a l ih =>
    rw [List.filter_cons, List.map_cons, List.sum_cons, ih]
    split
    · simp
    · rename_i hm
      have : s.freqAt a = 0#32 := h.2 a (by simpa using hm)
      simp [this]

end Sys2Proof.Machine
end

