-- ==== Sys2Proof/Laws/Frames.lean ====
section
/-!
SUPPORT. Everything each micro-operation can do, from any state: what a completed run leaves changed, what a fault of the block leaves
changed, and when the run stops.
-/
namespace Sys2Proof.Machine

/-- A run comes to its end in a state with `R`, or a fault of the block ends it in a state with `E`, or it stops, and then `S` holds. -/
def Run.Does {α : Type} (R : α → Prop) (E : State → Prop) (S : Prop) : Run α → Prop
  | .ok t => R t
  | .error (.ended t) => E t
  | .error (.fault _) => S
  | .error (.refused _) => S

theorem Run.Does.mono {α : Type} {R R' : α → Prop} {E E' : State → Prop} {S S' : Prop} {x : Run α} (h : x.Does R E S)
    (hR : ∀ t, R t → R' t) (hE : ∀ t, E t → E' t) (hS : S → S') : x.Does R' E' S' := by
  rcases x with (_ | _ | _) | _
  · exact hE _ h
  · exact hS h
  · exact hS h
  · exact hR _ h

theorem Run.Does.bind {α β : Type} {R : α → Prop} {R' : β → Prop} {E : State → Prop} {S : Prop} {x : Run α} {f : α → Run β}
    (h : x.Does R E S) (hf : ∀ a, R a → (f a).Does R' E S) : (x >>= f).Does R' E S := by
  rcases x with (_ | _ | _) | a
  · exact h
  · exact h
  · exact h
  · exact hf a h

theorem Run.Does.pure {α : Type} {R : α → Prop} {E : State → Prop} {S : Prop} {a : α} (h : R a) :
    Run.Does R E S (Except.ok a : Run α) := h

theorem raise_does {α : Type} {R : α → Prop} {E : State → Prop} {S : Prop} {e : ErrCode} {info : Word} {s : State}
    (h : E (takeFault e info s)) : Run.Does R E S (raise e info s : Run α) := h

/-- An instruction whose run does this answers a next state with `R` or `E`, or `S` holds. -/
theorem Run.Does.next {R E : State → Prop} {S : Prop} {x : Run State} {t : State} (h : x.Does R E S) (hx : x.outcome = .next t) :
    R t ∨ E t := by
  rcases x with (_ | _ | _) | u
  · simp only [Run.outcome, Host.Outcome.next.injEq] at hx; subst hx; exact .inr h
  · simp [Run.outcome] at hx
  · simp [Run.outcome] at hx
  · simp only [Run.outcome, Host.Outcome.next.injEq] at hx; subst hx; exact .inl h

theorem Run.Does.completes {R E : State → Prop} {S : Prop} {x : Run State} (h : x.Does R E S) (hS : ¬ S) :
    ∃ t, x.outcome = .next t ∧ (R t ∨ E t) := by
  rcases x with (t | _ | _) | u
  · exact ⟨t, rfl, .inr h⟩
  · exact absurd h hS
  · exact absurd h hS
  · exact ⟨u, rfl, .inl h⟩

theorem memRead_does {s : State} {a : Nat} {E : State → Prop} {S : Prop}
    (hS : s.inLen.toNat ≤ a ∨ s.params.inMax ≤ a → S) : (memRead s a).Does (fun b => b = s.inByte a) E S := by
  unfold memRead
  split
  · rfl
  · rename_i h; exact hS (by omega)

theorem memReadWord_does {s : State} {a : Nat} {E : State → Prop} {S : Prop}
    (hS : s.inLen.toNat < a + 4 ∨ s.params.inMax < a + 4 → S) : (memReadWord s a).Does (fun _ => True) E S := by
  unfold memReadWord
  refine (memRead_does fun h => hS (by omega)).bind fun b0 _ => (memRead_does fun h => hS (by omega)).bind fun b1 _ =>
    (memRead_does fun h => hS (by omega)).bind fun b2 _ => (memRead_does fun h => hS (by omega)).bind fun b3 _ => trivial

/-! ## FREQ_SCAN -/

theorem scanBytes_does (k : Nat) (s : State) (h : s.inPos.toNat + k ≤ s.inLen.toNat) :
    (scanBytes k s).Does (fun t => t = { s with freq := t.freq, inPos := t.inPos }) (fun _ => False)
      (s.params.inMax < s.inLen.toNat) := by
  induction k generalizing s with
  | zero => exact Run.Does.pure rfl
  | succ k ih =>
    have hw : (s.inPos + 1#32).toNat = s.inPos.toNat + 1 := word_succ (n := s.inLen.toNat) (by omega) s.inLen.isLt
    rw [scanBytes, scanByte]
    refine Run.Does.bind (R := fun u => u = { s with freq := u.freq, inPos := s.inPos + 1#32 }) ?_ fun u hu => ?_
    · exact (memRead_does (by omega)).bind fun b _ => Run.Does.pure rfl
    · refine (ih u ?_).mono (fun t ht => ?_) (fun _ => id) (fun hS => ?_)
      · rw [hu]; show (s.inPos + 1#32).toNat + k ≤ s.inLen.toNat; omega
      · rw [ht, hu]
      · rw [hu] at hS; exact hS

/-- FREQ_SCAN (46_codec_engine.md R233): it changes FREQ, IN_POS and PHASE; it stops only when IN_LEN passes IN_MAX. -/
theorem freqScan_does (s : State) :
    (freqScan s).Does (fun t => t = { s with phase := 0x1#4, freq := t.freq, inPos := t.inPos }) (fun _ => False)
      (s.params.inMax < s.inLen.toNat) := by
  refine (scanBytes_does _ _ (by simp)).mono (fun t ht => ?_) (fun _ => id) id
  conv_lhs => rw [ht]
  rfl

/-! ## ENCODE -/

theorem encodeBytes_does (k : Nat) (s : State) (h : s.inPos.toNat + k ≤ s.inLen.toNat) :
    (encodeBytes k s).Does (fun t => t = { s with bits := t.bits, inPos := t.inPos })
      (fun t => ∃ info u, t = takeFault .unmappedSymbol info u ∧ u = { s with bits := u.bits, inPos := u.inPos })
      (s.params.inMax < s.inLen.toNat) := by
  induction k generalizing s with
  | zero => exact Run.Does.pure rfl
  | succ k ih =>
    have hw : (s.inPos + 1#32).toNat = s.inPos.toNat + 1 := word_succ (n := s.inLen.toNat) (by omega) s.inLen.isLt
    rw [encodeBytes, encodeByte]
    refine Run.Does.bind (R := fun u => u = { s with bits := u.bits, inPos := s.inPos + 1#32 }) ?_ fun u hu => ?_
    · refine (memRead_does (by omega)).bind fun b _ => ?_
      split
      · exact raise_does ⟨_, s, rfl, rfl⟩
      · exact Run.Does.pure rfl
    · refine (ih u ?_).mono (fun t ht => ?_) (fun t ht => ?_) (fun hS => ?_)
      · rw [hu]; show (s.inPos + 1#32).toNat + k ≤ s.inLen.toNat; omega
      · rw [ht, hu]
      · obtain ⟨info, v, ht, hv⟩ := ht
        exact ⟨info, v, ht, by rw [hv, hu]⟩
      · rw [hu] at hS; exact hS

/-- ENCODE (43_encoder.md R170, R171): it changes BITS, NBITS, IN_POS and PHASE; its one fault is UnmappedSymbolError. -/
theorem encodeInput_does (s : State) :
    (encodeInput s).Does (fun t => t = { s with phase := 0x6#4, bits := t.bits, nbits := t.nbits, inPos := t.inPos })
      (fun t => ∃ info u, t = takeFault .unmappedSymbol info u ∧ u = { s with phase := 0x6#4, bits := u.bits, inPos := u.inPos })
      (s.params.inMax < s.inLen.toNat) := by
  unfold encodeInput
  refine ((encodeBytes_does _ _ (by simp)).mono (fun t => id) (fun t ht => ?_) id).bind fun u hu => ?_
  · obtain ⟨info, v, ht, hv⟩ := ht
    refine ⟨info, v, ht, ?_⟩
    conv_lhs => rw [hv]
    rfl
  · refine Run.Does.pure ?_
    conv_lhs => rw [hu]
    rfl

/-! ## SERIALIZE -/

/-- SERIALIZE (45_container.md R200, R202): it writes the container from 0 and sets OUT_POS past it, or it faults and writes nothing. -/
theorem serialize_does (s : State) :
    (serialize s).Does
      (fun t => t = { s with phase := 0x7#4, ecount := t.ecount, outPos := t.outPos, outbuf := t.outbuf } ∧
        t.outPos.toNat ≤ s.params.outMax ∧ ∃ bs, bs.length = t.outPos.toNat ∧ t.outbuf = Memory.writeBytes s.outbuf 0 bs)
      (fun t => ∃ u, t = takeFault .capacity 2#32 u ∧ u = { s with phase := 0x7#4, ecount := u.ecount }) False := by
  by_cases h : s.containerSize ≤ s.params.outMax
  · have hl := containerBytes_length_le s
    have hn : (BitVec.ofNat 32 s.containerBytes.length).toNat = s.containerBytes.length := by
      rw [BitVec.toNat_ofNat]; apply Nat.mod_eq_of_lt; have := s.params.outTop; omega
    rw [serialize_ok h]
    exact Run.Does.pure ⟨rfl, by show (BitVec.ofNat 32 s.containerBytes.length).toNat ≤ _; omega, s.containerBytes, hn.symm, rfl⟩
  · rw [serialize_full (by omega)]
    exact raise_does ⟨_, rfl, rfl⟩

/-! ## DESERIALIZE -/

/-- The faults of DESERIALIZE (45_container.md R203). -/
def readErrors : List ErrCode := [.truncatedStream, .emptyTable, .corruptStream]

theorem need_does {s : State} {n : Nat} {E : State → Prop} {S : Prop} (hE : ∀ info, E (takeFault .truncatedStream info s)) :
    (need n s).Does (fun t => t = s ∧ s.inPos.toNat + n ≤ s.inLen.toNat) E S := by
  unfold need
  split
  · exact raise_does (hE _)
  · exact Run.Does.pure ⟨rfl, by omega⟩

theorem readEntries_does (k : Nat) (s : State) (h : s.inPos.toNat ≤ s.inLen.toNat) :
    (readEntries k s).Does (fun t => t = { s with freq := t.freq, inPos := t.inPos } ∧ t.inPos.toNat ≤ s.inLen.toNat)
      (fun t => ∃ e info u, e ∈ readErrors ∧ t = takeFault e info u ∧ u = { s with freq := u.freq, inPos := u.inPos })
      (s.params.inMax < s.inLen.toNat) := by
  induction k generalizing s with
  | zero => exact Run.Does.pure ⟨rfl, h⟩
  | succ k ih =>
    rw [readEntries, readEntry]
    refine Run.Does.bind (R := fun u => u = { s with freq := u.freq, inPos := u.inPos } ∧ u.inPos.toNat ≤ s.inLen.toNat) ?_ fun u hu => ?_
    · refine (need_does (fun info => ⟨_, info, s, by simp [readErrors], rfl, rfl⟩)).bind fun v hv => ?_
      obtain ⟨rfl, hn⟩ := hv
      have hw : (v.inPos + 5#32).toNat = v.inPos.toNat + 5 := word_add (k := 5) (by have := v.inLen.isLt; omega)
      refine (memRead_does (by omega)).bind fun b _ => (memReadWord_does (by omega)).bind fun f _ => ?_
      split
      · exact raise_does ⟨_, _, v, by simp [readErrors], rfl, rfl⟩
      · split
        · exact raise_does ⟨_, _, v, by simp [readErrors], rfl, rfl⟩
        · exact Run.Does.pure ⟨rfl, by show (v.inPos + 5#32).toNat ≤ _; omega⟩
    · obtain ⟨hu, hp⟩ := hu
      have hl : u.inLen = s.inLen := by rw [hu]
      have hm : u.params = s.params := by rw [hu]
      refine (ih u (by rw [hl]; exact hp)).mono (fun t ht => ?_) (fun t ht => ?_) (fun hS => ?_)
      · refine ⟨?_, by rw [← hl]; exact ht.2⟩
        rw [ht.1, hu]
      · obtain ⟨e, info, v, he, ht, hv⟩ := ht
        exact ⟨e, info, v, he, ht, by rw [hv, hu]⟩
      · rw [hl, hm] at hS; exact hS

/-- DESERIALIZE (45_container.md R203, R210): it changes ECOUNT, FREQ, NBITS, PAY_OFF, IN_POS and PHASE, and the payload is inside the
input; its faults are three. -/
theorem deserialize_does (s : State) :
    (deserialize s).Does
      (fun t => t = { s with
          phase := 0x8#4, freq := t.freq, ecount := t.ecount, nbits := t.nbits, payOff := t.payOff, inPos := t.inPos } ∧
        t.payOff.toNat + ceil8 t.nbits.toNat ≤ s.inLen.toNat)
      (fun t => ∃ e info u, e ∈ readErrors ∧ t = takeFault e info u ∧
        u = { s with phase := 0x8#4, freq := u.freq, ecount := u.ecount, nbits := u.nbits, inPos := u.inPos })
      (s.params.inMax < s.inLen.toNat) := by
  unfold deserialize
  refine (need_does (fun info => ⟨_, info, _, by simp [readErrors], rfl, rfl⟩)).bind fun a ha => ?_
  obtain ⟨ha, hn⟩ := ha
  have hl : a.inLen = s.inLen := by rw [ha]; rfl
  have hm : a.params = s.params := by rw [ha]; rfl
  have hp : a.inPos = 0#32 := by rw [ha]
  have hn4 : 4 ≤ s.inLen.toNat := by simpa using hn
  have haS : a = { s with phase := 0x8#4, freq := a.freq, ecount := a.ecount, nbits := a.nbits, inPos := a.inPos } := by
    conv_lhs => rw [ha]
    rw [ha]; rfl
  clear ha
  have ha := haS
  have hp0 : a.inPos.toNat = 0 := by rw [hp]; rfl
  refine (memReadWord_does (by rw [hl, hm, hp0]; omega)).bind fun count _ => ?_
  have hp4 : (a.inPos + 4#32).toNat = 4 := by rw [hp]; rfl
  dsimp only
  split
  · refine raise_does ⟨_, _, _, by simp [readErrors], rfl, ?_⟩
    rw [ha]
  · refine ((readEntries_does _ { a with ecount := count, inPos := a.inPos + 4#32 } (by
        show (a.inPos + 4#32).toNat ≤ a.inLen.toNat; rw [hp4, hl]; exact hn4)).mono (fun t => id) (fun t ht => ?_) (fun hS => ?_)).bind
        fun b hb => ?_
    · obtain ⟨e, info, v, he, ht, hv⟩ := ht
      refine ⟨e, info, v, he, ht, ?_⟩
      conv_lhs => rw [hv, ha]
      rw [hv]
    · have hS' : a.params.inMax < a.inLen.toNat := hS
      rw [hl, hm] at hS'; exact hS'
    · obtain ⟨hb, hbp⟩ := hb
      have hbl : b.inLen = s.inLen := by rw [hb, ← hl]
      have hbm : b.params = s.params := by rw [hb, ← hm]
      have hbS : b = { s with phase := 0x8#4, freq := b.freq, ecount := b.ecount, nbits := b.nbits, inPos := b.inPos } := by
        conv_lhs => rw [hb, ha]
        rw [hb]
      refine (need_does (fun info => ⟨_, info, b, by simp [readErrors], rfl, hbS⟩)).bind fun c hc => ?_
      obtain ⟨rfl, hcn⟩ := hc
      rw [hbl] at hcn
      refine (memReadWord_does (by rw [hbl, hbm]; omega)).bind fun n _ => ?_
      have hc4 : (c.inPos + 4#32).toNat = c.inPos.toNat + 4 := word_add (k := 4) (by have := s.inLen.isLt; omega)
      refine (need_does (fun info => ⟨_, info, _, by simp [readErrors], rfl, by conv_lhs => rw [hbS]⟩)).bind
        fun d hd => ?_
      · obtain ⟨hd, hdn⟩ := hd
        refine Run.Does.pure ⟨?_, ?_⟩
        · rw [hd]
          conv_lhs => rw [hbS]
        · have hdn' : (c.inPos + 4#32).toNat + ceil8 n.toNat ≤ c.inLen.toNat := hdn
          rw [hbl] at hdn'
          rw [hd]; exact hdn'

/-! ## DECODE -/

/-- What DECODE's loop keeps: it writes OUTBUF from 0 up to EMITTED and moves its cursors. -/
structure Decoding (s t : State) : Prop where
  frame   : t = { s with outbuf := t.outbuf, emitted := t.emitted, cur := t.cur, bitPos := t.bitPos }
  room    : t.emitted.toNat ≤ s.params.outMax
  written : ∃ bs : List Byte, bs.length = t.emitted.toNat ∧ t.outbuf = Memory.writeBytes s.outbuf 0 bs

theorem Decoding.withCur {s t : State} (h : Decoding s t) (c : NodeIx) : Decoding s { t with cur := c } :=
  ⟨by conv_lhs => rw [h.frame], h.room, h.written⟩

theorem Decoding.withBitPos {s t : State} (h : Decoding s t) (p : Word) : Decoding s { t with bitPos := p } :=
  ⟨by conv_lhs => rw [h.frame], h.room, h.written⟩

/-- The faults of DECODE (44_decoder.md R186). -/
def walkErrors : List ErrCode := [.corruptStream, .capacity]

/-- A fault of DECODE, raised after the loop has gone some way. -/
def DecodeFault (s t : State) : Prop := ∃ e info u, e ∈ walkErrors ∧ t = takeFault e info u ∧ Decoding s u

theorem emit_does {s t : State} (h : Decoding s t) (sym : Byte) {S : Prop} :
    (emit sym t).Does (fun u => Decoding s u ∧ u.bitPos = t.bitPos) (DecodeFault s) S := by
  have hm : t.params = s.params := by rw [h.frame]
  rw [emit_eq sym (by rw [hm]; exact h.room)]
  split
  · exact raise_does ⟨_, _, t, by simp [walkErrors], rfl, h⟩
  · split
    · exact raise_does ⟨_, _, t, by simp [walkErrors], rfl, h⟩
    · rename_i hne
      have hr := h.room
      rw [hm] at hne
      have hem : (t.emitted + 1#32).toNat = t.emitted.toNat + 1 := word_add (k := 1) (by have := s.params.outTop; omega)
      refine Run.Does.pure ⟨⟨by conv_lhs => rw [h.frame], by show (t.emitted + 1#32).toNat ≤ _; omega, ?_⟩, rfl⟩
      obtain ⟨bs, hl, hb⟩ := h.written
      refine ⟨bs ++ [sym], by rw [List.length_append, hl]; exact hem.symm, ?_⟩
      rw [writeBytes_append, ← hb, Nat.zero_add, hl]
      rfl

theorem useBit_does {s t : State} (h : Decoding s t) (b : Bool) {S : Prop} :
    (useBit b t).Does (fun u => Decoding s u ∧ u.bitPos = t.bitPos) (DecodeFault s) S := by
  unfold useBit
  split
  · exact emit_does h _
  · unfold walkBit
    dsimp only
    split
    · exact (emit_does (h.withCur _) _).bind fun u hu => Run.Does.pure ⟨hu.1.withCur _, hu.2⟩
    · exact Run.Does.pure ⟨h.withCur _, rfl⟩

theorem decodeBits_does (k : Nat) {s t : State} (h : Decoding s t) (hk : t.bitPos.toNat + k ≤ s.nbits.toNat) :
    (decodeBits k t).Does (Decoding s) (DecodeFault s)
      (¬ (s.payOff.toNat + ceil8 s.nbits.toNat ≤ s.inLen.toNat ∧ s.inLen.toNat ≤ s.params.inMax)) := by
  induction k generalizing t with
  | zero => exact Run.Does.pure h
  | succ k ih =>
    have hlt : byteOffset t.bitPos.toNat < ceil8 s.nbits.toNat := ceil8_lt (by omega)
    have hw : (t.bitPos + 1#32).toNat = t.bitPos.toNat + 1 := word_add (k := 1) (by have := s.nbits.isLt; omega)
    have hl : t.inLen = s.inLen := by rw [h.frame]
    have hm : t.params = s.params := by rw [h.frame]
    have ho : t.payOff = s.payOff := by rw [h.frame]
    rw [decodeBits, decodeBit]
    refine Run.Does.bind (R := fun u => Decoding s u ∧ u.bitPos = t.bitPos + 1#32) ?_ fun u hu => ?_
    · refine Run.Does.bind (R := fun _ => True) ?_ fun b _ => ?_
      · exact (memRead_does (by rw [hl, hm, ho]; omega)).bind fun b _ => trivial
      · refine (useBit_does h b).bind fun u hu => ?_
        exact Run.Does.pure ⟨hu.1.withBitPos _, by show u.bitPos + 1#32 = _; rw [hu.2]⟩
    · exact ih hu.1 (by rw [hu.2, hw]; omega)

/-- What DECODE has done when it ends, well or by a fault, to the state it began with (44_decoder.md R186). -/
theorem decodePayload_does (s : State) :
    (decodePayload s).Does
      (fun t => Decoding { s with phase := 0x9#4, expected := s.freqSum, draws := t.draws } t)
      (fun t => ∃ e info u, e ∈ walkErrors ∧ t = takeFault e info u ∧
        Decoding { s with phase := 0x9#4, expected := s.freqSum, draws := u.draws } u)
      (¬ (s.payOff.toNat + ceil8 s.nbits.toNat ≤ s.inLen.toNat ∧ s.inLen.toNat ≤ s.params.inMax)) := by
  let a := redrawNodes (setPhase 0x9#4 s)
  have ha : a = { s with phase := 0x9#4, draws := a.draws } := by
    show redrawNodes (setPhase 0x9#4 s) = { s with phase := 0x9#4, draws := (redrawNodes (setPhase 0x9#4 s)).draws }
    unfold redrawNodes
    split <;> rfl
  have hsum : a.freqSum = s.freqSum := by
    have : a.freq = s.freq := by rw [ha]
    unfold State.freqSum State.freqAt
    rw [this]
  let b : State := { a with expected := a.freqSum, emitted := 0#32, cur := a.root, bitPos := 0#32 }
  let s' : State := { s with phase := 0x9#4, expected := s.freqSum, draws := a.draws }
  have hb0 : Decoding s' b := by
    refine ⟨?_, by show (0#32 : Word).toNat ≤ _; simp, [], by show 0 = (0#32 : Word).toNat; simp, ?_⟩
    · show ({ a with expected := a.freqSum, emitted := 0#32, cur := a.root, bitPos := 0#32 } : State) = _
      rw [hsum]
      conv_lhs => rw [ha]
      simp only [s', b]
      conv_rhs => rw [ha]
    · show a.outbuf = s.outbuf
      rw [ha]
  have hd : decodePayload s = (do
      let s ← decodeBits a.nbits.toNat b
      if s.cur ≠ s.root then raise .corruptStream 3#32 s
      else if s.emitted.setWidth 40 ≠ s.expected then raise .corruptStream 4#32 s
      else return s) := rfl
  have hn : a.nbits = s.nbits := by rw [ha]
  have hdraws : ∀ u, Decoding s' u → Decoding { s with phase := 0x9#4, expected := s.freqSum, draws := u.draws } u := fun u hu => by
    have : u.draws = a.draws := by rw [hu.frame]
    rw [this]; exact hu
  rw [hd, hn]
  refine ((decodeBits_does _ hb0 (by show (0#32 : Word).toNat + _ ≤ s.nbits.toNat; simp)).mono (fun u => id) (fun t ht => ?_) id).bind
    fun u hu => ?_
  · obtain ⟨e, info, u, he, ht, hu⟩ := ht
    exact ⟨e, info, u, he, ht, hdraws u hu⟩
  · split
    · exact raise_does ⟨_, _, u, by simp [walkErrors], rfl, hdraws u hu⟩
    · split
      · exact raise_does ⟨_, _, u, by simp [walkErrors], rfl, hdraws u hu⟩
      · exact Run.Does.pure (hdraws u hu)

/-! ## BUILD_TREE and GEN_CODES -/

/-- A call of the queue goes back to PHASE as it was, and the caller's number is then that PHASE or what it was (30_encoding.md R105). -/
def Called (s t : State) : Prop := t.phase = s.phase ∧ (t.callerPhase = s.callerPhase ∨ t.callerPhase = s.phase)

theorem Called.trans {s t u : State} (h : Called s t) (h' : Called t u) : Called s u := by
  obtain ⟨h1, h2⟩ := h
  obtain ⟨h3, h4⟩ := h'
  refine ⟨h3.trans h1, ?_⟩
  rw [h1] at h4
  rcases h4 with h4 | h4
  · rw [h4]; exact h2
  · exact .inr h4

theorem callPush_called (n : NodeIx) (w : Weight) (s : State) : (callPush n w s).Does (Called s) (fun _ => True) True := by
  unfold callPush
  rw [pqPush_eq]
  split
  · trivial
  · split
    · trivial
    · exact ⟨rfl, .inr rfl⟩

theorem callPopMin_called (s : State) : (callPopMin s).Does (Called s) (fun _ => True) True := by
  unfold callPopMin
  rw [pqPopMin_eq]
  split
  · trivial
  · exact ⟨rfl, .inr rfl⟩

theorem addLeaves_called (syms : List Byte) (s : State) : (addLeaves syms s).Does (Called s) (fun _ => True) True := by
  induction syms generalizing s with
  | nil => exact ⟨rfl, .inl rfl⟩
  | cons sym syms ih =>
    refine Run.Does.bind (R := Called s) ?_ fun t ht => (ih t).mono (fun u hu => ht.trans hu) (fun _ => id) id
    unfold addLeaf
    split
    · exact ⟨rfl, .inl rfl⟩
    · exact (callPush_called _ _ _).mono (fun _ h => h) (fun _ => id) id

theorem combine_called (k : Nat) (s : State) : (combine k s).Does (Called s) (fun _ => True) True := by
  induction k generalizing s with
  | zero => exact ⟨rfl, .inl rfl⟩
  | succ k ih =>
    rw [combine]
    split
    · refine Run.Does.bind (R := Called s) ?_ fun t ht => (ih t).mono (fun u hu => ht.trans hu) (fun _ => id) id
      refine (callPopMin_called s).bind fun a ha => (callPopMin_called a).bind fun b hb => ?_
      exact (callPush_called _ _ _).mono (fun u hu => (ha.trans hb).trans hu) (fun _ => id) id
    · exact ⟨rfl, .inl rfl⟩

/-- After BUILD_TREE the caller's number is BUILD_TREE's, or what it was where BUILD_TREE called nothing. -/
theorem buildTree_callerPhase {s t : State} (h : buildTree s = .ok t) : t.callerPhase = s.callerPhase ∨ t.callerPhase = 0x4#4 := by
  have : (buildTree s).Does (fun t => t.callerPhase = s.callerPhase ∨ t.callerPhase = 0x4#4) (fun _ => True) True := by
    unfold buildTree
    refine (addLeaves_called _ _).bind fun a ha => ?_
    split
    · trivial
    · refine (combine_called _ a).bind fun b hb => ?_
      have := (ha.trans hb).2
      refine Run.Does.pure ?_
      unfold setRoot
      split
      · exact this
      · exact this
  rw [h] at this
  exact this
/-- BUILD_TREE from any state: the tree of the present symbols, or EmptyInputError (41_tree_builder.md R140, R142). -/
theorem buildTree_does (s : State) :
    (buildTree s).Does
      (fun t => TreeFrame { setPhase 0x4#4 s with root := t.root } t ∧ Grown s t ∧
        (t.callerPhase = s.callerPhase ∨ t.callerPhase = 0x4#4))
      (fun t => t = takeFault .emptyInput 0#32 { s with phase := 0x4#4, node := [], pq := [] }) False := by
  by_cases h : s.alphabet = []
  · rw [buildTree_empty h]
    exact raise_does rfl
  · obtain ⟨t, h1, h2, h3⟩ := buildTree_grown h
    rw [h1]
    exact Run.Does.pure ⟨h2, h3, buildTree_callerPhase h1⟩

/-- GEN_CODES from any state (42_code_table.md R160; log 12). -/
theorem genCodes_does (s : State) :
    (genCodes s).Does (fun t => t = { s with phase := 0x5#4, code := t.code, draws := t.draws } ∧
      (s.arenaOk = true → t.code = treeCodes s.node s.root ∧ t.draws = s.draws)) (fun _ => False) False := by
  by_cases h : s.arenaOk = true
  · rw [genCodes_ok h]
    exact Run.Does.pure ⟨rfl, fun _ => ⟨rfl, rfl⟩⟩
  · have h' : ¬ (setPhase 0x5#4 s).arenaOk = true := h
    unfold genCodes
    dsimp only
    rw [if_neg h']
    generalize codesOf _ = c
    exact ⟨rfl, fun hs => absurd hs h⟩

end Sys2Proof.Machine
end

