-- ==== Sys2Proof/Laws/Alike.lean ====
section
/-!
SUPPORT. Two blocks with the same input: the same command ends alike in both (46_codec_engine.md R242), whatever their working state.
-/
namespace Sys2Proof.Machine

/-- Two states with the same capacities, the same IN_LEN and the same input bytes below it. -/
structure SameInput (s s' : State) : Prop where
  params : s'.params = s.params
  inLen  : s'.inLen = s.inLen
  bytes  : ∀ a, a < s.inLen.toNat → s'.inByte a = s.inByte a

theorem SameInput.of_inputBytes {s s' : State} (h1 : s'.params = s.params) (h2 : s'.inLen = s.inLen) (h3 : s'.inputBytes = s.inputBytes) :
    SameInput s s' := by
  refine ⟨h1, h2, fun a ha => ?_⟩
  unfold State.inputBytes at h3
  rw [h2] at h3
  exact List.map_inj_left.1 h3 a (List.mem_range.2 ha)

theorem SameInput.inSlice {s s' : State} (h : SameInput s s') {a k : Nat} (hk : a + k ≤ s.inLen.toNat) : s'.inSlice a k = s.inSlice a k := by
  rw [inSlice_eq_map, inSlice_eq_map]
  exact List.map_congr_left fun i hi => h.bytes _ (by have := List.mem_range.1 hi; omega)

theorem SameInput.inputBytes {s s' : State} (h : SameInput s s') : s'.inputBytes = s.inputBytes := by
  unfold State.inputBytes
  rw [h.inLen]
  exact List.map_congr_left fun i hi => h.bytes _ (List.mem_range.1 hi)

/-- Two states at the end of a command that report alike. -/
def SameReport (s s' : State) : Prop :=
  s'.status = s.status ∧ s'.errInfo = s.errInfo ∧ s'.outLen = s.outLen ∧ s'.phase = s.phase

theorem takeFault_sameReport {e : ErrCode} {info : Word} {s s' : State} (h : s'.phase = s.phase) :
    SameReport (takeFault e info s) (takeFault e info s') := ⟨by simp only [takeFault, h], rfl, rfl, rfl⟩

/-- Two runs that both come to their end with `R`, or both end the command with `E`, or both stop. -/
def Both {α : Type} (R : α → α → Prop) (E : State → State → Prop) : Run α → Run α → Prop
  | .ok a, .ok b => R a b
  | .error (.ended s), .error (.ended t) => E s t
  | .error (.fault f), .error (.fault g) => f = g
  | .error (.refused f), .error (.refused g) => f = g
  | _, _ => False

theorem Both.bind {α β : Type} {R : α → α → Prop} {R' : β → β → Prop} {E : State → State → Prop} {x x' : Run α} {f f' : α → Run β}
    (h : Both R E x x') (hf : ∀ a b, R a b → Both R' E (f a) (f' b)) : Both R' E (x >>= f) (x' >>= f') := by
  rcases x with (_ | _ | _) | _ <;> rcases x' with (_ | _ | _) | _ <;>
    first | exact hf _ _ h | exact h | exact False.elim h

theorem Both.outcome {R E : State → State → Prop} {x x' : Run State} {t : State} (h : Both R E x x') (hx : x.outcome = .next t) :
    ∃ t', x'.outcome = .next t' ∧ (R t t' ∨ E t t') := by
  rcases x with (_ | _ | _) | _ <;> rcases x' with (_ | _ | _) | _ <;> simp only [Both] at h <;>
    simp only [Run.outcome, Host.Outcome.next.injEq, reduceCtorEq] at hx ⊢ <;> subst hx
  · exact ⟨_, rfl, .inr h⟩
  · exact ⟨_, rfl, .inl h⟩

theorem SameInput.memRead {s s' : State} (h : SameInput s s') (a : Nat) (E : State → State → Prop) :
    Both (fun b b' => b = b') E (memRead s a) (memRead s' a) := by
  unfold Machine.memRead
  rw [h.inLen, h.params]
  split
  · exact (h.bytes a (by omega)).symm
  · rfl

theorem SameInput.memReadWord {s s' : State} (h : SameInput s s') (a : Nat) (E : State → State → Prop) :
    Both (fun b b' => b = b') E (memReadWord s a) (memReadWord s' a) := by
  unfold Machine.memReadWord
  refine (h.memRead _ E).bind fun b0 c0 h0 => (h.memRead _ E).bind fun b1 c1 h1 => (h.memRead _ E).bind fun b2 c2 h2 =>
    (h.memRead _ E).bind fun b3 c3 h3 => ?_
  subst h0 h1 h2 h3
  rfl

/-! ## DESERIALIZE -/

/-- Two readers of the same input that stand at the same place with the same table. -/
structure SameReading (s s' : State) : Prop where
  input : SameInput s s'
  freq  : s'.freq = s.freq
  inPos : s'.inPos = s.inPos
  phase : s'.phase = s.phase

theorem SameReading.need {s s' : State} (h : SameReading s s') (n : Nat) :
    Both (fun t t' => t = s ∧ t' = s') SameReport (need n s) (need n s') := by
  unfold Machine.need
  rw [h.input.inLen, h.inPos]
  split
  · exact takeFault_sameReport h.phase
  · exact ⟨rfl, rfl⟩

theorem SameReading.readEntries (k : Nat) {s s' : State} (h : SameReading s s') :
    Both SameReading SameReport (readEntries k s) (readEntries k s') := by
  induction k generalizing s s' with
  | zero => exact h
  | succ k ih =>
    rw [Machine.readEntries, Machine.readEntries]
    refine Both.bind (R := SameReading) ?_ fun _ _ => ih
    unfold readEntry
    refine (h.need 5).bind fun t t' ht => ?_
    obtain ⟨rfl, rfl⟩ := ht
    rw [h.inPos]
    refine (h.input.memRead _ _).bind fun b b' hb => (h.input.memReadWord _ _).bind fun f f' hf => ?_
    subst hb hf
    have hfreq : t'.freqAt b = t.freqAt b := by unfold State.freqAt; rw [h.freq]
    rw [hfreq]
    split
    · exact takeFault_sameReport h.phase
    · split
      · exact takeFault_sameReport h.phase
      · exact ⟨⟨h.input.params, h.input.inLen, h.input.bytes⟩, by show setFreq _ _ _ = setFreq _ _ _; rw [h.freq],
          rfl, h.phase⟩

/-- Two states after DESERIALIZE of the same input. -/
structure SameTable (s s' : State) : Prop where
  input  : SameInput s s'
  freq   : s'.freq = s.freq
  nbits  : s'.nbits = s.nbits
  payOff : s'.payOff = s.payOff

theorem SameInput.deserialize {s s' : State} (h : SameInput s s') : Both SameTable SameReport (deserialize s) (deserialize s') := by
  have h0 : SameReading { setPhase 0x8#4 s with inPos := 0#32, freq := zeroFreq } { setPhase 0x8#4 s' with inPos := 0#32, freq := zeroFreq } :=
    ⟨⟨h.params, h.inLen, h.bytes⟩, rfl, rfl, rfl⟩
  unfold Machine.deserialize
  refine (h0.need 4).bind fun t t' ht => ?_
  obtain ⟨rfl, rfl⟩ := ht
  refine (h0.input.memReadWord _ _).bind fun c c' hc => ?_
  subst hc
  dsimp only
  split
  · exact takeFault_sameReport rfl
  · refine Both.bind (SameReading.readEntries _ ⟨⟨h.params, h.inLen, h.bytes⟩, rfl, rfl, rfl⟩) fun t t' ht => ?_
    refine (ht.need 4).bind fun u u' hu => ?_
    obtain ⟨rfl, rfl⟩ := hu
    rw [ht.inPos]
    refine (ht.input.memReadWord _ _).bind fun n n' hn => ?_
    subst hn
    have h1 : SameReading { u with nbits := n, inPos := u.inPos + 4#32 } { u' with nbits := n, inPos := u.inPos + 4#32 } :=
      ⟨⟨ht.input.params, ht.input.inLen, ht.input.bytes⟩, ht.freq, rfl, ht.phase⟩
    refine (h1.need _).bind fun v v' hv => ?_
    obtain ⟨rfl, rfl⟩ := hv
    exact ⟨⟨ht.input.params, ht.input.inLen, ht.input.bytes⟩, ht.freq, rfl, rfl⟩

/-! ## BUILD_TREE and GEN_CODES -/

theorem alphabet_congr {s s' : State} (h : s'.freq = s.freq) : s'.alphabet = s.alphabet := by
  unfold State.alphabet State.present State.freqAt
  rw [h]

/-- Two states with the same table and the same tree, which is one. -/
structure SameTree (s s' : State) : Prop where
  table : SameTable s s'
  node  : s'.node = s.node
  root  : s'.root = s.root
  tree  : s.arenaOk = true

theorem SameTable.buildTree {s s' : State} (h : SameTable s s') : Both SameTree SameReport (buildTree s) (buildTree s') := by
  by_cases hs : s.alphabet = []
  · rw [buildTree_empty hs, buildTree_empty ((alphabet_congr h.freq).trans hs)]
    exact takeFault_sameReport rfl
  · obtain ⟨t, h1, h2, h3⟩ := buildTree_grown hs
    obtain ⟨t', h1', h2', _⟩ := buildTree_grown (s := s') (by rw [alphabet_congr h.freq]; exact hs)
    obtain ⟨hn, hr⟩ := buildTree_unique h.freq h1' h1
    rw [h1, h1']
    refine ⟨⟨⟨?_, ?_, ?_⟩, ?_, ?_, ?_⟩, hn, hr, h3.arenaOk⟩
    · rw [h2.params, h2'.params]; exact h.input.params
    · rw [h2.inLen, h2'.inLen]; exact h.input.inLen
    · intro a ha
      have hi : ∀ {u v : State}, v.inbuf = u.inbuf → v.epoch = u.epoch → v.inByte a = u.inByte a := fun e1 e2 => by
        unfold State.inByte; rw [e1, e2]
      rw [hi h2.inbuf h2.epoch, hi h2'.inbuf h2'.epoch]
      refine h.input.bytes a ?_
      rw [h2.inLen] at ha; exact ha
    · rw [h2.freq, h2'.freq]; exact h.freq
    · rw [h2.nbits, h2'.nbits]; exact h.nbits
    · rw [h2.payOff, h2'.payOff]; exact h.payOff

theorem arenaOk_congr {s s' : State} (h1 : s'.node = s.node) (h2 : s'.root = s.root) : s'.arenaOk = s.arenaOk := by
  unfold State.arenaOk State.nodeCount
  rw [h1, h2]

theorem SameTree.genCodes {s s' : State} (h : SameTree s s') : Both SameTree SameReport (genCodes s) (genCodes s') := by
  rw [genCodes_ok h.tree, genCodes_ok ((arenaOk_congr h.node h.root).trans h.tree)]
  exact ⟨⟨⟨h.table.input.params, h.table.input.inLen, h.table.input.bytes⟩, h.table.freq, h.table.nbits, h.table.payOff⟩, h.node, h.root,
    h.tree⟩

/-! ## DECODE -/

/-- In an arena that is a tree the walk of any bits is defined (44_decoder.md R187, R190). -/
theorem walkBits_defined {nodes : List Node} {root : NodeIx} (hr : root.toNat < nodes.length)
    (hb : ∀ i n, nodes[i]? = some n → childrenBelow i n = true) (bs : Bits) (cur : NodeIx)
    (hc : ∀ w l r, nodes[root.toNat]? = some (.internal w l r) → ∃ w' l' r', nodes[cur.toNat]? = some (.internal w' l' r')) :
    ∃ out c, walkBits nodes root cur bs = some (out, c) := by
  induction bs generalizing cur with
  | nil => exact ⟨[], cur, rfl⟩
  | cons b bs ih =>
    obtain ⟨rn, hrn⟩ : ∃ rn, nodes[root.toNat]? = some rn := ⟨_, List.getElem?_eq_getElem hr⟩
    cases rn with
    | leaf sym w =>
      obtain ⟨out, c, h⟩ := ih cur hc
      refine ⟨sym :: out, c, ?_⟩
      rw [walkBits, hrn]
      dsimp only
      rw [h]; rfl
    | internal w l r =>
      obtain ⟨w', l', r', hcur⟩ := hc _ _ _ hrn
      have hbelow := hb _ _ hcur
      simp only [childrenBelow, Bool.and_eq_true, decide_eq_true_eq] at hbelow
      have hcl : cur.toNat < nodes.length := (List.getElem?_eq_some_iff.1 hcur).1
      have hch : (if b then r' else l').toNat < nodes.length := by cases b <;> simp <;> omega
      obtain ⟨cn, hcn⟩ : ∃ cn, nodes[(if b then r' else l').toNat]? = some cn := ⟨_, List.getElem?_eq_getElem hch⟩
      rw [walkBits, hrn]
      dsimp only
      rw [hcur]
      dsimp only
      rw [hcn]
      cases cn with
      | leaf sym w2 =>
        obtain ⟨out, c, h⟩ := ih root fun _ _ _ hh => ⟨_, _, _, hh⟩
        exact ⟨sym :: out, c, by dsimp only; rw [h]; rfl⟩
      | internal w2 l2 r2 => exact ih _ fun _ _ _ _ => ⟨_, _, _, hcn⟩

/-- Two decoders that have written the same bytes. -/
def SameOutput (s s' : State) : Prop :=
  s'.emitted = s.emitted ∧ ∀ k, k < s.emitted.toNat → Memory.read? s'.outbuf k = Memory.read? s.outbuf k

theorem freqSum_congr {s s' : State} (h : s'.freq = s.freq) : s'.freqSum = s.freqSum := by
  unfold State.freqSum State.freqAt
  rw [h]

theorem SameTree.decodePayload {s s' : State} (h : SameTree s s') (h2 : s.inLen.toNat ≤ s.params.inMax)
    (hp : s.payOff.toNat + ceil8 s.nbits.toNat ≤ s.inLen.toNat) :
    Both SameOutput SameReport (decodePayload s) (decodePayload s') := by
  obtain ⟨hr, hb⟩ := arenaOk_iff.1 h.tree
  obtain ⟨out, c, hw⟩ := walkBits_defined hr hb s.payloadBits s.root fun _ _ _ hh => ⟨_, _, _, hh⟩
  have hbits : s'.payloadBits = s.payloadBits := by
    unfold State.payloadBits
    rw [h.table.nbits, h.table.payOff]
    refine List.map_congr_left fun i hi => ?_
    have := ceil8_lt (List.mem_range.1 hi)
    rw [h.table.input.bytes _ (by omega)]
  have hl := h.table.input.inLen
  have hm := h.table.input.params
  have hs := decodePayload_spec h2 h.tree hp hw
  have hs' := decodePayload_spec (s := s') (out := out) (c := c) (by rw [hl, hm]; exact h2) ((arenaOk_congr h.node h.root).trans h.tree)
    (by rw [h.table.payOff, h.table.nbits, hl]; exact hp) (by rw [h.node, h.root, hbits]; exact hw)
  rw [freqSum_congr h.table.freq, hm, h.root] at hs'
  obtain ⟨t, ht, hs⟩ := hs
  obtain ⟨t', ht', hs'⟩ := hs'
  have hph : t'.phase = t.phase := ht'.trans ht.symm
  split at hs
  · rename_i hc1
    rw [if_pos hc1] at hs'
    rw [hs, hs']; exact takeFault_sameReport hph
  · rename_i hc1
    rw [if_neg hc1] at hs'
    split at hs
    · rename_i hc2
      rw [if_pos hc2] at hs'
      rw [hs, hs']; exact takeFault_sameReport hph
    · rename_i hc2
      rw [if_neg hc2] at hs'
      split at hs
      · rename_i hc3
        rw [if_pos hc3] at hs'
        rw [hs, hs']; exact takeFault_sameReport hph
      · rename_i hc3
        rw [if_neg hc3] at hs'
        split at hs
        · rename_i hc4
          rw [if_pos hc4] at hs'
          rw [hs, hs']; exact takeFault_sameReport hph
        · rename_i hc4
          rw [if_neg hc4] at hs'
          rw [hs, hs']
          refine ⟨rfl, fun k hk => ?_⟩
          have hk' : k < (BitVec.ofNat 32 out.length).toNat := hk
          have hk2 : k < out.length := by rw [BitVec.toNat_ofNat] at hk'; exact Nat.lt_of_lt_of_le hk' (Nat.mod_le _ _)
          have e := read?_writeBytes_inside out s.outbuf 0 k hk2
          have e' := read?_writeBytes_inside out s'.outbuf 0 k hk2
          rw [Nat.zero_add] at e e'
          exact e'.trans e.symm

end Sys2Proof.Machine
end

