-- ==== Sys2Proof/Laws/PerInstr.lean ====
section
/-!
SUPPORT. One fact for each instruction: its encoding decodes to it (30_encoding.md R92, R105).
-/
namespace Sys2Proof.Laws.RoundTrip

/-- The encoding of `i` decodes to `i`. -/
def Statement (i : Instr) : Prop := Sys2Proof.decode (Sys2Proof.encode i) = .ok i

theorem compress : Statement .compress := rfl
theorem decompress : Statement .decompress := rfl
theorem freqScan : Statement .freqScan := rfl
theorem pqPush : Statement .pqPush := rfl
theorem pqPopMin : Statement .pqPopMin := rfl
theorem buildTree : Statement .buildTree := rfl
theorem genCodes : Statement .genCodes := rfl
theorem encode : Statement .encode := rfl
theorem serialize : Statement .serialize := rfl
theorem deserialize : Statement .deserialize := rfl
theorem decode : Statement .decode := rfl

end Sys2Proof.Laws.RoundTrip
end

