-- ==== Sys2Proof/Laws/Schedule.lean ====
section
/-!
SUPPORT. The schedule is not read: a micro-operation does the same whatever stands in the fields of State that hold the schedule's
free choices (46_codec_engine.md R240; log 6).
-/
namespace Sys2Proof.Machine

/-- The schedule's fields, replaced. -/
structure Sched where
  slots   : Nat
  bySteps : Bool
  draws   : Nat

/-- A state with the schedule's fields replaced. -/
def State.resched (s : State) (x : Sched) : State := { s with slots := x.slots, bySteps := x.bySteps, draws := x.draws }

/-- A run with the schedule's fields of its last state replaced. -/
def Run.resched (x : Sched) : Run State → Run State
  | .ok s => .ok (s.resched x)
  | .error (.ended s) => .error (.ended (s.resched x))
  | .error (.fault f) => .error (.fault f)
  | .error (.refused f) => .error (.refused f)

theorem Run.resched_bind {x : Sched} {r r' : Run State} {f f' : State → Run State} (h : r' = r.resched x)
    (hf : ∀ a, r = .ok a → f' (a.resched x) = (f a).resched x) : (r' >>= f') = (r >>= f).resched x := by
  subst h
  rcases r with (_ | _ | _) | a
  · rfl
  · rfl
  · rfl
  · exact hf a rfl

/-- A run that reads a value and then changes the state. -/
theorem Run.resched_read {α : Type} {x : Sched} {r : Run α} {f f' : α → Run State} (hr : ∀ s, r ≠ .error (.ended s))
    (hf : ∀ a, f' a = (f a).resched x) : (r >>= f') = (r >>= f).resched x := by
  rcases r with (s | _ | _) | a
  · exact absurd rfl (hr s)
  · rfl
  · rfl
  · exact hf a

theorem memRead_not_ended (s : State) (a : Nat) (t : State) : memRead s a ≠ .error (.ended t) := by
  unfold memRead
  split <;> simp

theorem memReadWord_not_ended (s : State) (a : Nat) (t : State) : memReadWord s a ≠ .error (.ended t) := by
  intro h
  obtain ⟨k, hk⟩ := memReadWord_eq_error h
  cases hk

theorem raise_resched (e : ErrCode) (info : Word) (s : State) (x : Sched) :
    (raise e info (s.resched x) : Run State) = Run.resched x (raise e info s) := rfl

theorem scanBytes_resched (k : Nat) (s : State) (x : Sched) : scanBytes k (s.resched x) = (scanBytes k s).resched x := by
  induction k generalizing s with
  | zero => rfl
  | succ k ih => exact Run.resched_bind (Run.resched_read (memRead_not_ended _ _) fun _ => rfl) fun a _ => ih a

theorem freqScan_resched (s : State) (x : Sched) : freqScan (s.resched x) = (freqScan s).resched x :=
  scanBytes_resched s.inLen.toNat { setPhase 0x1#4 s with freq := zeroFreq, inPos := 0#32 } x

theorem encodeBytes_resched (k : Nat) (s : State) (x : Sched) : encodeBytes k (s.resched x) = (encodeBytes k s).resched x := by
  induction k generalizing s with
  | zero => rfl
  | succ k ih =>
    refine Run.resched_bind (Run.resched_read (memRead_not_ended _ _) fun b => ?_) fun a _ => ih a
    show (if s.codeAt b = [] then _ else _) = Run.resched x (if s.codeAt b = [] then _ else _)
    split <;> rfl

theorem encodeInput_resched (s : State) (x : Sched) : encodeInput (s.resched x) = (encodeInput s).resched x :=
  Run.resched_bind (encodeBytes_resched s.inLen.toNat { setPhase 0x6#4 s with bits := [], inPos := 0#32 } x) fun _ _ => rfl

theorem serialize_resched (s : State) (x : Sched) : serialize (s.resched x) = (serialize s).resched x := by
  by_cases h : s.containerSize ≤ s.params.outMax
  · rw [serialize_ok h, serialize_ok (s := s.resched x) h]; rfl
  · have h' : s.params.outMax < s.containerSize := by omega
    rw [serialize_full h', serialize_full (s := s.resched x) h']; rfl

theorem need_resched (n : Nat) (s : State) (x : Sched) : need n (s.resched x) = (need n s).resched x := by
  show (if s.inLen.toNat < s.inPos.toNat + n then _ else _) = Run.resched x (if s.inLen.toNat < s.inPos.toNat + n then _ else _)
  split <;> rfl

theorem readEntry_resched (s : State) (x : Sched) : readEntry (s.resched x) = (readEntry s).resched x := by
  refine Run.resched_bind (need_resched 5 s x) fun a _ => Run.resched_read (memRead_not_ended _ _) fun b =>
    Run.resched_read (memReadWord_not_ended _ _) fun f => ?_
  show (if a.freqAt b ≠ 0#32 then _ else if f = 0#32 then _ else _) =
    Run.resched x (if a.freqAt b ≠ 0#32 then _ else if f = 0#32 then _ else _)
  split
  · rfl
  · split <;> rfl

theorem readEntries_resched (k : Nat) (s : State) (x : Sched) : readEntries k (s.resched x) = (readEntries k s).resched x := by
  induction k generalizing s with
  | zero => rfl
  | succ k ih => exact Run.resched_bind (readEntry_resched s x) fun a _ => ih a

theorem deserialize_resched (s : State) (x : Sched) : deserialize (s.resched x) = (deserialize s).resched x := by
  refine Run.resched_bind (need_resched 4 { setPhase 0x8#4 s with inPos := 0#32, freq := zeroFreq } x) fun a _ =>
    Run.resched_read (memReadWord_not_ended _ _) fun count => ?_
  dsimp only
  split
  · rfl
  · refine Run.resched_bind (readEntries_resched count.toNat { a with ecount := count, inPos := a.inPos + 4#32 } x) fun b _ =>
      Run.resched_bind (need_resched 4 b x) fun c _ => Run.resched_read (memReadWord_not_ended _ _) fun n => ?_
    exact Run.resched_bind (need_resched (ceil8 n.toNat) { c with nbits := n, inPos := c.inPos + 4#32 } x) fun d _ => rfl

theorem pqPush_resched (s : State) (x : Sched) : pqPush (s.resched x) = (pqPush s).resched x := by
  rw [pqPush_eq, pqPush_eq]
  show (if s.pushNode ∈ s.pq.map Entry.node then _ else if 256 ≤ s.pqCount then _ else _) =
    Run.resched x (if s.pushNode ∈ s.pq.map Entry.node then _ else if 256 ≤ s.pqCount then _ else _)
  split
  · rfl
  · split <;> rfl

theorem pqPopMin_resched (s : State) (x : Sched) : pqPopMin (s.resched x) = (pqPopMin s).resched x := by
  rw [pqPopMin_eq, pqPopMin_eq, show (s.resched x).pq = s.pq from rfl]
  cases leastEntry s.pq <;> rfl

theorem callPush_resched (n : NodeIx) (w : Weight) (s : State) (x : Sched) : callPush n w (s.resched x) = (callPush n w s).resched x :=
  pqPush_resched { s with pushNode := n, pushWeight := w, callerPhase := s.phase } x

theorem callPopMin_resched (s : State) (x : Sched) : callPopMin (s.resched x) = (callPopMin s).resched x :=
  pqPopMin_resched { s with callerPhase := s.phase } x

theorem addLeaves_resched (syms : List Byte) (s : State) (x : Sched) : addLeaves syms (s.resched x) = (addLeaves syms s).resched x := by
  induction syms generalizing s with
  | nil => rfl
  | cons sym syms ih =>
    refine Run.resched_bind ?_ fun a _ => ih a
    show (if s.freqAt sym = 0#32 then _ else _) = Run.resched x (if s.freqAt sym = 0#32 then _ else _)
    split
    · rfl
    · exact callPush_resched _ _ { s with node := s.node ++ [.leaf sym ((s.freqAt sym).setWidth 40)] } x

theorem combine_resched (k : Nat) (s : State) (x : Sched) : combine k (s.resched x) = (combine k s).resched x := by
  induction k generalizing s with
  | zero => rfl
  | succ k ih =>
    show (if 1 < s.pqCount then _ else _) = Run.resched x (if 1 < s.pqCount then _ else _)
    split
    · refine Run.resched_bind ?_ fun a _ => ih a
      refine Run.resched_bind (callPopMin_resched s x) fun a _ => Run.resched_bind (callPopMin_resched a x) fun b _ => ?_
      exact callPush_resched _ _ { b with node := b.node ++ [.internal (a.popWeight + b.popWeight) a.popNode b.popNode] } x
    · rfl

theorem buildTree_resched (s : State) (x : Sched) : buildTree (s.resched x) = (buildTree s).resched x := by
  refine Run.resched_bind (addLeaves_resched symbols { setPhase 0x4#4 s with node := [], pq := [] } x) fun a _ => ?_
  show (if a.nodeCount = 0 then _ else _) = Run.resched x (if a.nodeCount = 0 then _ else _)
  split
  · rfl
  · refine Run.resched_bind (combine_resched a.pqCount a x) fun b _ => ?_
    show (Except.ok (setRoot (b.resched x)) : Run State) = .ok ((setRoot b).resched x)
    unfold setRoot
    rw [show (b.resched x).pq = b.pq from rfl]
    cases b.pq <;> rfl

theorem genCodes_resched {s : State} (h : s.arenaOk = true) (x : Sched) : genCodes (s.resched x) = (genCodes s).resched x := by
  rw [genCodes_ok h, genCodes_ok (s := s.resched x) h]
  rfl

/-! ## DECODE: in a tree, no free value is read -/

/-- A walk in a tree stands on an Internal node, or the root is a leaf (44_decoder.md R187, R190). -/
structure Walking (s : State) : Prop where
  below : ∀ i n, s.node[i]? = some n → childrenBelow i n = true
  root  : s.root.toNat < s.node.length
  cur   : ∀ w l r, s.node[s.root.toNat]? = some (.internal w l r) → ∃ w' l' r', s.node[s.cur.toNat]? = some (.internal w' l' r')

theorem emit_frame {sym : Byte} {s t : State} (h : emit sym s = .ok t) : t.node = s.node ∧ t.root = s.root ∧ t.cur = s.cur := by
  unfold emit at h
  split at h
  · cases h
  · split at h
    · cases h
    · unfold memWrite at h
      split at h
      · cases h; exact ⟨rfl, rfl, rfl⟩
      · cases h

theorem memWrite_resched (a : Nat) (bs : List Byte) (s : State) (x : Sched) :
    memWrite a bs (s.resched x) = (memWrite a bs s).resched x := by
  show (if a + bs.length ≤ s.params.outMax then _ else _) = Run.resched x (if a + bs.length ≤ s.params.outMax then _ else _)
  split <;> rfl

theorem emit_resched (sym : Byte) (s : State) (x : Sched) : emit sym (s.resched x) = (emit sym s).resched x := by
  show (if s.emitted.setWidth 40 = s.expected then _ else if s.emitted.toNat = s.params.outMax then _ else _) =
    Run.resched x (if s.emitted.setWidth 40 = s.expected then _ else if s.emitted.toNat = s.params.outMax then _ else _)
  split
  · rfl
  · split
    · rfl
    · exact Run.resched_bind (memWrite_resched s.emitted.toNat [sym] s x) fun a _ => rfl

theorem nodeAt_some {s : State} {i : NodeIx} {n : Node} (h : s.node[i.toNat]? = some n) : s.nodeAt i = n := by
  unfold State.nodeAt
  rw [h]; rfl

theorem useBit_walking {s : State} (hw : Walking s) (b : Bool) (x : Sched) :
    useBit b (s.resched x) = (useBit b s).resched x ∧ ∀ t, useBit b s = .ok t → Walking t := by
  obtain ⟨rn, hrn⟩ : ∃ rn, s.node[s.root.toNat]? = some rn := ⟨_, List.getElem?_eq_getElem hw.root⟩
  have h1 : s.nodeAt s.root = rn := nodeAt_some hrn
  have h2 : (s.resched x).nodeAt (s.resched x).root = rn := nodeAt_some (s := s.resched x) hrn
  unfold useBit
  rw [h1, h2]
  cases rn with
  | leaf sym w =>
    refine ⟨emit_resched sym s x, fun t ht => ?_⟩
    obtain ⟨e1, e2, e3⟩ := emit_frame ht
    exact ⟨by rw [e1]; exact hw.below, by rw [e1, e2]; exact hw.root, by rw [e1, e2, e3]; exact hw.cur⟩
  | internal w l r =>
    obtain ⟨w', l', r', hcur⟩ := hw.cur _ _ _ hrn
    have hbelow := hw.below _ _ hcur
    simp only [childrenBelow, Bool.and_eq_true, decide_eq_true_eq] at hbelow
    have hcl : s.cur.toNat < s.node.length := (List.getElem?_eq_some_iff.1 hcur).1
    have hch : (if b then r' else l').toNat < s.node.length := by cases b <;> simp <;> omega
    obtain ⟨cn, hcn⟩ : ∃ cn, s.node[(if b then r' else l').toNat]? = some cn := ⟨_, List.getElem?_eq_getElem hch⟩
    have e1 : s.childOf s.cur b = if b then r' else l' := by
      unfold State.childOf; rw [nodeAt_some hcur]
    have e2 : (s.resched x).childOf (s.resched x).cur b = if b then r' else l' := by
      have : (s.resched x).nodeAt (s.resched x).cur = .internal w' l' r' := nodeAt_some (s := s.resched x) hcur
      unfold State.childOf; rw [this]
    dsimp only
    unfold walkBit
    rw [e1, e2]
    generalize (if b then r' else l') = c at hcn
    have f1 : State.nodeAt { s with cur := c } c = cn := nodeAt_some (s := { s with cur := c }) hcn
    have f2 : State.nodeAt { s.resched x with cur := c } c = cn := nodeAt_some (s := { s.resched x with cur := c }) hcn
    dsimp only
    rw [f1, f2]
    cases cn with
    | leaf sym w2 =>
      refine ⟨Run.resched_bind (emit_resched sym { s with cur := c } x) fun a _ => rfl, fun t ht => ?_⟩
      obtain ⟨a, ha, ht⟩ := run_bind_eq_ok.1 ht
      obtain ⟨g1, g2, _⟩ := emit_frame ha
      cases ht
      refine ⟨by show ∀ i n, a.node[i]? = some n → _; rw [g1]; exact hw.below, by show a.root.toNat < a.node.length; rw [g1, g2]; exact hw.root,
        fun _ _ _ hh => ⟨_, _, _, hh⟩⟩
    | internal w2 l2 r2 =>
      refine ⟨rfl, fun t ht => ?_⟩
      cases ht
      exact ⟨hw.below, hw.root, fun _ _ _ _ => ⟨_, _, _, hcn⟩⟩

theorem decodeBits_resched (k : Nat) {s : State} (hw : Walking s) (x : Sched) :
    decodeBits k (s.resched x) = (decodeBits k s).resched x := by
  induction k generalizing s with
  | zero => rfl
  | succ k ih =>
    refine Run.resched_bind (r := decodeBit s) ?_ fun a ha => ih ?_
    · refine Run.resched_read (fun t => ?_) fun b => ?_
      · unfold getBit
        intro h
        rcases run_bind_eq_error.1 h with h | ⟨_, _, h⟩
        · exact memRead_not_ended _ _ _ h
        · cases h
      · exact Run.resched_bind (useBit_walking hw b x).1 fun a _ => rfl
    · obtain ⟨b, _, ha⟩ := run_bind_eq_ok.1 ha
      obtain ⟨c, hc, ha⟩ := run_bind_eq_ok.1 ha
      cases ha
      have := (useBit_walking hw b x).2 c hc
      exact ⟨this.below, this.root, this.cur⟩

theorem decodePayload_resched {s : State} (h : s.arenaOk = true) (x : Sched) :
    decodePayload (s.resched x) = (decodePayload s).resched x := by
  obtain ⟨hr, hb⟩ := arenaOk_iff.1 h
  rw [decodePayload_eq h, decodePayload_eq (s := s.resched x) h, freqSum_congr (s := s) (s' := s.resched x) rfl]
  generalize s.freqSum = total
  refine Run.resched_bind (decodeBits_resched s.nbits.toNat
    (s := { s with phase := 0x9#4, expected := total, emitted := 0#32, cur := s.root, bitPos := 0#32 })
    ⟨hb, hr, fun _ _ _ hh => ⟨_, _, _, hh⟩⟩ x) fun a _ => ?_
  show (if a.cur ≠ a.root then _ else if a.emitted.setWidth 40 ≠ a.expected then _ else _) =
    Run.resched x (if a.cur ≠ a.root then _ else if a.emitted.setWidth 40 ≠ a.expected then _ else _)
  split
  · rfl
  · split <;> rfl

end Sys2Proof.Machine
end

