-- ==== Sys2Proof/Tests/Slice0.lean ====
section
/-!
SUPPORT. Tests: the checks of WellFormed, words written out from the encodings, vectors of spec/95_test_vectors.md (named at each
test), and for every statement with hypotheses a concrete state that meets them all.
-/
namespace Sys2Proof.Tests
open Sys2Proof Sys2Proof.Machine

/-! ## Helpers -/

/-- Does an outcome answer a next state with the property `p`? -/
def nextIf (p : State → Bool) : Host.Outcome State Fault Refusal → Bool
  | .next t => p t
  | .fault _ => false
  | .refused _ => false

theorem nextIf_spec {p : State → Bool} {o : Host.Outcome State Fault Refusal} (h : nextIf p o = true) : ∃ t, o = .next t ∧ p t = true := by
  cases o with
  | next t => exact ⟨t, rfl, h⟩
  | fault _ => cases h
  | refused _ => cases h

/-- Capacities of 64 bytes each. -/
def small : Params := { inMax := 64, outMax := 64, inMin := by decide, inTop := by decide, outMin := by decide, outTop := by decide }

/-- After reset, with those capacities. -/
def base : State := { State.reset with params := small }

/-- `bs` in INBUF, and IN_LEN their number. -/
def loaded (bs : List Byte) : State := { base with inbuf := Memory.writeBytes [] 0 bs, inLen := BitVec.ofNat 32 bs.length }

/-- The same in a running block, at micro-operation `p`. -/
def running (p : PhaseNum) (bs : List Byte) : State := { loaded bs with status := Status.running, phase := p }

/-- A frequency table. -/
def freqOf (es : List (Byte × Word)) : Vector Word 256 := tableWith zeroFreq es

/-- A code table. -/
def codeOf (cs : List (Byte × Bits)) : Vector Bits 256 := cs.foldl (fun f e => setCode f e.1 e.2) noCodes

/-- The arena of vector V4: a is left, b is right. -/
def twoLeaves : List Node := [.leaf 0x61#8 1#40, .leaf 0x62#8 1#40, .internal 2#40 0#9 1#9]

/-- The container of vector V4 for "ab". -/
def containerV4 : List Byte :=
  [0x00#8, 0x00#8, 0x00#8, 0x02#8, 0x61#8, 0x00#8, 0x00#8, 0x00#8, 0x01#8, 0x62#8, 0x00#8, 0x00#8, 0x00#8, 0x01#8,
   0x00#8, 0x00#8, 0x00#8, 0x02#8, 0x40#8]

/-- Does OUTBUF hold `bs` from 0? -/
def outIs (bs : List Byte) (t : State) : Bool := (List.range bs.length).map (Memory.read? t.outbuf) == bs.map some

/-! ## WellFormed refuses the ill-formed -/

theorem test_command_is_no_micro_operation : Instr.wellFormed .phase .compress = false := by decide
theorem test_micro_operation_is_no_command : Instr.wellFormed .cmd .freqScan = false := by decide
theorem test_narrow_register_access : (Access.regRead 8 0x04).wellFormed small = false := by decide
theorem test_misaligned_register_access : (Access.regWrite 32 0x06 1#32).wellFormed small = false := by decide
theorem test_register_access_beyond : (Access.regRead 32 0x20).wellFormed small = false := by decide
theorem test_input_write_beyond : (Access.inWrite 64 0#8).wellFormed small = false := by decide
theorem test_input_read_beyond : (Access.inRead 64).wellFormed small = false := by decide
theorem test_output_read_beyond : (Access.outRead 64).wellFormed small = false := by decide
theorem test_last_register_access : (Access.regWrite 32 0x1C 0#32).wellFormed small = true := by decide

/-! ## Decoding: words written out from 30_encoding.md R92 and R105 -/

theorem test_decode_compress : decode [0x01#8, 0x00#8, 0x00#8, 0x00#8] = .ok .compress := by decide
theorem test_decode_decompress : decode [0x02#8, 0x00#8, 0x00#8, 0x00#8] = .ok .decompress := by decide
theorem test_decode_freqScan : decode [0b00000001#8] = .ok .freqScan := by decide
theorem test_decode_pqPush : decode [0b00000010#8] = .ok .pqPush := by decide
theorem test_decode_pqPopMin : decode [0b00000011#8] = .ok .pqPopMin := by decide
theorem test_decode_buildTree : decode [0b00000100#8] = .ok .buildTree := by decide
theorem test_decode_genCodes : decode [0b00000101#8] = .ok .genCodes := by decide
theorem test_decode_encode : decode [0b00000110#8] = .ok .encode := by decide
theorem test_decode_serialize : decode [0b00000111#8] = .ok .serialize := by decide
theorem test_decode_deserialize : decode [0b00001000#8] = .ok .deserialize := by decide
theorem test_decode_decode : decode [0b00001001#8] = .ok .decode := by decide
theorem test_decode_rejects :
    decode [0b00001010#8] = .error (.reservedNumber 0xA#4) ∧ decode [0x00#8] = .error .noOperation ∧
    decode [0x01#8, 0x01#8, 0x00#8, 0x00#8] = .error (.illegalCommand 0x00000101#32) ∧
    decode [0x11#8] = .error (.wideNumber 0x11#8) ∧ decode [] = .error (.length 0) := by decide
theorem test_decode_table_words : decodeTableWord 4 0b0111 = some .serialize ∧ decodeTableWord 32 0x101 = none := by decide

/-! ## The micro-operations, on vectors of spec/95_test_vectors.md -/

/-- V6: "aab" counts a 2, b 1. -/
theorem test_freqScan_counts :
    nextIf (fun t => t.freqAt 0x61#8 == 2#32 && t.freqAt 0x62#8 == 1#32 && t.freqAt 0x63#8 == 0#32 && t.phase == 0x1#4)
      (exec .freqScan (running 0x1#4 [0x61#8, 0x61#8, 0x62#8])) = true := by decide +kernel

/-- P2 -/
theorem test_pqPush_inserts :
    nextIf (fun t => t.pq == [⟨3#40, 1#9⟩, ⟨3#40, 4#9⟩, ⟨4#40, 0#9⟩] && t.pqCount == 3 && t.phase == 0x4#4)
      (exec .pqPush { running 0x2#4 [] with
        pq := [⟨3#40, 1#9⟩, ⟨4#40, 0#9⟩], pushNode := 4#9, pushWeight := 3#40, callerPhase := 0x4#4 }) = true := by decide +kernel

/-- P3: a tie goes to the smaller index. -/
theorem test_pqPopMin_tie :
    nextIf (fun t => t.popWeight == 3#40 && t.popNode == 1#9 && t.pq == [⟨3#40, 4#9⟩, ⟨4#40, 0#9⟩])
      (exec .pqPopMin { running 0x3#4 [] with pq := [⟨3#40, 1#9⟩, ⟨3#40, 4#9⟩, ⟨4#40, 0#9⟩] }) = true := by decide +kernel

/-- P8: weights are compared as 40-bit unsigned values. -/
theorem test_pqPopMin_wide_weights :
    nextIf (fun t => t.popWeight == 0x00FFFFFFFF#40 && t.popNode == 0#9)
      (exec .pqPopMin { running 0x3#4 [] with pq := [⟨0x00FFFFFFFF#40, 0#9⟩, ⟨0x0100000000#40, 1#9⟩] }) = true := by decide +kernel

/-- The table of V1. -/
def fourPresent : State :=
  { running 0x4#4 [] with freq := freqOf [(0x61#8, 4#32), (0x62#8, 3#32), (0x63#8, 2#32), (0x64#8, 1#32)] }

/-- The arena of V1. -/
def arenaV1 : List Node :=
  [.leaf 0x61#8 4#40, .leaf 0x62#8 3#40, .leaf 0x63#8 2#40, .leaf 0x64#8 1#40, .internal 3#40 3#9 2#9, .internal 6#40 1#9 4#9,
   .internal 10#40 0#9 5#9]

/-- BT5 (V1): a leaf before an internal node of the same weight. -/
theorem test_buildTree_V1 :
    nextIf (fun t => t.root == 6#9 && t.node == arenaV1) (exec .buildTree fourPresent) = true := by decide +kernel

theorem test_treeOf_V1 : treeOf fourPresent.freq = (arenaV1, 6#9) := by decide +kernel

/-- BT6: the 40-bit sum does not wrap. -/
theorem test_buildTree_wide_sum :
    nextIf (fun t => t.root == 2#9 && t.node[2]? == some (.internal 0x1FFFFFFFE#40 0#9 1#9))
      (exec .buildTree { running 0x4#4 [] with freq := freqOf [(0x00#8, 0xFFFFFFFF#32), (0x01#8, 0xFFFFFFFF#32)] }) = true := by
  decide +kernel

/-- GC3 (V1) -/
theorem test_genCodes_V1 :
    nextIf (fun t => t.codeAt 0x61#8 == [false] && t.codeAt 0x62#8 == [true, false] && t.codeAt 0x63#8 == [true, true, true] &&
        t.codeAt 0x64#8 == [true, true, false] && t.codeAt 0x65#8 == [])
      (exec .genCodes { running 0x5#4 [] with root := 6#9, node := arenaV1 }) = true := by decide +kernel

/-- GC1: the root is a leaf. -/
theorem test_genCodes_root_leaf :
    nextIf (fun t => t.codeAt 0x41#8 == [false] && t.codeAt 0x42#8 == [])
      (exec .genCodes { running 0x5#4 [] with root := 0#9, node := [.leaf 0x41#8 1000#40] }) = true := by decide +kernel

/-- V7: "abc" gives 10110, payload B0. -/
theorem test_encode_V7 :
    nextIf (fun t => t.bits == [true, false, true, true, false] && t.nbits == 5#32 && t.payload == [0xB0#8])
      (exec .encode { running 0x6#4 [0x61#8, 0x62#8, 0x63#8] with
        code := codeOf [(0x61#8, [true, false]), (0x62#8, [true, true]), (0x63#8, [false])] }) = true := by decide +kernel

/-- K1c: the ninth bit is bit 7 of the second byte. -/
theorem test_packBits_ninth_bit :
    packBits [false, false, false, false, false, false, false, false, true] = [0x00#8, 0x80#8] := by decide +kernel

/-- The block of vector V4 before SERIALIZE, with OUT_MAX given. -/
def serializing (p : Params) : State :=
  { running 0x7#4 [] with params := p, freq := freqOf [(0x61#8, 1#32), (0x62#8, 1#32)], bits := [false, true], nbits := 2#32 }

theorem serializing_alphabet : (serializing small).alphabet = [0x61#8, 0x62#8] := by decide +kernel

theorem serializing_alphabet' (p : Params) : (serializing p).alphabet = [0x61#8, 0x62#8] := serializing_alphabet

theorem serializing_containerBytes (p : Params) : (serializing p).containerBytes = containerV4 := by
  show (serializing small).containerBytes = containerV4
  rw [State.containerBytes, State.entries, serializing_alphabet]
  decide +kernel

theorem serializing_containerSize (p : Params) : (serializing p).containerSize = 19 := by
  show (serializing small).containerSize = 19
  rw [State.containerSize, serializing_alphabet]
  decide +kernel

theorem serializing_ok {p : Params} (h : 19 ≤ p.outMax) :
    ∃ t, exec .serialize (serializing p) = .next t ∧ t.outPos = 19#32 ∧ t.outbuf = Memory.writeBytes [] 0 containerV4 := by
  have hs := serialize_ok (s := serializing p) (by rw [serializing_containerSize]; exact h)
  rw [serializing_containerBytes, show (serializing p).outbuf = [] from rfl] at hs
  exact ⟨_, congrArg Run.outcome hs, Eq.refl _, Eq.refl _⟩

/-- V4: the container of "ab" (test_compress_V4 below evaluates it without a lemma). -/
theorem test_serialize_V4 :
    ∃ t, exec .serialize (serializing small) = .next t ∧ t.outPos = 19#32 ∧ t.outbuf = Memory.writeBytes [] 0 containerV4 :=
  serializing_ok (by decide)

/-- T12: the container of V4 with bytes after the payload. -/
theorem test_deserialize_T12 :
    nextIf (fun t => t.freqAt 0x61#8 == 1#32 && t.freqAt 0x62#8 == 1#32 && t.nbits == 2#32 && t.payOff == 18#32 && t.ecount == 2#32)
      (exec .deserialize (running 0x8#4 (containerV4 ++ [0xDE#8, 0xAD#8]))) = true := by decide +kernel

/-- T10: entryCount is not tested; the second entry is cut short. -/
theorem test_deserialize_T10 :
    nextIf (fun t => t.status.word == 0x00000836#32 && t.errInfo == 9#32 && t.outLen == 0#32)
      (exec .deserialize (running 0x8#4 [0xFF#8, 0xFF#8, 0xFF#8, 0xFF#8, 0x41#8, 0x00#8, 0x00#8, 0x00#8, 0x01#8])) = true := by
  decide +kernel

/-- A block about to decode `payload` with the tree of V4. -/
def decoding (total n : Word) (payload : List Byte) : State :=
  { running 0x9#4 payload with
    op := 0x00000002#32, node := twoLeaves, root := 2#9, freq := freqOf [(0x61#8, 1#32), (0x62#8, total - 1#32)], nbits := n }

/-- K3: pad bits set to 1 are not read. -/
theorem test_decode_K3 :
    nextIf (fun t => outIs [0x61#8, 0x62#8] t && t.emitted == 2#32 && t.status.busy) (exec .decode (decoding 2#32 2#32 [0x7F#8])) = true := by
  decide +kernel

/-- K8: a third symbol where two are expected. -/
theorem test_decode_K8 :
    nextIf (fun t => t.status.word == 0x00000946#32 && t.errInfo == 4#32) (exec .decode (decoding 2#32 3#32 [0x40#8])) = true := by
  decide +kernel

/-! ## The commands -/

/-- V4: "ab". -/
theorem test_compress_V4 :
    nextIf (fun t => t.status == Status.succeeded && t.outLen == 19#32 && outIs containerV4 t)
      (exec .compress (loaded [0x61#8, 0x62#8])) = true := by decide +kernel

/-- V4 back. -/
theorem test_decompress_V4 :
    nextIf (fun t => t.status.word == 0x00000002#32 && t.outLen == 2#32 && outIs [0x61#8, 0x62#8] t)
      (exec .decompress (loaded containerV4)) = true := by decide +kernel

/-! ## Witnesses: concrete states that meet the hypotheses of the statements -/

theorem witness_CommandWordsDecode : (0x00000101#32 : Word) ≠ 0x00000001#32 ∧ (0x00000101#32 : Word) ≠ 0x00000002#32 := by decide

theorem witness_PhaseNumbersDecode : 0xA ≤ (0xA#4 : PhaseNum).toNat ∧ 0xA ≤ (0xF#4 : PhaseNum).toNat := by decide

theorem witness_DecodeEncodeAgree : ∃ bs i, decode bs = .ok i := ⟨[0x02#8, 0x00#8, 0x00#8, 0x00#8], .decompress, by decide⟩

/-- A running block at dispatch. -/
def dispatching (op : Word) (steps : Bool) (len : Word) : State :=
  { base with status := Status.running, op := op, bySteps := steps, inLen := len }

theorem witness_StepDispatches :
    (engineTurn (dispatching 1#32 false 0#32) = true ∧ (dispatching 1#32 false 0#32).phase = 0x0#4 ∧
      decodeCmd (dispatching 1#32 false 0#32).op = .ok .compress ∧ (dispatching 1#32 false 0#32).bySteps = false) ∧
    (decodeCmd (dispatching 2#32 true 64#32).op = .ok .decompress ∧ (dispatching 2#32 true 64#32).bySteps = true ∧
      (dispatching 2#32 true 64#32).inLen.toNat ≤ (dispatching 2#32 true 64#32).params.inMax) ∧
    ((dispatching 2#32 true 65#32).params.inMax < (dispatching 2#32 true 65#32).inLen.toNat) ∧
    decodeCmd (dispatching 3#32 false 0#32).op = .error (.illegalCommand 3#32) := by decide

theorem witness_StepRunsMicroOperation :
    engineTurn (running 0x9#4 []) = true ∧ (running 0x9#4 []).phase ≠ 0x0#4 ∧ decodePhase (running 0x9#4 []).phase = .ok .decode := by
  decide

/-- An idle block whose host is about to make the accesses `as`. -/
def hosting (as : List Access) : State := { base with host := as }

/-- A running block whose host makes the first of the accesses `as` before the engine moves. -/
def interrupting (as : List Access) : State := { base with status := Status.running, host := as, slots := 1 }

theorem interrupting_inv (as : List Access) : (interrupting as).Inv where
  inbufForm := ⟨List.Pairwise.nil, fun c hc => absurd hc (by simp [interrupting, base, State.reset])⟩
  outbufForm := ⟨List.Pairwise.nil, fun c hc => absurd hc (by simp [interrupting, base, State.reset])⟩
  statusLegal := rfl
  idlePhase _ := rfl
  phaseNamed := ⟨Nat.zero_le _, Nat.zero_le _⟩
  noResult _ := rfl
  noInfo _ := rfl
  resultThere i hi := absurd hi (by simp [interrupting, base, State.reset])
  queueForm := ⟨List.Pairwise.nil, List.Pairwise.nil, Nat.zero_le _⟩
  arenaSize := Nat.zero_le _

theorem witness_StepServesHost :
    engineTurn base = false ∧ base.host = [] ∧ engineTurn (interrupting [.poll true]) = false ∧
    (interrupting [.poll true]).host = .poll true :: [] := by decide

theorem witness_RegisterSpace :
    (engineTurn (hosting [.regRead 32 0x1C]) = false ∧ (hosting [.regRead 32 0x1C]).host = .regRead 32 0x1C :: [] ∧
      0x1C % 4 = 0 ∧ 0x1C < 32) ∧
    ((hosting [.regWrite 32 0x04 5#32]).host = .regWrite 32 0x04 5#32 :: [] ∧ 0x04 % 4 = 0 ∧ 0x04 < 32) ∧
    ((hosting [.regRead 8 0x04]).host = .regRead 8 0x04 :: [] ∧ ¬ (8 = 32 ∧ 0x04 % 4 = 0 ∧ 0x04 < 32)) ∧
    ((hosting [.regWrite 32 0x20 0#32]).host = .regWrite 32 0x20 0#32 :: [] ∧ ¬ (32 = 32 ∧ 0x20 % 4 = 0 ∧ 0x20 < 32)) := by decide

theorem witness_InputLengthRegister :
    ((hosting [.regWrite 32 0x08 0xFFFFFFFF#32]).host = .regWrite 32 0x08 0xFFFFFFFF#32 :: [] ∧
      (hosting [.regWrite 32 0x08 0xFFFFFFFF#32]).status.busy = false) ∧
    ((interrupting [.regWrite 32 0x08 1#32]).host = .regWrite 32 0x08 1#32 :: [] ∧
      (interrupting [.regWrite 32 0x08 1#32]).status.busy = true ∧ engineTurn (interrupting [.regWrite 32 0x08 1#32]) = false) ∧
    (∃ t, exec .pqPopMin base = .next t) ∧
    (dispatching 1#32 false 65#32).params.inMax < (dispatching 1#32 false 65#32).inLen.toNat :=
  ⟨by decide, by decide, ⟨_, rfl⟩, by decide⟩

theorem witness_BufferAccess :
    (engineTurn (hosting [.inWrite 63 1#8]) = false ∧ (hosting [.inWrite 63 1#8]).host = .inWrite 63 1#8 :: [] ∧
      63 < (hosting [.inWrite 63 1#8]).params.inMax ∧ (hosting [.inWrite 63 1#8]).status.busy = false) ∧
    (engineTurn (interrupting [.inWrite 63 1#8]) = false ∧ (interrupting [.inWrite 63 1#8]).status.busy = true) ∧
    (hosting [.inRead 63]).host = .inRead 63 :: [] ∧
    (let s : State := { hosting [.outRead 1] with outLen := 2#32, outbuf := [(0, 7#8), (1, 9#8)] }
     engineTurn s = false ∧ s.host = .outRead 1 :: [] ∧ 1 < s.params.outMax ∧ 1 < s.outLen.toNat ∧ Memory.read? s.outbuf 1 = some 9#8) ∧
    (let s : State := { hosting [.outRead 2] with outLen := 2#32, outbuf := [(0, 7#8), (1, 9#8)] }
     engineTurn s = false ∧ s.host = .outRead 2 :: [] ∧ 2 < s.params.outMax ∧ s.outLen.toNat ≤ 2) ∧
    (hosting [.inWrite 64 1#8]).params.inMax ≤ 64 ∧ (hosting [.inRead 64]).params.inMax ≤ 64 ∧
    (hosting [.outRead 64]).params.outMax ≤ 64 := by decide

theorem witness_WritesWhileBusyDropped :
    (∀ as, (interrupting as).Inv) ∧ (∀ a, (interrupting [a]).status.busy = true ∧ engineTurn (interrupting [a]) = false) ∧
    regAccessOk 32 0x1C = true ∧ 63 < (interrupting [.inWrite 63 1#8]).params.inMax ∧
    63 < (interrupting [.outRead 63]).params.outMax ∧
    ((hosting [.regWrite 32 0x10 5#32]).status.busy = false ∧
      (hosting [.regWrite 32 0x10 5#32]).host = .regWrite 32 0x10 5#32 :: []) :=
  ⟨interrupting_inv, fun _ => ⟨rfl, rfl⟩, by decide, by decide, by decide, by decide⟩

theorem witness_CommandStart :
    (hosting [.regWrite 32 0x00 1#32]).host = .regWrite 32 0x00 1#32 :: [] ∧
    (hosting [.regWrite 32 0x00 1#32]).status.busy = false := by decide

theorem witness_ResetEvent :
    (interrupting [.reset]).host = .reset :: [] ∧ engineTurn (interrupting [.reset]) = false := by decide

theorem witness_IllegalCommand :
    (0x00000101#32 : Word) ≠ 0x00000001#32 ∧ (0x00000101#32 : Word) ≠ 0x00000002#32 ∧
    (hosting [.regWrite 32 0x00 0x00000101#32]).status.busy = false ∧
    (hosting [.regWrite 32 0x00 0x00000101#32]).host = [.regWrite 32 0x00 0x00000101#32] := by decide

theorem witness_QueueKeyOrder :
    keyBefore ⟨2#40, 7#9⟩ ⟨3#40, 1#9⟩ = true ∧ keyBefore ⟨3#40, 1#9⟩ ⟨3#40, 4#9⟩ = true ∧
    (⟨3#40, 1#9⟩ : Entry) ≠ ⟨3#40, 4#9⟩ := by decide

/-- A queue of `n` entries, of the nodes 0 to n - 1. -/
def queued (n : Nat) (next : NodeIx) : State :=
  { running 0x2#4 [] with pq := (List.range n).map fun k => ⟨1#40, BitVec.ofNat 9 k⟩, pushNode := next, callerPhase := 0x4#4 }

theorem witness_QueuePush :
    (queued 255 255#9).pushNode ∉ (queued 255 255#9).pq.map Entry.node ∧ (queued 255 255#9).pqCount < 256 := by decide +kernel

theorem witness_QueuePushRefusals :
    (queued 1 0#9).pushNode ∈ (queued 1 0#9).pq.map Entry.node ∧
    ((queued 256 256#9).pushNode ∉ (queued 256 256#9).pq.map Entry.node ∧ 256 ≤ (queued 256 256#9).pqCount) := by decide +kernel

theorem witness_QueuePopMin : (queued 1 0#9).pq ≠ [] := by decide

theorem witness_QueuePopEmpty : (queued 0 0#9).pq = [] := by decide

theorem witness_FrequencyScan :
    (dispatching 1#32 false 0#32).inLen.toNat ≤ (dispatching 1#32 false 0#32).params.inMax ∧
    (dispatching 1#32 false 64#32).inLen.toNat ≤ (dispatching 1#32 false 64#32).params.inMax := by decide

/-! ### Trees -/

/-- Two present symbols, a and b. -/
def twoPresent : State := serializing small

theorem twoPresent_alphabet : twoPresent.alphabet = [0x61#8, 0x62#8] := serializing_alphabet

theorem twoPresent_some : twoPresent.alphabet ≠ [] := by rw [twoPresent_alphabet]; decide

/-- One present symbol, A, as often as a 32-bit count can say. -/
def onePresent : State := { base with freq := freqOf [(0x41#8, 0xFFFFFFFF#32)] }

theorem onePresent_alphabet : onePresent.alphabet = [0x41#8] := by decide +kernel

theorem nonePresent_alphabet : base.alphabet = [] :=
  List.eq_nil_iff_forall_not_mem.2 fun sym h => mem_alphabet.1 h (by simp [State.freqAt, base, State.reset])

theorem witness_BuildTreeCompletes : twoPresent.alphabet ≠ [] ∧ 0 < twoPresent.alphabet.length := by rw [twoPresent_alphabet]; decide

theorem witness_BuildTreeEmpty : base.alphabet = [] := nonePresent_alphabet

theorem fourPresent_some : fourPresent.alphabet ≠ [] :=
  List.ne_nil_of_mem (mem_alphabet.2 (show fourPresent.freqAt 0x61#8 ≠ 0#32 by decide +kernel))

theorem fourPresent_next : ∃ t, exec .buildTree fourPresent = .next t ∧ t.root = 6#9 ∧ t.node = arenaV1 := by
  obtain ⟨t, h1, h2⟩ := nextIf_spec test_buildTree_V1
  rw [Bool.and_eq_true, beq_iff_eq, beq_iff_eq] at h2
  exact ⟨t, h1, h2⟩

theorem witness_TreeIndexIdentities :
    ∃ t, fourPresent.alphabet ≠ [] ∧ exec .buildTree fourPresent = .next t ∧ 6 < t.node.length ∧
      t.node[t.root.toNat]? = some (.internal 10#40 0#9 5#9) ∧ t.node[4]? = some (.internal 3#40 3#9 2#9) ∧ 4 ≤ 6 := by
  obtain ⟨t, h1, h2, h3⟩ := fourPresent_next
  refine ⟨t, fourPresent_some, h1, ?_⟩
  rw [h2, h3]
  decide +kernel

theorem witness_TreeSiblingOrder :
    ∃ t, fourPresent.alphabet ≠ [] ∧ exec .buildTree fourPresent = .next t ∧
      t.node[4]? = some (.internal 3#40 3#9 2#9) ∧ t.node[4 + 1]? = some (.internal 6#40 1#9 4#9) := by
  obtain ⟨t, h1, _, h3⟩ := fourPresent_next
  refine ⟨t, fourPresent_some, h1, ?_⟩
  rw [h3]
  decide +kernel

theorem buildTree_next {s : State} (h : s.alphabet ≠ []) : ∃ t, exec .buildTree s = .next t ∧ Grown s t := by
  obtain ⟨t, h1, _, h3⟩ := buildTree_grown h
  exact ⟨t, congrArg Run.outcome h1, h3⟩

theorem genCodes_next {s t : State} (h : Grown s t) :
    exec .genCodes t = .next { t with phase := 0x5#4, code := treeCodes t.node t.root } :=
  congrArg Run.outcome (genCodes_ok h.arenaOk)

/-- The same table in another state. -/
def twoPresent' : State := { twoPresent with root := 9#9, node := arenaV1, pq := [⟨1#40, 0#9⟩] }

theorem twoPresent'_some : twoPresent'.alphabet ≠ [] := twoPresent_some

theorem witness_TreeDeterminism :
    twoPresent.freq = twoPresent'.freq ∧ twoPresent.alphabet ≠ [] ∧
    ∃ t t', exec .buildTree twoPresent = .next t ∧ exec .buildTree twoPresent' = .next t' := by
  obtain ⟨t, ht, _⟩ := buildTree_next twoPresent_some
  obtain ⟨t', ht', _⟩ := buildTree_next twoPresent'_some
  exact ⟨rfl, twoPresent_some, t, t', ht, ht'⟩

theorem witness_OnePresentSymbol : onePresent.alphabet = [0x41#8] := onePresent_alphabet

theorem witness_CodesArePaths :
    let s : State := { base with node := twoLeaves, root := 2#9 }
    s.arenaOk = true ∧ s.node[s.root.toNat]? = some (.internal 2#40 0#9 1#9) := by decide

theorem witness_RootLeafCode :
    let s : State := { base with node := [.leaf 0x41#8 3#40], root := 0#9 }
    s.arenaOk = true ∧ s.node[s.root.toNat]? = some (.leaf 0x41#8 3#40) := by decide

theorem witness_PrefixCode :
    ∃ b t, twoPresent.alphabet ≠ [] ∧ exec .buildTree twoPresent = .next b ∧ exec .genCodes b = .next t ∧
      twoPresent.freqAt 0x61#8 ≠ 0#32 ∧ twoPresent.freqAt 0x62#8 ≠ 0#32 := by
  obtain ⟨b, hb, hg⟩ := buildTree_next twoPresent_some
  exact ⟨b, _, twoPresent_some, hb, genCodes_next hg, by decide +kernel, by decide +kernel⟩

theorem witness_CodeLengths :
    (∃ b t, onePresent.alphabet ≠ [] ∧ exec .buildTree onePresent = .next b ∧ exec .genCodes b = .next t ∧
      onePresent.freqAt 0x41#8 ≠ 0#32 ∧ onePresent.alphabet.length = 1) ∧
    ∃ b t, twoPresent.alphabet ≠ [] ∧ exec .buildTree twoPresent = .next b ∧ exec .genCodes b = .next t ∧
      twoPresent.freqAt 0x61#8 ≠ 0#32 ∧ 2 ≤ twoPresent.alphabet.length := by
  have h1 : onePresent.alphabet ≠ [] := by rw [onePresent_alphabet]; decide
  obtain ⟨b, hb, hg⟩ := buildTree_next h1
  obtain ⟨b', hb', hg'⟩ := buildTree_next twoPresent_some
  exact ⟨⟨b, _, h1, hb, genCodes_next hg, by decide +kernel, by rw [onePresent_alphabet]; rfl⟩,
    b', _, twoPresent_some, hb', genCodes_next hg', by decide +kernel, by rw [twoPresent_alphabet]; decide⟩

theorem witness_DecodingInvertsEncoding :
    ∃ b t, twoPresent.alphabet ≠ [] ∧ exec .buildTree twoPresent = .next b ∧ exec .genCodes b = .next t ∧
      ([0x61#8, 0x62#8, 0x61#8] : List Byte) ≠ [] ∧ ∀ x ∈ ([0x61#8, 0x62#8, 0x61#8] : List Byte), x ∈ twoPresent.alphabet := by
  obtain ⟨b, hb, hg⟩ := buildTree_next twoPresent_some
  exact ⟨b, _, twoPresent_some, hb, genCodes_next hg, by decide, by rw [twoPresent_alphabet]; decide⟩

/-! ### Bits and containers -/

/-- About to encode "abc", with codes for a and b, and for c the one given. -/
def encoding (c : Bits) : State :=
  { running 0x6#4 [0x61#8, 0x63#8, 0x62#8] with code := codeOf [(0x61#8, [true]), (0x62#8, [false, true]), (0x63#8, c)] }

theorem witness_EncodeCompletes :
    (encoding [false, false]).inLen.toNat ≤ (encoding [false, false]).params.inMax ∧
    ∀ b ∈ (encoding [false, false]).inputBytes, (encoding [false, false]).codeAt b ≠ [] := by decide +kernel

theorem witness_EncodeUnmapped :
    (encoding []).inLen.toNat ≤ (encoding []).params.inMax ∧ (encoding []).inputBytes = [0x61#8] ++ 0x63#8 :: [0x62#8] ∧
    (∀ x ∈ ([0x61#8] : List Byte), (encoding []).codeAt x ≠ []) ∧ (encoding []).codeAt 0x63#8 = [] := by decide +kernel

theorem witness_PackBitsLayout :
    0 < (packBits [true]).length ∧ 0 < [true].length ∧ byteOffset 0 < (packBits [true]).length := by decide

/-- A block whose OUTBUF has `n` bytes, at least 14. -/
def capacity (n : Fin 50) : Params :=
  { inMax := 64, outMax := 14 + n.val, inMin := by decide, inTop := by decide, outMin := by omega, outTop := by omega }

theorem witness_SerializeCompletes :
    (serializing (capacity 5)).containerSize ≤ (serializing (capacity 5)).params.outMax ∧
    (serializing (capacity 5)).bits.length = (serializing (capacity 5)).nbits.toNat := by
  rw [serializing_containerSize]; decide

theorem witness_SerializeCapacity : (serializing (capacity 4)).params.outMax < (serializing (capacity 4)).containerSize := by
  rw [serializing_containerSize]; decide

/-- The entries of V4. -/
def entriesV4 : List (Byte × Word) := [(0x61#8, 1#32), (0x62#8, 1#32)]

theorem entriesV4_ok : entriesOk entriesV4 := ⟨by decide, by decide, by simp [entriesV4]⟩

theorem witness_DeserializeCompletes :
    (loaded containerV4).inLen.toNat ≤ (loaded containerV4).params.inMax ∧
    (loaded containerV4).inputBytes = headerBytes entriesV4 2#32 ++ [0x40#8] ∧ entriesOk entriesV4 ∧
    ceil8 (2#32 : Word).toNat ≤ ([0x40#8] : List Byte).length := ⟨by decide, by decide +kernel, entriesV4_ok, by decide⟩

theorem witness_DeserializeCountFaults :
    ((loaded [0#8, 0#8, 0#8]).inLen.toNat ≤ (loaded [0#8, 0#8, 0#8]).params.inMax ∧ (loaded [0#8, 0#8, 0#8]).inLen.toNat < 4) ∧
    (loaded [0#8, 0#8, 0#8, 0#8]).inputBytes = be32Bytes 0#32 ++ [] := by decide +kernel

/-- The entry that DESERIALIZE has read. -/
def entryA : List (Byte × Word) := [(0x61#8, 1#32)]

/-- Two entries are announced, the first is a 1, and `rest` follows it. -/
def reading (rest : List Byte) : State :=
  loaded (be32Bytes 2#32 ++ (entryA.flatMap fun e => e.1 :: be32Bytes e.2) ++ rest)

theorem witness_DeserializeEntryFaults :
    (entryA.length < (2#32 : Word).toNat ∧ (entryA.map Prod.fst).Nodup ∧ ∀ e ∈ entryA, e.2 ≠ 0#32) ∧
    ((reading [0x62#8, 0#8, 0#8, 0#8]).inLen.toNat ≤ (reading [0x62#8, 0#8, 0#8, 0#8]).params.inMax ∧
      (reading [0x62#8, 0#8, 0#8, 0#8]).inputBytes =
        be32Bytes 2#32 ++ (entryA.flatMap fun e => e.1 :: be32Bytes e.2) ++ [0x62#8, 0#8, 0#8, 0#8] ∧
      ([0x62#8, 0#8, 0#8, 0#8] : List Byte).length < 5) ∧
    ((reading [0x61#8, 0#8, 0#8, 0#8, 0#8]).inputBytes =
        be32Bytes 2#32 ++ (entryA.flatMap fun e => e.1 :: be32Bytes e.2) ++ [0x61#8, 0#8, 0#8, 0#8, 0#8] ∧
      ([0x61#8, 0#8, 0#8, 0#8, 0#8] : List Byte) = 0x61#8 :: be32Bytes 0#32 ++ [] ∧ 0x61#8 ∈ entryA.map Prod.fst) ∧
    ((reading [0x62#8, 0#8, 0#8, 0#8, 0#8]).inputBytes =
        be32Bytes 2#32 ++ (entryA.flatMap fun e => e.1 :: be32Bytes e.2) ++ [0x62#8, 0#8, 0#8, 0#8, 0#8] ∧
      ([0x62#8, 0#8, 0#8, 0#8, 0#8] : List Byte) = 0x62#8 :: be32Bytes 0#32 ++ [] ∧ 0x62#8 ∉ entryA.map Prod.fst) :=
  ⟨⟨by decide, by decide, by simp [entryA]⟩, by decide +kernel, by decide +kernel, by decide +kernel⟩

/-- The table of V4 and then `rest`. -/
def trailing (rest : List Byte) : State :=
  loaded (be32Bytes (BitVec.ofNat 32 entriesV4.length) ++ (entriesV4.flatMap fun e => e.1 :: be32Bytes e.2) ++ rest)

theorem witness_DeserializeTailFaults :
    entriesOk entriesV4 ∧
    ((trailing [0#8, 0#8, 0#8]).inLen.toNat ≤ (trailing [0#8, 0#8, 0#8]).params.inMax ∧
      (trailing [0#8, 0#8, 0#8]).inputBytes = be32Bytes (BitVec.ofNat 32 entriesV4.length) ++
        (entriesV4.flatMap fun e => e.1 :: be32Bytes e.2) ++ [0#8, 0#8, 0#8] ∧ ([0#8, 0#8, 0#8] : List Byte).length < 4) ∧
    ((trailing [0#8, 0#8, 0#8, 9#8, 0x40#8]).inputBytes = be32Bytes (BitVec.ofNat 32 entriesV4.length) ++
        (entriesV4.flatMap fun e => e.1 :: be32Bytes e.2) ++ [0#8, 0#8, 0#8, 9#8, 0x40#8] ∧
      ([0#8, 0#8, 0#8, 9#8, 0x40#8] : List Byte) = be32Bytes 9#32 ++ [0x40#8] ∧
      ([0x40#8] : List Byte).length < ceil8 (9#32 : Word).toNat) := ⟨entriesV4_ok, by decide +kernel, by decide +kernel⟩

theorem witness_ReadingInvertsWriting :
    ∃ t, (serializing small).bits.length = (serializing small).nbits.toNat ∧ (serializing small).alphabet ≠ [] ∧
      (serializing small).containerSize ≤ (serializing small).params.outMax ∧ exec .serialize (serializing small) = .next t ∧
      (loaded containerV4).inLen.toNat ≤ (loaded containerV4).params.inMax ∧
      (serializing small).containerSize ≤ (loaded containerV4).inLen.toNat ∧
      ∀ k, k < (serializing small).containerSize → Memory.read? t.outbuf k = some ((loaded containerV4).inByte k) := by
  obtain ⟨t, h1, _, h3⟩ := test_serialize_V4
  refine ⟨t, by decide, by rw [serializing_alphabet]; decide, by rw [serializing_containerSize]; decide, h1, by decide,
    by rw [serializing_containerSize]; decide, ?_⟩
  rw [serializing_containerSize, h3]
  decide +kernel

/-! ### Decoding -/

theorem tableHolds_freqOf {es : List (Byte × Word)} (h : (es.map Prod.fst).Nodup) : tableHolds (freqOf es) es :=
  ⟨fun _ he => getElem_tableWith_mem h he _, fun _ hs => (getElem_tableWith_other hs _).trans (getElem_zeroFreq _)⟩

theorem freqSum_freqOf {s : State} {es : List (Byte × Word)} (h : (es.map Prod.fst).Nodup) (hs : s.freq = freqOf es) :
    s.freqSum.toNat = (es.map fun e => e.2.toNat).sum :=
  (freqSum_toNat s).trans (freqTotal_table h (hs ▸ tableHolds_freqOf h))

theorem decoding_sum (total n : Word) (payload : List Byte) :
    (decoding total n payload).freqSum.toNat = 1 + ((total - 1#32).toNat + 0) :=
  freqSum_freqOf (es := [(0x61#8, 1#32), (0x62#8, total - 1#32)]) (by simp) rfl

/-- About to decode with one symbol, A, present. -/
def decodingA (p : Params) (count n : Word) (payload : List Byte) : State :=
  { running 0x9#4 payload with
    params := p, op := 0x00000002#32, node := [.leaf 0x41#8 (count.setWidth 40)], root := 0#9, freq := freqOf [(0x41#8, count)], nbits := n }

theorem decodingA_sum (p : Params) (count n : Word) (payload : List Byte) :
    (decodingA p count n payload).freqSum.toNat = count.toNat :=
  freqSum_freqOf (es := [(0x41#8, count)]) (by simp) rfl

/-- What DecodeOutcome asks of a state. -/
def Decodes (s : State) (out : List Byte) (c : NodeIx) : Prop :=
  s.inLen.toNat ≤ s.params.inMax ∧ s.arenaOk = true ∧ s.payOff.toNat + ceil8 s.nbits.toNat ≤ s.inLen.toNat ∧
  walkBits s.node s.root s.root s.payloadBits = some (out, c)

/-- Each branch of DecodeOutcome: K17, K8, a walk that ends inside the tree, one symbol short, K2. -/
theorem witness_DecodeOutcome :
    (Decodes (decodingA (capacity 0) 0xFFFFFFFF#32 16#32 [0xFF#8, 0xFF#8]) (List.replicate 16 0x41#8) 0#9 ∧
      (decodingA (capacity 0) 0xFFFFFFFF#32 16#32 [0xFF#8, 0xFF#8]).params.outMax <
        (decodingA (capacity 0) 0xFFFFFFFF#32 16#32 [0xFF#8, 0xFF#8]).freqSum.toNat ∧
      (decodingA (capacity 0) 0xFFFFFFFF#32 16#32 [0xFF#8, 0xFF#8]).params.outMax < (List.replicate 16 0x41#8 : List Byte).length) ∧
    (Decodes (decoding 2#32 3#32 [0x40#8]) [0x61#8, 0x62#8, 0x61#8] 2#9 ∧
      (decoding 2#32 3#32 [0x40#8]).freqSum.toNat < ([0x61#8, 0x62#8, 0x61#8] : List Byte).length ∧
      (decoding 2#32 3#32 [0x40#8]).freqSum.toNat ≤ (decoding 2#32 3#32 [0x40#8]).params.outMax) ∧
    (Decodes { decoding 2#32 1#32 [0x80#8] with node := arenaV1, root := 6#9 } [] 5#9 ∧
      (5#9 : NodeIx) ≠ State.root { decoding 2#32 1#32 [0x80#8] with node := arenaV1, root := 6#9 }) ∧
    (Decodes (decoding 3#32 2#32 [0x40#8]) [0x61#8, 0x62#8] 2#9 ∧
      ([0x61#8, 0x62#8] : List Byte).length < (decoding 3#32 2#32 [0x40#8]).freqSum.toNat ∧ (decoding 3#32 2#32 [0x40#8]).root = 2#9) ∧
    (Decodes (decoding 2#32 2#32 [0x40#8]) [0x61#8, 0x62#8] 2#9 ∧
      ([0x61#8, 0x62#8] : List Byte).length = (decoding 2#32 2#32 [0x40#8]).freqSum.toNat ∧
      (decoding 2#32 2#32 [0x40#8]).root = 2#9) := by
  refine ⟨⟨?_, ?_, ?_⟩, ⟨?_, ?_, ?_⟩, ⟨?_, ?_⟩, ⟨?_, ?_, ?_⟩, ⟨?_, ?_, ?_⟩⟩
  · unfold Decodes; decide +kernel
  · rw [decodingA_sum]; decide
  · decide
  · unfold Decodes; decide +kernel
  · rw [decoding_sum]; decide
  · rw [decoding_sum]; decide
  · unfold Decodes; decide +kernel
  · decide +kernel
  · unfold Decodes; decide +kernel
  · rw [decoding_sum]; decide
  · decide +kernel
  · unfold Decodes; decide +kernel
  · rw [decoding_sum]; decide
  · decide +kernel

/-- K5 -/
theorem witness_DecodeSingleLeaf :
    let s := decodingA small 3#32 3#32 [0xE0#8]
    s.inLen.toNat ≤ s.params.inMax ∧ s.arenaOk = true ∧ s.payOff.toNat + ceil8 s.nbits.toNat ≤ s.inLen.toNat ∧
    s.node[s.root.toNat]? = some (.leaf 0x41#8 3#40) ∧ s.nbits.toNat = s.freqSum.toNat ∧ s.nbits.toNat ≤ s.params.outMax :=
  ⟨by decide +kernel, by decide +kernel, by decide +kernel, by decide +kernel, (decodingA_sum _ _ _ _).symm, by decide +kernel⟩

/-- K2 and K3 -/
theorem witness_DecodeIgnoresPadding :
    (decoding 2#32 2#32 [0x40#8]).inLen.toNat ≤ (decoding 2#32 2#32 [0x40#8]).params.inMax ∧
    (decoding 2#32 2#32 [0x40#8]).payOff.toNat + ceil8 (decoding 2#32 2#32 [0x40#8]).nbits.toNat ≤
      (decoding 2#32 2#32 [0x40#8]).inLen.toNat ∧
    State.payloadBits { decoding 2#32 2#32 [0x40#8] with inbuf := [(0, 0x7F#8)] } = (decoding 2#32 2#32 [0x40#8]).payloadBits := by
  decide +kernel

/-! ### Commands -/

theorem witness_CompressEmpty : base.inLen = 0#32 := by decide

theorem witness_CompressCompletes :
    (1 ≤ (loaded [0x41#8]).inLen.toNat ∧ (loaded [0x41#8]).inLen.toNat ≤ (loaded [0x41#8]).params.inMax) ∧
    (dispatching 1#32 false 64#32).inLen.toNat ≤ (dispatching 1#32 false 64#32).params.inMax := by decide

/-- "ab" in a block whose OUTBUF is too small for the container of V4. -/
def crowded : State := { loaded [0x61#8, 0x62#8] with params := capacity 0 }

/-- The second ending of CompressCompletes is met as well (45_container.md R202). -/
theorem test_compress_full : ∃ t, exec .compress crowded = .next t ∧ t.status.word = 0x00000786#32 ∧ t.errInfo = 2#32 := by
  obtain ⟨u, b, d, _, h2, _, _, h4, h5, h6, h7, _, _, _, _, h12, _, h14⟩ := compress_eq (s := crowded) (by decide) (by decide)
  have ha : d.alphabet = u.alphabet := by
    have : d.freq = u.freq := by rw [h5]; exact h4
    unfold State.alphabet State.present State.freqAt; rw [this]
  have hl : 2 ≤ d.alphabet.length := by
    have hs : [0x61#8, 0x62#8] ⊆ d.alphabet := fun x hx => by
      rw [ha, h2]
      exact (show crowded.inputBytes = [0x61#8, 0x62#8] by decide +kernel) ▸ hx
    exact (List.subperm_of_subset (by decide) hs).length_le
  have hb : 2 ≤ d.nbits.toNat := h6 ▸ h7
  have hc : d.params.outMax < d.containerSize := by
    rw [h12, State.containerSize, ceil8]
    show 14 < _
    omega
  refine ⟨takeFault .capacity 2#32 { d with phase := 0x7#4, ecount := BitVec.ofNat 32 d.alphabet.length }, ?_,
    (show (Status.failed .capacity 0x7#4).word = 0x00000786#32 by decide), rfl⟩
  show Run.outcome (compress crowded) = _
  rw [h14, serialize_full hc]
  rfl

/-- The command of test_compress_V4 and its end. -/
theorem compress_V4 :
    ∃ t, exec .compress (loaded [0x61#8, 0x62#8]) = .next t ∧ t.status = Status.succeeded ∧ t.outLen = 19#32 ∧
      ∀ k, k < 19 → Memory.read? t.outbuf k = some ((loaded containerV4).inByte k) := by
  obtain ⟨t, h1, h2⟩ := nextIf_spec test_compress_V4
  rw [Bool.and_eq_true, Bool.and_eq_true, beq_iff_eq, beq_iff_eq] at h2
  refine ⟨t, h1, h2.1.1, h2.1.2, fun k hk => ?_⟩
  have h3 : (List.range 19).map (Memory.read? t.outbuf) = containerV4.map some := eq_of_beq h2.2
  have h4 : containerV4.map some = (List.range 19).map fun k => some ((loaded containerV4).inByte k) := by decide +kernel
  exact List.map_inj_left.1 (h3.trans h4) k (List.mem_range.2 hk)

theorem witness_RoundTrip :
    ∃ t, 1 ≤ (loaded [0x61#8, 0x62#8]).inLen.toNat ∧
      (loaded [0x61#8, 0x62#8]).inLen.toNat ≤ (loaded [0x61#8, 0x62#8]).params.inMax ∧
      (loaded [0x61#8, 0x62#8]).inLen.toNat ≤ (loaded [0x61#8, 0x62#8]).params.outMax ∧
      exec .compress (loaded [0x61#8, 0x62#8]) = .next t ∧ t.status = Status.succeeded ∧
      t.outLen.toNat ≤ (loaded [0x61#8, 0x62#8]).params.inMax ∧ (loaded containerV4).params = (loaded [0x61#8, 0x62#8]).params ∧
      (loaded containerV4).inLen = t.outLen ∧
      ∀ k, k < t.outLen.toNat → Memory.read? t.outbuf k = some ((loaded containerV4).inByte k) := by
  obtain ⟨t, h1, h2, h3, h4⟩ := compress_V4
  refine ⟨t, by decide, by decide, by decide, h1, h2, ?_, rfl, ?_, ?_⟩
  · rw [h3]; decide
  · rw [h3]; rfl
  · rw [h3]; exact h4

/-- BT4 -/
theorem test_buildTree_tie :
    nextIf (fun t => t.node == twoLeaves && t.root == 2#9)
      (exec .buildTree { loaded containerV4 with freq := freqOf entriesV4 }) = true := by decide +kernel

/-- BT4 -/
theorem test_treeOf_tie : treeOf (freqOf entriesV4) = (twoLeaves, 2#9) := by decide +kernel

theorem witness_DecompressCompletes :
    (loaded containerV4).inLen.toNat ≤ (loaded containerV4).params.inMax ∧
    (loaded containerV4).inputBytes = headerBytes entriesV4 2#32 ++ [0x40#8] ∧ entriesOk entriesV4 ∧
    ceil8 (2#32 : Word).toNat ≤ ([0x40#8] : List Byte).length ∧ tableHolds (freqOf entriesV4) entriesV4 ∧
    walkBits (treeOf (freqOf entriesV4)).1 (treeOf (freqOf entriesV4)).2 (treeOf (freqOf entriesV4)).2
      ((List.range (2#32 : Word).toNat).map fun i => bitOf (([0x40#8] : List Byte).getD (byteOffset i) 0#8) i) =
        some ([0x61#8, 0x62#8], (treeOf (freqOf entriesV4)).2) ∧
    ([0x61#8, 0x62#8] : List Byte).length = (entriesV4.map fun e => e.2.toNat).sum ∧
    ([0x61#8, 0x62#8] : List Byte).length ≤ (loaded containerV4).params.outMax := by
  obtain ⟨w1, w2, w3, w4⟩ := witness_DeserializeCompletes
  refine ⟨w1, w2, w3, w4, tableHolds_freqOf (by decide), ?_, by decide, by decide⟩
  rw [test_treeOf_tie]
  decide +kernel

/-- The block of V4 after some other command. -/
def loadedAgain : State :=
  { loaded [0x61#8, 0x62#8] with
    status := Status.succeeded, outLen := 1#32, outbuf := [(0, 9#8), (40, 8#8)], freq := freqOf entryA, node := arenaV1, root := 6#9 }

theorem witness_CommandIsFunctionOfInput :
    ∃ t, loadedAgain.params = (loaded [0x61#8, 0x62#8]).params ∧ loadedAgain.inLen = (loaded [0x61#8, 0x62#8]).inLen ∧
      loadedAgain.inputBytes = (loaded [0x61#8, 0x62#8]).inputBytes ∧ exec .compress (loaded [0x61#8, 0x62#8]) = .next t := by
  obtain ⟨t, h1, _⟩ := compress_V4
  exact ⟨t, rfl, rfl, inputBytes_congr rfl rfl rfl, h1⟩

theorem witness_CommandIsAtomic :
    (dispatching 2#32 false 0#32).status = Status.running ∧ (dispatching 2#32 false 0#32).phase = 0x0#4 ∧
    (dispatching 2#32 false 0#32).host = [] ∧ decodeCmd (dispatching 2#32 false 0#32).op = .ok .decompress := by decide

theorem interrupting_ready : (interrupting [.poll true]).Ready :=
  ⟨interrupting_inv _, fun _ => .inl rfl, fun a ha => by
    rw [List.mem_singleton.1 (show a ∈ [Access.poll true] from ha)]; rfl⟩

theorem witness_EveryCommandEnds : (interrupting [.poll true]).Ready ∧ (interrupting [.poll true]).status.busy = true :=
  ⟨interrupting_ready, rfl⟩

theorem witness_NoInstructionWritesInput : ∃ t, exec .pqPopMin base = .next t := ⟨_, rfl⟩

theorem witness_WriteOwnership : Instr.slot .pqPopMin = .phase ∧ ∃ t, exec .pqPopMin (queued 1 0#9) = .next t := ⟨rfl, _, rfl⟩

theorem witness_MicroOperationFaults :
    Instr.phaseNumber .pqPopMin = some 0x3#4 ∧ (∃ t, exec .pqPopMin (queued 1 0#9) = .next t ∧ t.status.busy = true) ∧
    ∃ t, exec .pqPopMin (queued 0 0#9) = .next t ∧ t.status.err = true := ⟨rfl, ⟨_, rfl, rfl⟩, _, rfl, rfl⟩

theorem witness_StepKeepsInvariant :
    (interrupting [.poll true]).Inv ∧ (∃ t, step (interrupting [.poll true]) = .next t) ∧
    (interrupting []).Inv ∧ ∃ t, step (interrupting []) = .next t := ⟨interrupting_inv _, ⟨_, rfl⟩, interrupting_inv _, ⟨_, rfl⟩⟩

theorem witness_ReadyNeverStops : (interrupting [.poll true]).Ready := interrupting_ready

end Sys2Proof.Tests
end

/-!
The proofs of the statements about the state (10_state.md): the registers, the reset values, what no instruction writes, which
micro-operation writes which state, and the invariant.
-/
namespace Sys2Proof.Machine

/-! ## Instructions as runs of pseudocode -/

/-- The pseudocode of an instruction. -/
def pseudocode : Instr → State → Run State
  | .compress => compress
  | .decompress => decompress
  | .freqScan => freqScan
  | .pqPush => pqPush
  | .pqPopMin => pqPopMin
  | .buildTree => buildTree
  | .genCodes => genCodes
  | .encode => encodeInput
  | .serialize => serialize
  | .deserialize => deserialize
  | .decode => decodePayload

/-- Executing an instruction is running its pseudocode. -/
theorem exec_eq_outcome (i : Instr) (s : State) : exec i s = (pseudocode i s).outcome := by
  cases i <;> rfl

/-- Weakening what a run does, whatever it stops for. -/
theorem Run.Does.weaken {α : Type} {R R' : α → Prop} {E E' : State → Prop} {S : Prop} {x : Run α} (h : x.Does R E S)
    (hR : ∀ t, R t → R' t) (hE : ∀ t, E t → E' t) : x.Does R' E' True := h.mono hR hE fun _ => trivial

/-- PQ_PUSH, a new entry into a queue with room (40_priority_queue.md R132, R135). -/
theorem pqPush_does (s : State) :
    (pqPush s).Does
      (fun t => t = { s with pq := insertEntry { weight := s.pushWeight, node := s.pushNode } s.pq, phase := s.callerPhase } ∧
        s.pushNode ∉ s.pq.map Entry.node ∧ s.pq.length < 256)
      (fun _ => False) True := by
  rw [pqPush_eq]
  split
  · trivial
  · rename_i hnew
    split
    · trivial
    · rename_i hroom
      exact Run.Does.pure ⟨rfl, hnew, Nat.lt_of_not_le hroom⟩

/-- PQ_POP_MIN takes an entry out, or the queue is empty (40_priority_queue.md R133, 60_exceptions.md R267). -/
theorem pqPopMin_does (s : State) :
    (pqPopMin s).Does
      (fun t => ∃ e, t = { s with pq := s.pq.erase e, popWeight := e.weight, popNode := e.node, phase := s.callerPhase })
      (fun t => t = takeFault .emptyQueue 0#32 (setPhase 0x3#4 s)) False := by
  rw [pqPopMin_eq]
  split
  · exact raise_does rfl
  · exact Run.Does.pure ⟨_, rfl⟩

/-- The length test of dispatch (46_codec_engine.md R232). -/
theorem checkLength_does (s : State) {S : Prop} :
    (checkLength s).Does (fun t => t = s) (fun t => t = takeFault .capacity 1#32 s) S := by
  unfold checkLength
  split
  · exact raise_does rfl
  · exact Run.Does.pure rfl

theorem checkLength_long {s : State} (h : s.params.inMax < s.inLen.toNat) : checkLength s = raise .capacity 1#32 s := if_pos h

/-- The length of the result that stands in the state at the end of the last micro-operation of a command (R234, R235). -/
def resultLength : Instr → State → Word
  | .serialize, t => t.outPos
  | .decode, t => t.emitted
  | _, _ => 0#32

section Commands

variable {R E : State → Prop} {Q : Instr → State → Prop} {s : State}

/-- COMPRESS as a chain (R234): what holds at dispatch and is kept by every micro-operation holds when the command is about to be
finished. -/
theorem compress_does (h0 : R (setPhase 0x0#4 s)) (hE : E (takeFault .capacity 1#32 (setPhase 0x0#4 s)))
    (h : ∀ i t, i.slot = .phase → R t → (pseudocode i t).Does (fun u => R u ∧ Q i u) E True) :
    (compress s).Does (fun t => ∃ u, R u ∧ Q .serialize u ∧ t = finishCommand (resultLength .serialize u) u) E True := by
  refine ((checkLength_does _).mono (fun t ht => ?_) (fun t ht => ?_) id).bind fun a (ha : R a) => ?_
  · rw [ht]; exact h0
  · rw [ht]; exact hE
  refine (h .freqScan a rfl ha).bind fun b ⟨hb, _⟩ => (h .buildTree b rfl hb).bind fun c ⟨hc, _⟩ => ?_
  refine (h .genCodes c rfl hc).bind fun d ⟨hd, _⟩ => (h .encode d rfl hd).bind fun e ⟨he, _⟩ => ?_
  refine (h .serialize e rfl he).bind fun u hu => ?_
  exact Run.Does.pure ⟨u, hu.1, hu.2, rfl⟩

/-- DECOMPRESS as a chain (R235). -/
theorem decompress_does (h0 : R (setPhase 0x0#4 s)) (hE : E (takeFault .capacity 1#32 (setPhase 0x0#4 s)))
    (h : ∀ i t, i.slot = .phase → R t → (pseudocode i t).Does (fun u => R u ∧ Q i u) E True) :
    (decompress s).Does (fun t => ∃ u, R u ∧ Q .decode u ∧ t = finishCommand (resultLength .decode u) u) E True := by
  refine ((checkLength_does _).mono (fun t ht => ?_) (fun t ht => ?_) id).bind fun a (ha : R a) => ?_
  · rw [ht]; exact h0
  · rw [ht]; exact hE
  refine (h .deserialize a rfl ha).bind fun b ⟨hb, _⟩ => (h .buildTree b rfl hb).bind fun c ⟨hc, _⟩ => ?_
  refine (h .genCodes c rfl hc).bind fun d ⟨hd, _⟩ => (h .decode d rfl hd).bind fun u hu => ?_
  exact Run.Does.pure ⟨u, hu.1, hu.2, rfl⟩

end Commands

/-! ## What no instruction writes -/

/-- The state that is the host's to write, or the model's schedule. -/
def State.untouched (s : State) : Memory × Word × Params × Word × List Access × List Seen × Nat × Nat × Bool :=
  (s.inbuf, s.inLen, s.params, s.op, s.host, s.seen, s.epoch, s.slots, s.bySteps)

/-- `t` is `s` in all that no instruction writes. -/
def Untouched (s t : State) : Prop := t.untouched = s.untouched

section Untouched

variable {s t u : State}

theorem Untouched.trans (h : Untouched s t) (h' : Untouched t u) : Untouched s u := Eq.trans h' h
theorem Untouched.of_eq (h : t = u) (hu : Untouched s u) : Untouched s t := h ▸ hu
theorem Untouched.takeFault (h : Untouched s t) (e : ErrCode) (info : Word) : Untouched s (takeFault e info t) := h
theorem Untouched.finishCommand (h : Untouched s t) (n : Word) : Untouched s (finishCommand n t) := h

/-- A micro-operation leaves it alone: each of its frames says so. -/
theorem micro_untouched {i : Instr} (s : State) (hi : i.slot = .phase) :
    (pseudocode i s).Does (Untouched s) (Untouched s) True := by
  cases i with
  | compress => cases hi
  | decompress => cases hi
  | freqScan => exact (freqScan_does s).weaken (fun t ht => .of_eq ht rfl) (fun t ht => ht.elim)
  | pqPush => exact (pqPush_does s).weaken (fun t ⟨ht, _⟩ => .of_eq ht rfl) (fun t ht => ht.elim)
  | pqPopMin => exact (pqPopMin_does s).weaken (fun t ⟨e, ht⟩ => .of_eq ht rfl) (fun t ht => .of_eq ht rfl)
  | buildTree => exact (buildTree_does s).weaken (fun t ⟨ht, _⟩ => .of_eq ht rfl) (fun t ht => .of_eq ht rfl)
  | genCodes => exact (genCodes_does s).weaken (fun t ⟨ht, _⟩ => .of_eq ht rfl) (fun t ht => ht.elim)
  | encode =>
    exact (encodeInput_does s).weaken (fun t ht => .of_eq ht rfl)
      (fun t ⟨_, u, ht, hu⟩ => .of_eq ht (Untouched.takeFault (.of_eq hu rfl) _ _))
  | serialize =>
    exact (serialize_does s).weaken (fun t ⟨ht, _⟩ => .of_eq ht rfl)
      (fun t ⟨u, ht, hu⟩ => .of_eq ht (Untouched.takeFault (.of_eq hu rfl) _ _))
  | deserialize =>
    exact (deserialize_does s).weaken (fun t ⟨ht, _⟩ => .of_eq ht rfl)
      (fun t ⟨_, _, u, _, ht, hu⟩ => .of_eq ht (Untouched.takeFault (.of_eq hu rfl) _ _))
  | decode =>
    exact (decodePayload_does s).weaken (fun t ht => .of_eq ht.frame rfl)
      (fun t ⟨_, _, u, _, ht, hu⟩ => .of_eq ht (Untouched.takeFault (.of_eq hu.frame rfl) _ _))

/-- So does a command, whose micro-operations do. -/
theorem exec_untouched {i : Instr} (h : exec i s = .next t) : Untouched s t := by
  have chain : ∀ i t, i.slot = .phase → Untouched s t →
      (pseudocode i t).Does (fun u => Untouched s u ∧ True) (Untouched s) True := fun i t hi ht =>
    (micro_untouched t hi).weaken (fun u hu => ⟨ht.trans hu, trivial⟩) (fun u hu => ht.trans hu)
  have h0 : Untouched s (setPhase 0x0#4 s) := rfl
  rw [exec_eq_outcome] at h
  cases hi : i.slot with
  | phase => exact ((micro_untouched s hi).next h).elim id id
  | cmd =>
    cases i with
    | compress =>
      rcases (compress_does h0 (h0.takeFault _ _) chain).next h with ⟨u, hu, _, rfl⟩ | ht
      · exact hu.finishCommand _
      · exact ht
    | decompress =>
      rcases (decompress_does h0 (h0.takeFault _ _) chain).next h with ⟨u, hu, _, rfl⟩ | ht
      · exact hu.finishCommand _
      · exact ht
    | _ => cases hi

end Untouched

/-- Settles O55: INBUF, IN_LEN, OP, the capacities and the host's side are in no instruction's frame. -/
theorem noInstructionWritesInput : Obligations.NoInstructionWritesInput := by
  intro i s t h
  have hu := exec_untouched h
  simpa only [Untouched, State.untouched, Prod.mk.injEq] using hu

/-- Settles O56, by the frame of each micro-operation, at its end and at its faults. -/
theorem writeOwnership : Obligations.WriteOwnership := by
  intro i s t hi h
  rw [exec_eq_outcome] at h
  cases i with
  | compress => cases hi
  | decompress => cases hi
  | freqScan =>
    rcases (freqScan_does s).next h with ht | ht
    · rw [ht]; simp
    · exact ht.elim
  | pqPush =>
    rcases (pqPush_does s).next h with ⟨ht, _⟩ | ht
    · rw [ht]; simp
    · exact ht.elim
  | pqPopMin =>
    rcases (pqPopMin_does s).next h with ⟨e, ht⟩ | ht
    · rw [ht]; simp
    · rw [ht]; simp
  | buildTree =>
    rcases (buildTree_does s).next h with ⟨ht, _⟩ | ht
    · rw [TreeFrame] at ht; rw [ht]; simp
    · rw [ht]; simp
  | genCodes =>
    rcases (genCodes_does s).next h with ⟨ht, _⟩ | ht
    · rw [ht]; simp
    · exact ht.elim
  | encode =>
    rcases (encodeInput_does s).next h with ht | ⟨_, u, ht, hu⟩
    · rw [ht]; simp
    · rw [ht, hu]; simp
  | serialize =>
    rcases (serialize_does s).next h with ⟨ht, _⟩ | ⟨u, ht, hu⟩
    · rw [ht]; simp
    · rw [ht, hu]; simp
  | deserialize =>
    rcases (deserialize_does s).next h with ⟨ht, _⟩ | ⟨_, _, u, _, ht, hu⟩
    · rw [ht]; simp
    · rw [ht, hu]; simp
  | decode =>
    rcases (decodePayload_does s).next h with ht | ⟨_, _, u, _, ht, hu⟩
    · rw [ht.frame]; simp
    · rw [ht, hu.frame]; simp

/-! ## Steps and registers -/

theorem engineTurn_idle {s : State} (h : s.status.busy = false) : engineTurn s = false := by
  simp [engineTurn, h]

/-- When it is not the engine's turn, the host's next access is served (20_memory.md R72). -/
theorem step_host {s : State} {a : Access} {rest : List Access} (ht : engineTurn s = false) (hh : s.host = a :: rest) :
    step s = serve a { s with host := rest, slots := s.slots - 1 } := by
  simp only [step, ht, Bool.false_eq_true, if_false, hostTurn, hh]

/-- At PHASE above 0 the engine's move is the micro-operation PHASE names (10_state.md R38). -/
theorem engineStep_micro {s : State} {i : Instr} (hp : s.phase ≠ 0x0#4) (hi : decodePhase s.phase = .ok i) :
    engineStep s = mapNext (fun t => drawSlots (afterMicro i t)) (exec i s) := by
  simp only [engineStep, if_neg hp, hi]

theorem regAccessOk_iff {width off : Nat} : regAccessOk width off = true ↔ width = 32 ∧ off % 4 = 0 ∧ off < 32 := by
  simp [regAccessOk, and_assoc]

theorem serve_regRead {s : State} {off : Nat} (h1 : off % 4 = 0) (h2 : off < 32) :
    serve (.regRead 32 off) s = .next { s with seen := .reg off (s.regValue off) :: s.seen } :=
  if_pos (regAccessOk_iff.2 ⟨rfl, h1, h2⟩)

theorem serve_regWrite {s : State} {off : Nat} (v : Word) (h1 : off % 4 = 0) (h2 : off < 32) :
    serve (.regWrite 32 off v) s = .next (if s.status.busy then s else writeRegister off v s) :=
  if_pos (regAccessOk_iff.2 ⟨rfl, h1, h2⟩)

/-- The registers other than CMD and IN_LEN ignore writes (10_state.md R22, R27). -/
theorem writeRegister_ignored {off : Nat} (h0 : off ≠ 0x00) (h8 : off ≠ 0x08) (v : Word) (s : State) :
    writeRegister off v s = s := by
  rw [writeRegister, if_neg h0, if_neg h8]

/-- Settles O6. -/
theorem stepRunsMicroOperation : Obligations.StepRunsMicroOperation := by
  intro s i ht hp hi
  rw [step, if_pos ht, engineStep_micro hp hi]

/-- The three flags and the reserved bit 3 of the STATUS word (10_state.md R23). -/
theorem statusWord_low (st : Status) :
    st.word.getLsbD 0 = st.busy ∧ st.word.getLsbD 1 = st.done ∧ st.word.getLsbD 2 = st.err ∧ st.word.getLsbD 3 = false := by
  simp only [Status.word, BitVec.getLsbD_setWidth, BitVec.getLsbD_append]
  simp

/-- The bits of the STATUS word from 4 up: ERR_CODE, then EPHASE, then zeros (R23). -/
theorem statusWord_high (st : Status) {k : Nat} (hk : k < 28) :
    st.word.getLsbD (4 + k) = if k < 4 then st.errCode.getLsbD k else st.ephase.getLsbD (k - 4) := by
  simp only [Status.word, BitVec.getLsbD_setWidth, BitVec.getLsbD_append, Nat.add_comm 4 k]
  rcases lt_or_ge k 4 with h4 | h4
  · simp [h4, show k + 4 < 32 by omega]
  · rcases lt_or_ge k 8 with h8 | h8
    · simp [Nat.not_lt.2 h4, show k + 4 < 32 by omega, show k - 4 < 4 by omega]
    · simp [Nat.not_lt.2 h4, BitVec.getLsbD_of_ge st.ephase (k - 4) (by omega)]

/-- Settles O8: the fields are read off the bits of the word. -/
theorem statusWordFields : Obligations.StatusWordFields := by
  intro st
  obtain ⟨hbusy, hdone, herr, hthree⟩ := statusWord_low st
  refine ⟨hbusy, hdone, herr, hthree, ?_, ?_, ?_⟩
  · ext i hi
    rw [BitVec.getElem_extractLsb', statusWord_high st (by omega), if_pos hi, BitVec.getLsbD_eq_getElem]
  · ext i hi
    rw [BitVec.getElem_extractLsb', show 8 + i = 4 + (4 + i) by omega, statusWord_high st (by omega), if_neg (by omega),
      Nat.add_sub_cancel_left, BitVec.getLsbD_eq_getElem]
  · ext i hi
    rw [BitVec.getElem_extractLsb', show 12 + i = 4 + (8 + i) by omega, statusWord_high st (by omega), if_neg (by omega),
      BitVec.getLsbD_of_ge _ _ (by omega), BitVec.getElem_zero]

/-- Settles O9: reads, ignored writes and refusals, each by what `serve` does. -/
theorem registerSpace : Obligations.RegisterSpace := by
  intro s rest ht
  refine ⟨fun off h1 h2 hh => ?_, fun off v h1 h2 h0 h8 hh => ?_, fun width off hn hh => ?_, fun width off v hn hh => ?_⟩
  · rw [step_host ht hh, serve_regRead h1 h2]; rfl
  · rw [step_host ht hh, serve_regWrite v h1 h2, writeRegister_ignored h0 h8, ite_self]
  · rw [step_host ht hh]; exact if_neg (mt regAccessOk_iff.1 hn)
  · rw [step_host ht hh]; exact if_neg (mt regAccessOk_iff.1 hn)

/-- With IN_LEN above IN_MAX either command ends at dispatch (R232, 60_exceptions.md R268). -/
theorem exec_command_long {i : Instr} {s : State} (hi : i = .compress ∨ i = .decompress) (h : s.params.inMax < s.inLen.toNat) :
    exec i s = .next (takeFault .capacity 1#32 (setPhase 0x0#4 s)) := by
  have hc : checkLength (setPhase 0x0#4 s) = raise .capacity 1#32 (setPhase 0x0#4 s) := checkLength_long h
  rcases hi with rfl | rfl
  · simp only [exec, execCompress, compress, hc, raise_bind, outcome_raise]
  · simp only [exec, execDecompress, decompress, hc, raise_bind, outcome_raise]

/-- Settles O10. -/
theorem inputLengthRegister : Obligations.InputLengthRegister := by
  refine ⟨fun s v rest hh hb => ?_, fun s v rest hh hb ht => ?_, fun i s t h => ?_, fun i s hi h => ?_⟩
  · rw [step_host (engineTurn_idle hb) hh, serve_regWrite v (by decide) (by decide)]
    simp [hb, writeRegister]
  · rw [step_host ht hh, serve_regWrite v (by decide) (by decide), if_pos hb]
  · exact (noInstructionWritesInput i s t h).2.1
  · have hword : (Status.failed .capacity 0x0#4).word = 0x00000086#32 := by decide
    exact ⟨_, exec_command_long hi h, ⟨rfl, rfl, rfl, rfl⟩, hword, rfl, rfl⟩

/-- Settles O15. -/
theorem resetValues : Obligations.ResetValues := by
  have hw : State.reset.status.word = 0x00000000#32 := by decide
  refine ⟨hw, rfl, rfl, rfl, rfl, fun off => ?_⟩
  unfold State.regValue
  rw [hw]
  simp [State.reset]

/-! ## The invariant -/

/-- The state that `State.Inv` speaks of. -/
def State.shape (s : State) :
    Params × Status × Word × Word × Memory × Memory × PhaseNum × PhaseNum × List Entry × List Node :=
  (s.params, s.status, s.outLen, s.errInfo, s.inbuf, s.outbuf, s.phase, s.callerPhase, s.pq, s.node)

/-- The invariant speaks of nothing else. -/
theorem State.Inv.congr {s t : State} (h : s.Inv) (e : t.shape = s.shape) : t.Inv := by
  simp only [State.shape, Prod.mk.injEq] at e
  obtain ⟨e1, e2, e3, e4, e5, e6, e7, e8, e9, e10⟩ := e
  exact
    { inbufForm := by rw [e1, e5]; exact h.inbufForm
      outbufForm := by rw [e1, e6]; exact h.outbufForm
      statusLegal := by rw [e2]; exact h.statusLegal
      idlePhase := by rw [e2, e7]; exact h.idlePhase
      phaseNamed := by rw [e7, e8]; exact h.phaseNamed
      noResult := by rw [e2, e3]; exact h.noResult
      noInfo := by rw [e2, e4]; exact h.noInfo
      resultThere := by rw [e3, e6]; exact h.resultThere
      queueForm := by rw [State.pqCount, e9]; exact h.queueForm
      arenaSize := by rw [State.nodeCount, e10]; exact h.arenaSize }

/-- The queue's part of the invariant (40_priority_queue.md R135). -/
def QueueOk (q : List Entry) : Prop :=
  q.Pairwise (fun a b => keyBefore a b = true) ∧ (q.map Entry.node).Nodup ∧ q.length ≤ 256

theorem queueOk_nil : QueueOk [] := ⟨List.Pairwise.nil, List.Pairwise.nil, Nat.zero_le _⟩

theorem queueOk_singleton (e : Entry) : QueueOk [e] := ⟨List.pairwise_singleton _ _, List.nodup_singleton _, by simp⟩

theorem QueueOk.insert {q : List Entry} (h : QueueOk q) {e : Entry} (he : e.node ∉ q.map Entry.node) (hq : q.length < 256) :
    QueueOk (insertEntry e q) := by
  obtain ⟨hsorted, hnodup, _⟩ := h
  refine ⟨insertEntry_sorted hsorted fun hm => he (List.mem_map_of_mem hm), ?_, ?_⟩
  · rw [((insertEntry_perm e q).map Entry.node).nodup_iff, List.map_cons, List.nodup_cons]
    exact ⟨he, hnodup⟩
  · rw [insertEntry_length]; exact hq

theorem QueueOk.erase {q : List Entry} (h : QueueOk q) (e : Entry) : QueueOk (q.erase e) := by
  obtain ⟨hsorted, hnodup, hlen⟩ := h
  have hsub : (q.erase e).Sublist q := List.erase_sublist
  exact ⟨hsorted.sublist hsub, hnodup.sublist (hsub.map _), hsub.length_le.trans hlen⟩

/-- `n` bytes of OUTBUF have been written from 0. -/
def State.written (n : Word) (s : State) : Prop := ∀ i, i < n.toNat → (Memory.read? s.outbuf i).isSome = true

/-- The bytes of one write from 0 are written. -/
theorem written_of_writeBytes {n : Word} {s : State} {m : Memory} {bs : List Byte} (hl : bs.length = n.toNat)
    (h : s.outbuf = Memory.writeBytes m 0 bs) : s.written n := by
  intro i hi
  have hb := read?_writeBytes_inside bs m 0 i (hl ▸ hi)
  rw [Nat.zero_add, ← h] at hb
  rw [hb]; rfl

/-- A legal state in which a command is running. -/
structure State.Working (s : State) : Prop where
  inv     : s.Inv
  running : s.status = Status.running

/-- A legal state in which no command is running. -/
structure State.Ended (s : State) : Prop where
  inv  : s.Inv
  idle : s.status.busy = false

/-- While BUSY = 1 no other of the four STATUS values is possible (10_state.md R23). -/
theorem State.Inv.working {s : State} (h : s.Inv) (hb : s.status.busy = true) : s.Working := by
  refine ⟨h, ?_⟩
  have hl := h.statusLegal
  simp only [Status.legal, Bool.or_eq_true, beq_iff_eq, hb, Bool.not_true, Bool.false_and, Bool.false_eq_true, or_false] at hl
  rcases hl with (hidle | hrun) | hdone
  · rw [hidle] at hb; cases hb
  · exact hrun
  · rw [hdone] at hb; cases hb

section Working

variable {s t : State} (h : s.Working)
include h

theorem State.Working.congr (e : t.shape = s.shape) : t.Working :=
  ⟨h.inv.congr e, (congrArg (fun x => x.2.1) e).trans h.running⟩

theorem State.Working.busy : s.status.busy = true := by rw [h.running]; rfl

/-- A running block's queue and arena replaced, and the numbers of the micro-operation and its caller. -/
theorem State.Working.withQueue {p c : PhaseNum} {q : List Entry} {nodes : List Node} (hp : p.toNat ≤ 9) (hc : c.toNat ≤ 9)
    (hq : QueueOk q) (hn : nodes.length ≤ 511) :
    State.Working { s with phase := p, callerPhase := c, pq := q, node := nodes } :=
  ⟨{ h.inv with
      idlePhase := fun hb => absurd (h.busy.symm.trans hb) (by decide)
      phaseNamed := ⟨hp, hc⟩
      queueForm := hq
      arenaSize := hn },
    h.running⟩

theorem State.Working.setPhase {p : PhaseNum} (hp : p.toNat ≤ 9) : (setPhase p s).Working :=
  h.withQueue hp h.inv.phaseNamed.2 h.inv.queueForm h.inv.arenaSize

/-- A running block's OUTBUF written from 0 (20_memory.md R76). While BUSY = 1 OUT_LEN is 0, so no byte has to be there. -/
theorem State.Working.writeBytes {bs : List Byte} (hl : bs.length ≤ s.params.outMax) :
    State.Working { s with outbuf := Memory.writeBytes s.outbuf 0 bs } := by
  have hlen : s.outLen = 0#32 := h.inv.noResult (by rw [h.running]; decide)
  obtain ⟨hform, hbelow⟩ := h.inv.outbufForm
  exact ⟨{ h.inv with
      outbufForm := ⟨wf_writeBytes bs hform 0, below_writeBytes bs hbelow (Nat.zero_add _ ▸ hl)⟩
      resultThere := fun i hi => by rw [hlen] at hi; exact absurd hi (Nat.not_lt_zero i) },
    h.running⟩

/-- Fault entry at a place R260 gives the error (60_exceptions.md R270). -/
theorem State.Working.takeFault {e : ErrCode} {info : Word} {p : PhaseNum} (hp : s.phase = p) (hs : (e.code, p) ∈ faultSites) :
    (takeFault e info s).Ended :=
  ⟨{ h.inv with
      statusLegal := by simp [Status.legal, Status.failed, hp, hs]
      idlePhase := fun _ => rfl
      phaseNamed := ⟨Nat.zero_le _, h.inv.phaseNamed.2⟩
      noResult := fun _ => rfl
      noInfo := fun he => by cases he
      resultThere := fun i hi => absurd hi (Nat.not_lt_zero i) },
    rfl⟩

/-- The successful end of a command whose result has been written (46_codec_engine.md R236). -/
theorem State.Working.finish {n : Word} (hw : s.written n) : (finishCommand n s).Ended :=
  ⟨{ h.inv with
      statusLegal := rfl
      idlePhase := fun _ => rfl
      phaseNamed := ⟨Nat.zero_le _, h.inv.phaseNamed.2⟩
      noResult := fun hs => absurd rfl hs
      noInfo := fun _ => rfl
      resultThere := hw },
    rfl⟩

end Working

/-! ## The invariant and the micro-operations -/

/-- What a run of micro-operation `i` does in a running block: it leaves the block running, with the result of a command's last
micro-operation written, or a fault ends the command. -/
def Run.Keeps (i : Instr) (x : Run State) : Prop :=
  x.Does (fun t => t.Working ∧ t.written (resultLength i t)) State.Ended True

theorem written_zero (t : State) : t.written 0#32 := fun i hi => absurd hi (Nat.not_lt_zero i)

section Micro

variable {s t : State} (h : s.Working)
include h

/-- The move to a micro-operation that then changes nothing the invariant speaks of. -/
theorem State.Working.moved {p : PhaseNum} (hp : p.toNat ≤ 9) (e : t.shape = (Machine.setPhase p s).shape) : t.Working :=
  (h.setPhase hp).congr e

/-- The same, ended by a fault. -/
theorem State.Working.movedFault {p : PhaseNum} {er : ErrCode} {info : Word} (hp : p.toNat ≤ 9)
    (e : t.shape = (Machine.setPhase p s).shape) (hs : (er.code, p) ∈ faultSites) : (Machine.takeFault er info t).Ended := by
  have hphase : t.phase = p := congrArg (fun x => x.2.2.2.2.2.2.1) e
  exact (h.moved hp e).takeFault hphase hs

theorem State.Working.pqPush : Run.Keeps .pqPush (pqPush s) := by
  refine (pqPush_does s).weaken (fun t ⟨ht, hnew, hroom⟩ => ⟨?_, written_zero t⟩) (fun t ht => ht.elim)
  have hq := QueueOk.insert h.inv.queueForm (e := { weight := s.pushWeight, node := s.pushNode }) hnew hroom
  rw [ht]
  exact h.withQueue h.inv.phaseNamed.2 h.inv.phaseNamed.2 hq h.inv.arenaSize

theorem State.Working.pqPopMin : Run.Keeps .pqPopMin (pqPopMin s) := by
  refine (pqPopMin_does s).weaken (fun t ⟨e, ht⟩ => ⟨?_, written_zero t⟩) (fun t ht => ?_)
  · have hq := QueueOk.erase h.inv.queueForm e
    exact (h.withQueue h.inv.phaseNamed.2 h.inv.phaseNamed.2 hq h.inv.arenaSize).congr ((congrArg State.shape ht).trans rfl)
  · rw [ht]
    exact h.movedFault (p := 0x3#4) (by decide) rfl (by decide)

/-- BUILD_TREE leaves one entry in the queue and at most 511 nodes (41_tree_builder.md R145, R147). -/
theorem State.Working.buildTree : Run.Keeps .buildTree (buildTree s) := by
  refine (buildTree_does s).weaken (fun t ⟨ht, hg, hc⟩ => ⟨?_, written_zero t⟩) (fun t ht => ?_)
  · obtain ⟨e, he⟩ := List.length_eq_one_iff.1 hg.single
    have hcaller : t.callerPhase.toNat ≤ 9 := by
      rcases hc with hc | hc
      · rw [hc]; exact h.inv.phaseNamed.2
      · rw [hc]; decide
    have hq : QueueOk t.pq := he ▸ queueOk_singleton e
    exact (h.withQueue (p := 0x4#4) (by decide) hcaller hq hg.length_lt).congr ((congrArg State.shape ht).trans rfl)
  · have hempty := h.withQueue (p := 0x4#4) (nodes := []) (by decide) h.inv.phaseNamed.2 queueOk_nil (Nat.zero_le _)
    rw [ht]
    exact hempty.takeFault (p := 0x4#4) rfl (by decide)

theorem State.Working.serialize : Run.Keeps .serialize (serialize s) := by
  refine (serialize_does s).weaken (fun t ⟨ht, hroom, bs, hl, hw⟩ => ⟨?_, written_of_writeBytes hl hw⟩)
    (fun t ⟨u, ht, hu⟩ => ?_)
  · have hput := (h.setPhase (p := 0x7#4) (by decide)).writeBytes (bs := bs) (hl ▸ hroom)
    refine hput.congr ((congrArg State.shape ht).trans ?_)
    rw [hw]; rfl
  · rw [ht]
    exact h.movedFault (p := 0x7#4) (by decide) ((congrArg State.shape hu).trans rfl) (by decide)

/-- A block in DECODE, however far its loop has gone. -/
theorem State.Working.decoding (hd : Decoding { s with phase := 0x9#4, expected := s.freqSum, draws := t.draws } t) :
    t.Working := by
  obtain ⟨bs, hl, hw⟩ := hd.written
  have hput := (h.setPhase (p := 0x9#4) (by decide)).writeBytes (bs := bs) (hl ▸ hd.room)
  refine hput.congr ((congrArg State.shape hd.frame).trans ?_)
  rw [hw]; rfl

theorem State.Working.decodePayload : Run.Keeps .decode (decodePayload s) := by
  refine (decodePayload_does s).weaken (fun t ht => ⟨h.decoding ht, ?_⟩) (fun t ⟨e, _, u, he, ht, hu⟩ => ?_)
  · obtain ⟨bs, hl, hw⟩ := ht.written
    exact written_of_writeBytes hl hw
  · have hsite : ∀ e ∈ walkErrors, (e.code, (0x9#4 : PhaseNum)) ∈ faultSites := by decide
    have hp : u.phase = 0x9#4 := by rw [hu.frame]
    rw [ht]
    exact (h.decoding hu).takeFault hp (hsite e he)

/-- Every micro-operation keeps the block running in a legal state, or ends the command by a fault of R260. -/
theorem State.Working.micro {i : Instr} (hi : i.slot = .phase) : Run.Keeps i (pseudocode i s) := by
  cases i with
  | compress => cases hi
  | decompress => cases hi
  | freqScan =>
    refine (freqScan_does s).weaken (fun t ht => ⟨?_, written_zero t⟩) (fun t ht => ht.elim)
    exact h.moved (p := 0x1#4) (by decide) ((congrArg State.shape ht).trans rfl)
  | pqPush => exact h.pqPush
  | pqPopMin => exact h.pqPopMin
  | buildTree => exact h.buildTree
  | genCodes =>
    refine (genCodes_does s).weaken (fun t ⟨ht, _⟩ => ⟨?_, written_zero t⟩) (fun t ht => ht.elim)
    exact h.moved (p := 0x5#4) (by decide) ((congrArg State.shape ht).trans rfl)
  | encode =>
    refine (encodeInput_does s).weaken (fun t ht => ⟨?_, written_zero t⟩) (fun t ⟨_, u, ht, hu⟩ => ?_)
    · exact h.moved (p := 0x6#4) (by decide) ((congrArg State.shape ht).trans rfl)
    · rw [ht]
      exact h.movedFault (p := 0x6#4) (by decide) ((congrArg State.shape hu).trans rfl) (by decide)
  | serialize => exact h.serialize
  | deserialize =>
    refine (deserialize_does s).weaken (fun t ⟨ht, _⟩ => ⟨?_, written_zero t⟩) (fun t ⟨e, _, u, he, ht, hu⟩ => ?_)
    · exact h.moved (p := 0x8#4) (by decide) ((congrArg State.shape ht).trans rfl)
    · have hsite : ∀ e ∈ readErrors, (e.code, (0x8#4 : PhaseNum)) ∈ faultSites := by decide
      rw [ht]
      exact h.movedFault (p := 0x8#4) (by decide) ((congrArg State.shape hu).trans rfl) (hsite e he)
  | decode => exact h.decodePayload

/-- After an instruction the command has ended, or the block is still running, as after a micro-operation. -/
theorem State.Working.exec {i : Instr} (he : exec i s = .next t) : t.Ended ∨ t.Working ∧ t.written (resultLength i t) := by
  have h0 := h.setPhase (p := 0x0#4) (by decide)
  have hfault := h.movedFault (p := 0x0#4) (er := .capacity) (info := 1#32) (by decide) rfl (by decide)
  rw [exec_eq_outcome] at he
  cases hi : i.slot with
  | phase => exact ((h.micro hi).next he).symm
  | cmd =>
    cases i with
    | compress =>
      rcases (compress_does h0 hfault fun i t hi ht => ht.micro hi).next he with ⟨u, hu, hw, rfl⟩ | ht
      · exact .inl (hu.finish hw)
      · exact .inl ht
    | decompress =>
      rcases (decompress_does h0 hfault fun i t hi ht => ht.micro hi).next he with ⟨u, hu, hw, rfl⟩ | ht
      · exact .inl (hu.finish hw)
      · exact .inl ht
    | _ => cases hi

end Micro

/-! ## The invariant and the sequencer -/

theorem State.Inv.ite {a b : State} (ha : a.Inv) (hb : b.Inv) {c : Prop} {_ : Decidable c} : (if c then a else b).Inv := by
  split
  · exact ha
  · exact hb

theorem mapNext_eq_next {f : State → State} {o : Host.Outcome State Fault Refusal} {t : State} (h : mapNext f o = .next t) :
    ∃ u, o = .next u ∧ f u = t := by
  cases o with
  | next u => exact ⟨u, rfl, Host.Outcome.next.inj h⟩
  | fault r => cases h
  | refused r => cases h

theorem State.Inv.drawSlots {s : State} (h : s.Inv) : (drawSlots s).Inv := by
  unfold Machine.drawSlots
  split
  · exact h.congr rfl
  · exact h

/-- The sequencer's move (10_state.md R38): to the next micro-operation, or the successful end of the command. -/
theorem State.Working.advance {s : State} (h : s.Working) {i : Instr} (hw : s.written (resultLength i s)) : (advance i s).Inv := by
  have moved : ∀ p : PhaseNum, p.toNat ≤ 9 → (Machine.setPhase p s).Inv := fun p hp => (h.setPhase hp).inv
  cases i with
  | compress => exact h.inv
  | decompress => exact h.inv
  | pqPush => exact h.inv
  | pqPopMin => exact h.inv
  | freqScan => exact State.Inv.ite (moved 0x4#4 (by decide)) h.inv
  | deserialize => exact State.Inv.ite (moved 0x4#4 (by decide)) h.inv
  | buildTree => exact State.Inv.ite (moved 0x5#4 (by decide)) h.inv
  | genCodes => exact State.Inv.ite (moved 0x6#4 (by decide)) (State.Inv.ite (moved 0x9#4 (by decide)) h.inv)
  | encode => exact State.Inv.ite (moved 0x7#4 (by decide)) h.inv
  | serialize => exact State.Inv.ite (h.finish hw).inv h.inv
  | decode => exact State.Inv.ite (h.finish hw).inv h.inv

/-- Dispatch by steps (46_codec_engine.md R232): the length test, then the first micro-operation. -/
theorem dispatchFirst_does (s : State) :
    (dispatchFirst s).Does (fun t => t = setPhase (firstPhase s.op) s) (fun t => t = takeFault .capacity 1#32 s) True := by
  refine (checkLength_does s).bind fun t ht => ?_
  rw [ht]
  exact Run.Does.pure rfl

theorem firstPhase_le (op : Word) : (firstPhase op).toNat ≤ 9 := by
  unfold firstPhase
  split
  · decide
  · decide

/-- Every move of the engine keeps the invariant. -/
theorem State.Working.engineStep {s t : State} (h : s.Working) (he : engineStep s = .next t) : t.Inv := by
  by_cases hp : s.phase = 0x0#4
  · rw [Machine.engineStep, if_pos hp] at he
    cases hd : decodeCmd s.op with
    | error r =>
      rw [hd] at he
      cases he
      exact (h.takeFault hp (by decide)).inv
    | ok i =>
      simp only [hd] at he
      split at he
      · obtain ⟨u, hu, rfl⟩ := mapNext_eq_next he
        rcases (dispatchFirst_does s).next hu with rfl | rfl
        · exact (h.setPhase (firstPhase_le _)).inv.drawSlots
        · exact (h.takeFault hp (by decide)).inv.drawSlots
      · exact (h.exec he).elim State.Ended.inv fun hw => hw.1.inv
  · cases hd : decodePhase s.phase with
    | error r => simp only [Machine.engineStep, if_neg hp, hd] at he; cases he
    | ok i =>
      rw [engineStep_micro hp hd] at he
      obtain ⟨u, hu, rfl⟩ := mapNext_eq_next he
      rw [afterMicro]
      rcases h.exec hu with hend | ⟨hwork, hwritten⟩
      · rw [hend.idle]; exact hend.inv.drawSlots
      · rw [if_pos hwork.busy]; exact (hwork.advance hwritten).drawSlots

/-! ## The invariant and the host -/

/-- A block whose registers and working state are those of reset, whatever its capacities. -/
theorem reset_inv (p : Params) : State.Inv { State.reset with params := p } where
  inbufForm := ⟨List.Pairwise.nil, fun _ hc => absurd hc List.not_mem_nil⟩
  outbufForm := ⟨List.Pairwise.nil, fun _ hc => absurd hc List.not_mem_nil⟩
  statusLegal := rfl
  idlePhase _ := rfl
  phaseNamed := ⟨Nat.zero_le _, Nat.zero_le _⟩
  noResult _ := rfl
  noInfo _ := rfl
  resultThere i hi := absurd hi (Nat.not_lt_zero i)
  queueForm := queueOk_nil
  arenaSize := Nat.zero_le _

section Host

variable {s t : State} (h : s.Inv)
include h

/-- Command start (46_codec_engine.md R231). -/
theorem State.Inv.startCommand (v : Word) : (startCommand v s).Inv :=
  { inbufForm := h.inbufForm
    outbufForm := h.outbufForm
    statusLegal := rfl
    idlePhase := fun _ => rfl
    phaseNamed := ⟨Nat.zero_le _, Nat.zero_le _⟩
    noResult := fun _ => rfl
    noInfo := fun _ => rfl
    resultThere := fun i hi => absurd hi (Nat.not_lt_zero i)
    queueForm := queueOk_nil
    arenaSize := Nat.zero_le _ }

theorem State.Inv.writeRegister (off : Nat) (v : Word) : (writeRegister off v s).Inv := by
  unfold Machine.writeRegister
  split
  · exact (h.startCommand v).congr rfl
  · split
    · exact h.congr rfl
    · exact h

/-- InWrite below IN_MAX (20_memory.md R62). -/
theorem State.Inv.writeInput {i : Nat} (hi : i < s.params.inMax) (b : Byte) :
    State.Inv { s with inbuf := Memory.write s.inbuf i b } := by
  obtain ⟨hform, hbelow⟩ := h.inbufForm
  refine { h with inbufForm := ⟨wf_write hform i b, fun c hc => ?_⟩ }
  rcases mem_write hc with rfl | hc
  · exact hi
  · exact hbelow c hc

theorem State.Inv.readOutput (i : Nat) : (readOutput i s).Inv := by
  unfold Machine.readOutput
  split
  · exact h.congr rfl
  · exact h.congr rfl

/-- Every access of the host keeps the invariant. -/
theorem State.Inv.serve {a : Access} (he : serve a s = .next t) : t.Inv := by
  have guarded : ∀ {c : Prop} [Decidable c] {u : State} {r : Refusal}, (c → u.Inv) →
      (if c then Host.Outcome.next u else .refused r) = (.next t : Host.Outcome State Fault Refusal) → t.Inv := by
    intro c _ u r hu hc
    split at hc
    · rename_i hguard
      cases hc
      exact hu hguard
    · cases hc
  cases a with
  | regRead width off => exact guarded (fun _ => by exact h.congr rfl) he
  | regWrite width off v => exact guarded (fun _ => State.Inv.ite h (h.writeRegister off v)) he
  | inWrite i b => exact guarded (fun hi => State.Inv.ite h (h.writeInput hi b)) he
  | inRead i => exact guarded (fun _ => by exact h.congr rfl) he
  | outRead i => exact guarded (fun _ => h.readOutput i) he
  | poll thenResult => cases he; exact h.congr rfl
  | readResult => cases he; exact h.congr rfl
  | reset => cases he; exact (reset_inv s.params).congr rfl

theorem State.Inv.hostTurn (he : hostTurn s = .next t) : t.Inv := by
  unfold Machine.hostTurn at he
  split at he
  · cases he; exact h
  · rename_i a rest _
    have hs : State.Inv { s with host := rest, slots := s.slots - 1 } := h.congr rfl
    exact hs.serve he

end Host

/-- Settles O58. -/
theorem resetInvariant : Obligations.ResetInvariant := reset_inv Config.params

/-- Settles O59: a step is a move of the engine in a running block, or the host's. -/
theorem stepKeepsInvariant : Obligations.StepKeepsInvariant := by
  intro s t h he
  unfold step at he
  split at he
  · rename_i hturn
    have hb : s.status.busy = true := by
      rw [engineTurn, Bool.and_eq_true] at hturn
      exact hturn.1
    exact (h.working hb).engineStep he
  · exact h.hostTurn he

end Sys2Proof.Machine

/-!
The proofs of the statements about the buffers and the host's accesses to them (20_memory.md): what each access does, and that a block
driven as the spec says never stops.
-/
namespace Sys2Proof.Machine

/-! ## The host's accesses to the buffers -/

theorem step_noHost {s : State} (ht : engineTurn s = false) (hh : s.host = []) : step s = .next s := by
  simp only [step, ht, Bool.false_eq_true, if_false, hostTurn, hh]

/-- Settles O7. -/
theorem stepServesHost : Obligations.StepServesHost :=
  fun _ ht => ⟨step_noHost ht, fun _ _ hh => step_host ht hh⟩

/-- A byte of INBUF after a write of it or of another (20_memory.md R62). -/
theorem inByte_writeInput (s : State) (i a : Nat) (b : Byte) :
    State.inByte { s with inbuf := Memory.write s.inbuf i b } a = if a = i then b else s.inByte a := by
  unfold State.inByte
  rw [read?_write]
  split
  · rfl
  · rfl

/-- OutRead below OUT_LEN of a byte that has been written (10_state.md R29). -/
theorem readOutput_below {s : State} {i : Nat} {b : Byte} (hi : i < s.outLen.toNat) (hb : Memory.read? s.outbuf i = some b) :
    readOutput i s = { s with seen := .outByte i b :: s.seen } := by
  rw [readOutput, if_pos hi, hb]

/-- OutRead at or above OUT_LEN (R29; log 3). -/
theorem readOutput_above {s : State} {i : Nat} (hi : s.outLen.toNat ≤ i) :
    readOutput i s = { s with seen := .outByte i (Config.undefinedOutput s.draws) :: s.seen, draws := s.draws + 1 } := by
  rw [readOutput, if_neg (Nat.not_lt.2 hi)]

/-- Settles O11: each access by what `serve` does below its capacity, and at or above it. -/
theorem bufferAccess : Obligations.BufferAccess := by
  intro s rest ht
  refine ⟨fun i b hh hi hb => ?_, fun i b hh hi hb => ?_, fun i hh hi => ?_, fun i b hh hi ho hr => ?_, fun i hh hi ho => ?_,
    fun i b hh hi => ?_, fun i hh hi => ?_, fun i hh hi => ?_⟩
  · refine ⟨{ s with host := rest, slots := s.slots - 1, inbuf := Memory.write s.inbuf i b }, ?_, rfl, fun a => ?_⟩
    · rw [step_host ht hh, serve, if_pos hi, hb]; rfl
    · exact inByte_writeInput s i a b
  · rw [step_host ht hh, serve, if_pos hi, hb]; rfl
  · rw [step_host ht hh]; exact if_pos hi
  · rw [step_host ht hh, serve, if_pos hi]; exact congrArg _ (readOutput_below ho hr)
  · rw [step_host ht hh, serve, if_pos hi]; exact congrArg _ (readOutput_above ho)
  · rw [step_host ht hh]; exact if_neg (Nat.not_lt.2 hi)
  · rw [step_host ht hh]; exact if_neg (Nat.not_lt.2 hi)
  · rw [step_host ht hh]; exact if_neg (Nat.not_lt.2 hi)

/-! ## Runs that never stop -/

/-- A run that comes to its end with `R`, or that a fault of the block ends together with the command: it never stops. -/
def Run.Completes {α : Type} (R : α → Prop) (x : Run α) : Prop := x.Does R (fun t => t.status.busy = false) False

theorem Run.Completes.weaken {α : Type} {R R' : α → Prop} {x : Run α} (h : x.Completes R) (hR : ∀ t, R t → R' t) : x.Completes R' :=
  h.mono hR (fun _ => id) id

/-- A run that completes answers a next state. -/
theorem Run.Completes.next {R : State → Prop} {x : Run State} (h : x.Completes R) :
    ∃ t, x.outcome = .next t ∧ (R t ∨ t.status.busy = false) := Run.Does.completes h id

/-- IN_LEN has passed the length test of dispatch (46_codec_engine.md R232); and, where `payload` is set, the payload lies inside the
input (45_container.md R210). The engine's accesses then stay inside the buffers (20_memory.md R76). -/
def State.Inside (payload : Bool) (s : State) : Prop :=
  s.inLen.toNat ≤ s.params.inMax ∧ (payload = true → s.payOff.toNat + ceil8 s.nbits.toNat ≤ s.inLen.toNat)

theorem serialize_completes (s : State) : (serialize s).Completes fun _ => True :=
  (serialize_does s).mono (fun _ _ => trivial) (fun t ⟨_, ht, _⟩ => by rw [ht]; rfl) id

section Micro

variable {s : State} {payload : Bool} (h : s.Inside payload)
include h

theorem State.Inside.freqScan : (freqScan s).Completes (State.Inside false) :=
  (freqScan_does s).mono (fun t ht => by rw [ht]; exact ⟨h.1, nofun⟩) (fun _ ht => ht.elim) (Nat.not_lt.2 h.1)

theorem State.Inside.encode : (encodeInput s).Completes (State.Inside false) :=
  (encodeInput_does s).mono (fun t ht => by rw [ht]; exact ⟨h.1, nofun⟩) (fun t ⟨_, _, ht, _⟩ => by rw [ht]; rfl)
    (Nat.not_lt.2 h.1)

theorem State.Inside.deserialize : (deserialize s).Completes (State.Inside true) :=
  (deserialize_does s).mono (fun t ⟨ht, hp⟩ => by rw [ht]; exact ⟨h.1, fun _ => hp⟩)
    (fun t ⟨_, _, _, _, ht, _⟩ => by rw [ht]; rfl) (Nat.not_lt.2 h.1)

theorem State.Inside.buildTree : (buildTree s).Completes (State.Inside payload) :=
  (buildTree_does s).mono (fun t ⟨ht, _⟩ => by rw [ht]; exact h) (fun t ht => by rw [ht]; rfl) id

theorem State.Inside.genCodes : (genCodes s).Completes (State.Inside payload) :=
  (genCodes_does s).mono (fun t ⟨ht, _⟩ => by rw [ht]; exact h) (fun _ ht => ht.elim) id

end Micro

theorem State.Inside.decode {s : State} (h : s.Inside true) : (decodePayload s).Completes fun _ => True :=
  (decodePayload_does s).mono (fun _ _ => trivial) (fun t ⟨_, _, _, _, ht, _⟩ => by rw [ht]; rfl)
    (not_not_intro ⟨h.2 rfl, h.1⟩)

/-- The length test passes on, or ends the command (R232). -/
theorem checkLength_completes (s : State) : (checkLength s).Completes (State.Inside false) := by
  unfold checkLength
  split
  · exact raise_does rfl
  · rename_i h
    exact Run.Does.pure ⟨Nat.le_of_not_lt h, nofun⟩

/-- COMPRESS as one transition ends, whatever the input (46_codec_engine.md R234). -/
theorem compress_completes (s : State) : (compress s).Completes fun t => t.status.busy = false :=
  (checkLength_completes _).bind fun _ ha => ha.freqScan.bind fun _ hb => hb.buildTree.bind fun _ hc =>
    hc.genCodes.bind fun _ hd => hd.encode.bind fun e _ => (serialize_completes e).bind fun _ _ => Run.Does.pure rfl

/-- DECOMPRESS as one transition ends, whatever the input (R235). -/
theorem decompress_completes (s : State) : (decompress s).Completes fun t => t.status.busy = false :=
  (checkLength_completes _).bind fun _ ha => ha.deserialize.bind fun _ hb => hb.buildTree.bind fun _ hc =>
    hc.genCodes.bind fun _ hd => hd.decode.bind fun _ _ => Run.Does.pure rfl

/-! ## The sequencer stays on its course -/

/-- While the command goes on, the sequencer is on its course. -/
def State.Steered (s : State) : Prop := s.status.busy = true → s.onCourse

theorem steered_compress {s : State} {p : PhaseNum} (hop : s.op = 0x00000001#32) (hi : s.Inside false)
    (hp : p ∈ [0x1#4, 0x4#4, 0x5#4, 0x6#4, 0x7#4]) : (setPhase p s).Steered :=
  fun _ => .inr ⟨hi.1, .inl ⟨hop, hp⟩⟩

theorem steered_decompress {s : State} {p : PhaseNum} (hop : s.op = 0x00000002#32) (hi : s.Inside true)
    (hp : p ∈ [0x4#4, 0x5#4, 0x9#4]) : (setPhase p s).Steered :=
  fun _ => .inr ⟨hi.1, .inr (.inr ⟨hop, hp, hi.2 rfl⟩)⟩

theorem steered_idle {s : State} (h : s.status.busy = false) : s.Steered := fun hb => absurd (h.symm.trans hb) (by decide)

/-- What PHASE names is a micro-operation that completes, and the sequencer's move after it, in the same command, is on course. -/
def State.Continues (s : State) : Prop :=
  ∃ i, decodePhase s.phase = .ok i ∧ (pseudocode i s).Completes fun t => t.op = s.op → (advance i t).Steered

/-- A micro-operation of COMPRESS and the sequencer's move after it (R234). -/
theorem continues_compress {s : State} (hop : s.op = 0x00000001#32) (hi : s.Inside false)
    (hp : s.phase ∈ [0x1#4, 0x4#4, 0x5#4, 0x6#4, 0x7#4]) : s.Continues := by
  simp only [List.mem_cons, List.not_mem_nil, or_false] at hp
  rw [State.Continues, hop]
  rcases hp with hp | hp | hp | hp | hp <;> rw [hp]
  · refine ⟨.freqScan, rfl, hi.freqScan.weaken fun t ht hop => ?_⟩
    rw [advance, if_pos hop]; exact steered_compress hop ht (by decide)
  · refine ⟨.buildTree, rfl, hi.buildTree.weaken fun t ht hop => ?_⟩
    rw [advance, if_pos (.inl hop)]; exact steered_compress hop ht (by decide)
  · refine ⟨.genCodes, rfl, hi.genCodes.weaken fun t ht hop => ?_⟩
    rw [advance, if_pos hop]; exact steered_compress hop ht (by decide)
  · refine ⟨.encode, rfl, hi.encode.weaken fun t ht hop => ?_⟩
    rw [advance, if_pos hop]; exact steered_compress hop ht (by decide)
  · refine ⟨.serialize, rfl, (serialize_completes s).weaken fun t _ hop => ?_⟩
    rw [advance, if_pos hop]; exact steered_idle rfl

/-- DESERIALIZE and the sequencer's move after it: from here on the payload is inside the input (R235, 45_container.md R210). -/
theorem continues_deserialize {s : State} (hop : s.op = 0x00000002#32) (hi : s.Inside false) (hp : s.phase = 0x8#4) : s.Continues := by
  rw [State.Continues, hop, hp]
  refine ⟨.deserialize, rfl, hi.deserialize.weaken fun t ht hop => ?_⟩
  rw [advance, if_pos hop]; exact steered_decompress hop ht (by decide)

/-- A later micro-operation of DECOMPRESS and the sequencer's move after it (R235). -/
theorem continues_decompress {s : State} (hop : s.op = 0x00000002#32) (hi : s.Inside true) (hp : s.phase ∈ [0x4#4, 0x5#4, 0x9#4]) :
    s.Continues := by
  simp only [List.mem_cons, List.not_mem_nil, or_false] at hp
  rw [State.Continues, hop]
  rcases hp with hp | hp | hp <;> rw [hp]
  · refine ⟨.buildTree, rfl, hi.buildTree.weaken fun t ht hop => ?_⟩
    rw [advance, if_pos (.inr hop)]; exact steered_decompress hop ht (by decide)
  · refine ⟨.genCodes, rfl, hi.genCodes.weaken fun t ht hop => ?_⟩
    rw [advance, if_neg (by rw [hop]; decide), if_pos hop]; exact steered_decompress hop ht (by decide)
  · refine ⟨.decode, rfl, hi.decode.weaken fun t _ hop => ?_⟩
    rw [advance, if_pos hop]; exact steered_idle rfl

/-- On its course, at a PHASE above 0, the sequencer goes on. -/
theorem State.onCourse.continues {s : State} (h : s.onCourse) (hp : s.phase ≠ 0x0#4) : s.Continues := by
  rcases h with h0 | ⟨hlen, ⟨hop, hphase⟩ | ⟨hop, hphase⟩ | ⟨hop, hphase, hpay⟩⟩
  · exact absurd h0 hp
  · exact continues_compress hop ⟨hlen, nofun⟩ hphase
  · exact continues_deserialize hop ⟨hlen, nofun⟩ hphase
  · exact continues_decompress hop ⟨hlen, fun _ => hpay⟩ hphase

/-! ## The engine's move -/

/-- What `State.Ready` asks for beside the invariant. -/
def State.Driven (s : State) : Prop := s.Steered ∧ s.scriptOk

theorem State.scriptOk.congr {s t : State} (h : s.scriptOk) (hp : t.params = s.params) (hh : t.host = s.host) : t.scriptOk := by
  unfold State.scriptOk
  rw [hp, hh]
  exact h

theorem exec_scriptOk {i : Instr} {s t : State} (h : s.scriptOk) (he : exec i s = .next t) : t.scriptOk := by
  obtain ⟨_, _, hparams, _, hhost, _⟩ := noInstructionWritesInput i s t he
  exact h.congr hparams hhost

theorem advance_scriptOk {i : Instr} {s : State} (h : s.scriptOk) : (advance i s).scriptOk := by
  unfold advance
  repeat' split
  all_goals exact h

theorem State.Driven.drawSlots {s : State} (h : s.Driven) : (drawSlots s).Driven := by
  unfold Machine.drawSlots
  split
  · exact h
  · exact h

/-- The two legal command words (30_encoding.md R92). -/
theorem decodeCmd_eq_ok {w : Word} {i : Instr} (h : decodeCmd w = .ok i) :
    w = 0x00000001#32 ∧ i = .compress ∨ w = 0x00000002#32 ∧ i = .decompress := by
  unfold decodeCmd at h
  split at h
  · rename_i hw; exact .inl ⟨hw, (Except.ok.inj h).symm⟩
  · split at h
    · rename_i hw; exact .inr ⟨hw, (Except.ok.inj h).symm⟩
    · cases h

/-- The first micro-operation of a legal command is on its course (R234, R235). -/
theorem steered_first {s : State} {i : Instr} (hd : decodeCmd s.op = .ok i) (hl : s.inLen.toNat ≤ s.params.inMax) :
    (setPhase (firstPhase s.op) s).Steered := by
  rcases decodeCmd_eq_ok hd with ⟨hop, _⟩ | ⟨hop, _⟩
  · rw [firstPhase, if_pos hop]
    exact steered_compress hop ⟨hl, nofun⟩ (by decide)
  · rw [firstPhase, if_neg (by rw [hop]; decide)]
    exact fun _ => .inr ⟨hl, .inr (.inl ⟨hop, rfl⟩)⟩

/-- Dispatch of a legal command by steps moves on, or ends the command by CapacityError (R232). -/
theorem dispatchFirst_next {s : State} {i : Instr} (hd : decodeCmd s.op = .ok i) (hs : s.scriptOk) :
    ∃ t, (dispatchFirst s).outcome = .next t ∧ t.Driven := by
  by_cases hl : s.inLen.toNat ≤ s.params.inMax
  · exact ⟨setPhase (firstPhase s.op) s, by rw [dispatchFirst, checkLength_ok hl]; rfl, steered_first hd hl, hs⟩
  · exact ⟨takeFault .capacity 1#32 s, by rw [dispatchFirst, checkLength_long (Nat.lt_of_not_le hl)]; rfl, steered_idle rfl, hs⟩

/-- A command as one transition ends (R234, R235). -/
theorem exec_command_ends {s : State} {i : Instr} (hd : decodeCmd s.op = .ok i) :
    ∃ t, exec i s = .next t ∧ t.status.busy = false := by
  have hrun : (pseudocode i s).Completes fun t => t.status.busy = false := by
    rcases decodeCmd_eq_ok hd with ⟨_, rfl⟩ | ⟨_, rfl⟩
    · exact compress_completes s
    · exact decompress_completes s
  obtain ⟨t, ht, hidle⟩ := hrun.next
  exact ⟨t, by rw [exec_eq_outcome, ht], hidle.elim id id⟩

/-- After a micro-operation that ran to its end, or that ended the command by a fault. -/
theorem afterMicro_driven {i : Instr} {s : State} (h : (advance i s).Steered ∨ s.status.busy = false) (hs : s.scriptOk) :
    (afterMicro i s).Driven := by
  rcases h with hnext | hidle
  · unfold afterMicro
    split
    · exact ⟨hnext, advance_scriptOk hs⟩
    · rename_i hb
      exact ⟨fun hbusy => absurd hbusy hb, hs⟩
  · rw [afterMicro, hidle]
    exact ⟨steered_idle hidle, hs⟩

/-- The engine's move in a block driven as the spec says: dispatch, or the micro-operation PHASE names. -/
theorem State.Driven.engineStep {s : State} (h : s.Driven) (hb : s.status.busy = true) :
    ∃ t, engineStep s = .next t ∧ t.Driven := by
  obtain ⟨hcourse, hs⟩ := h
  by_cases hp : s.phase = 0x0#4
  · rw [Machine.engineStep, if_pos hp]
    cases hd : decodeCmd s.op with
    | error r => exact ⟨_, rfl, steered_idle rfl, hs⟩
    | ok i =>
      dsimp only
      split
      · obtain ⟨t, ht, hdriven⟩ := dispatchFirst_next hd hs
        exact ⟨Machine.drawSlots t, by rw [ht]; rfl, hdriven.drawSlots⟩
      · obtain ⟨t, ht, hidle⟩ := exec_command_ends hd
        exact ⟨t, ht, steered_idle hidle, exec_scriptOk hs ht⟩
  · obtain ⟨i, hi, hrun⟩ := (hcourse hb).continues hp
    obtain ⟨t, ht, hend⟩ := hrun.next
    rw [← exec_eq_outcome] at ht
    obtain ⟨_, _, _, hop, _⟩ := noInstructionWritesInput i s t ht
    refine ⟨Machine.drawSlots (afterMicro i t), by rw [engineStep_micro hp hi, ht]; rfl, State.Driven.drawSlots ?_⟩
    exact afterMicro_driven (hend.imp_left fun hnext => hnext hop) (exec_scriptOk hs ht)

/-! ## The host's turn -/

section Host

variable {s : State} (h : s.Driven)
include h

/-- A CMD write begins at dispatch (46_codec_engine.md R231); IN_LEN is written only while no command is on its course. -/
theorem State.Driven.writeRegister (hb : s.status.busy = false) (off : Nat) (v : Word) : (writeRegister off v s).Driven := by
  unfold Machine.writeRegister
  split
  · exact ⟨fun _ => .inl rfl, h.2⟩
  · split
    · exact ⟨steered_idle hb, h.2⟩
    · exact h

theorem State.Driven.readOutput (i : Nat) : (readOutput i s).Driven := by
  unfold Machine.readOutput
  split
  · exact h
  · exact h

/-- The accesses put in front of the script have a meaning when each of them has. -/
theorem State.Driven.prepend {as : List Access} {seen : List Seen} (ha : ∀ a ∈ as, a.wellFormed s.params = true) :
    State.Driven { s with seen := seen, host := as ++ s.host } :=
  ⟨h.1, fun a hm => (List.mem_append.1 hm).elim (ha a) (h.2 a)⟩

/-- POLL (30_encoding.md R107, R108). -/
theorem State.Driven.pollStatus (thenResult : Bool) : (pollStatus thenResult s).Driven := by
  refine h.prepend ?_
  repeat' split
  all_goals simp [Access.wellFormed, regAccessOk]

/-- The result's bytes lie below OUT_MAX, since each has been written (10_state.md R29). -/
theorem State.Driven.readResult (hi : s.Inv) : (readResult s).Driven := by
  refine h.prepend fun a ha => ?_
  obtain ⟨i, hlt, rfl⟩ := List.mem_map.1 ha
  obtain ⟨b, hb⟩ := Option.isSome_iff_exists.1 (hi.resultThere i (List.mem_range.1 hlt))
  exact decide_eq_true (hi.outbufForm.2 _ (mem_of_read? hb))

/-- Every access the spec gives a meaning is served (93_implementation_defined.md U9). -/
theorem State.Driven.serve (hi : s.Inv) {a : Access} (ha : a.wellFormed s.params = true) : ∃ t, serve a s = .next t ∧ t.Driven := by
  cases a with
  | regRead width off => exact ⟨_, if_pos ha, h⟩
  | regWrite width off v =>
    refine ⟨_, if_pos ha, ?_⟩
    split
    · exact h
    · rename_i hb; exact h.writeRegister (Bool.not_eq_true _ ▸ hb) off v
  | inWrite i b =>
    refine ⟨_, if_pos (of_decide_eq_true ha), ?_⟩
    split
    · exact h
    · exact h
  | inRead i => exact ⟨_, if_pos (of_decide_eq_true ha), h⟩
  | outRead i => exact ⟨_, if_pos (of_decide_eq_true ha), h.readOutput i⟩
  | poll thenResult => exact ⟨_, rfl, h.pollStatus thenResult⟩
  | readResult => exact ⟨_, rfl, h.readResult hi⟩
  | reset => exact ⟨_, rfl, steered_idle rfl, h.2⟩

theorem State.Driven.hostTurn (hi : s.Inv) : ∃ t, hostTurn s = .next t ∧ t.Driven := by
  unfold Machine.hostTurn
  split
  · exact ⟨s, rfl, h⟩
  · rename_i a rest hh
    have hrest : State.Driven { s with host := rest, slots := s.slots - 1 } :=
      ⟨h.1, fun x hx => h.2 x (hh ▸ List.mem_cons_of_mem a hx)⟩
    exact hrest.serve (hi.congr rfl) (h.2 a (hh ▸ List.mem_cons_self))

end Host

/-- Settles O60: the engine's move stays on course and the host's turn serves an access with a meaning; the invariant is kept by
every step. -/
theorem readyNeverStops : Obligations.ReadyNeverStops := by
  intro s ⟨hi, hdriven⟩
  have hstep : ∃ t, step s = .next t ∧ t.Driven := by
    unfold step
    split
    · rename_i hturn
      rw [engineTurn, Bool.and_eq_true] at hturn
      exact State.Driven.engineStep hdriven hturn.1
    · exact State.Driven.hostTurn hdriven hi
  obtain ⟨t, ht, htd⟩ := hstep
  exact ⟨t, ht, stepKeepsInvariant s t hi ht, htd⟩

end Sys2Proof.Machine

/-!
The proofs of the statements about the encoding (30_encoding.md): the CMD word, the micro-operation numbers, the bytes of an
instruction, and the command that an illegal CMD word starts.
-/
namespace Sys2Proof.Machine

/-! ## The CMD word and the micro-operation number -/

theorem decodeCmd_illegal {w : Word} (h1 : w ≠ 0x00000001#32) (h2 : w ≠ 0x00000002#32) :
    decodeCmd w = .error (.illegalCommand w) := by
  rw [decodeCmd, if_neg h1, if_neg h2]

theorem cmdWord_of_decodeCmd {w : Word} {i : Instr} (h : decodeCmd w = .ok i) : i.cmdWord = some w := by
  rcases decodeCmd_eq_ok h with ⟨rfl, rfl⟩ | ⟨rfl, rfl⟩
  · rfl
  · rfl

/-- Each branch of the decoder that answers compares `p` with the number of the instruction it answers (R105). -/
theorem phaseNumber_of_decodePhase {p : PhaseNum} {i : Instr} (h : decodePhase p = .ok i) : i.phaseNumber = some p := by
  unfold decodePhase at h
  split_ifs at h <;> cases h <;> simp only [Instr.phaseNumber, *]

theorem decodePhase_of_phaseNumber {p : PhaseNum} {i : Instr} (h : i.phaseNumber = some p) : decodePhase p = .ok i := by
  cases i <;> cases h <;> rfl

/-- The numbers above DECODE's are none of the eleven rows' (R105). -/
theorem decodePhase_reserved : ∀ p : PhaseNum, 0xA ≤ p.toNat → decodePhase p = .error (.reservedNumber p) := by decide

/-! ## The bytes of an instruction -/

theorem encode_of_cmdWord {w : Word} {i : Instr} (h : i.cmdWord = some w) :
    encode i = [w.extractLsb' 0 8, w.extractLsb' 8 8, w.extractLsb' 16 8, w.extractLsb' 24 8] := by
  simp only [encode, h]

/-- No instruction has both encodings: what has a micro-operation number is no command (R90, R105). -/
theorem encode_of_phaseNumber {p : PhaseNum} {i : Instr} (h : i.phaseNumber = some p) : encode i = [p.setWidth 8] := by
  cases i <;> cases h <;> rfl

/-- Cutting a word joined of four bytes gives the bytes back (log 16). -/
theorem extract_append_bytes (b0 b1 b2 b3 : Byte) :
    (b3 ++ b2 ++ b1 ++ b0).extractLsb' 0 8 = b0 ∧ (b3 ++ b2 ++ b1 ++ b0).extractLsb' 8 8 = b1 ∧
    (b3 ++ b2 ++ b1 ++ b0).extractLsb' 16 8 = b2 ∧ (b3 ++ b2 ++ b1 ++ b0).extractLsb' 24 8 = b3 := by
  have dropByte (k : Nat) (hk : 8 ≤ k) {n : Nat} (x : BitVec n) (b : Byte) :
      (x ++ b).extractLsb' k 8 = x.extractLsb' (k - 8) 8 := BitVec.extractLsb'_append_eq_of_le hk
  refine ⟨BitVec.extractLsb'_append_eq_right, ?_, ?_, ?_⟩
  · exact (dropByte 8 (by decide) _ b0).trans BitVec.extractLsb'_append_eq_right
  · exact (dropByte 16 (by decide) _ b0).trans ((dropByte 8 (by decide) _ b1).trans BitVec.extractLsb'_append_eq_right)
  · exact (dropByte 24 (by decide) _ b0).trans ((dropByte 16 (by decide) _ b1).trans BitVec.extractLsb'_append_eq_left)

theorem setWidth_nibble {b : Byte} (h : b.toNat < 16) : (b.setWidth 4).setWidth 8 = b := by
  apply BitVec.eq_of_toNat_eq
  rw [BitVec.toNat_setWidth, BitVec.toNat_setWidth, Nat.mod_eq_of_lt h, Nat.mod_eq_of_lt b.isLt]

theorem encode_of_decodeCmd {b0 b1 b2 b3 : Byte} {i : Instr} (h : decodeCmd (b3 ++ b2 ++ b1 ++ b0) = .ok i) :
    encode i = [b0, b1, b2, b3] := by
  obtain ⟨h0, h1, h2, h3⟩ := extract_append_bytes b0 b1 b2 b3
  rw [encode_of_cmdWord (cmdWord_of_decodeCmd h), h0, h1, h2, h3]

theorem encode_of_decodePhase {b : Byte} {i : Instr} (hb : b.toNat < 16) (h : decodePhase (b.setWidth 4) = .ok i) :
    encode i = [b] := by
  rw [encode_of_phaseNumber (phaseNumber_of_decodePhase h), setWidth_nibble hb]

theorem decode_encode (i : Instr) : decode (encode i) = .ok i := by
  cases i with
  | compress => exact Laws.RoundTrip.compress
  | decompress => exact Laws.RoundTrip.decompress
  | freqScan => exact Laws.RoundTrip.freqScan
  | pqPush => exact Laws.RoundTrip.pqPush
  | pqPopMin => exact Laws.RoundTrip.pqPopMin
  | buildTree => exact Laws.RoundTrip.buildTree
  | genCodes => exact Laws.RoundTrip.genCodes
  | encode => exact Laws.RoundTrip.encode
  | serialize => exact Laws.RoundTrip.serialize
  | deserialize => exact Laws.RoundTrip.deserialize
  | decode => exact Laws.RoundTrip.decode

/-- What decodes is a nibble in one byte, or four bytes that make a CMD word; each is the encoding of what it decodes to. -/
theorem encode_of_decode {bs : List Byte} {i : Instr} (h : decode bs = .ok i) : encode i = bs := by
  unfold decode at h
  split at h
  · split at h
    · rename_i hb; exact encode_of_decodePhase hb h
    · cases h
  · exact encode_of_decodeCmd h
  · cases h

/-- Settles O3: by instruction in one direction, by the shape of the bytes in the other. -/
theorem decodeEncodeAgree : Obligations.DecodeEncodeAgree := ⟨decode_encode, fun _ _ h => encode_of_decode h⟩

/-- Settles O1: the decoder compares the whole word. -/
theorem commandWordsDecode : Obligations.CommandWordsDecode := ⟨rfl, rfl, fun _ h1 h2 => decodeCmd_illegal h1 h2⟩

/-- Settles O2: `decodePhase` and `Instr.phaseNumber` are inverse to each other on the nine numbers. -/
theorem phaseNumbersDecode : Obligations.PhaseNumbersDecode :=
  ⟨fun _ _ => ⟨phaseNumber_of_decodePhase, decodePhase_of_phaseNumber⟩, rfl, decodePhase_reserved⟩

/-- Settles O4: eight closed words, decoded by evaluation. -/
theorem sampleWordsDecode : Obligations.SampleWordsDecode := by
  unfold Obligations.SampleWordsDecode
  decide

/-! ## An illegal CMD word -/

/-- A CMD write while BUSY = 0 starts a command (46_codec_engine.md R231). -/
theorem step_cmdWrite {s : State} {w : Word} {rest : List Access} (hb : s.status.busy = false)
    (hh : s.host = .regWrite 32 0x00 w :: rest) :
    step s = .next (drawTurn (startCommand w { s with host := rest, slots := s.slots - 1 })) := by
  rw [step_host (engineTurn_idle hb) hh, serve_regWrite w (by decide) (by decide)]
  simp [hb, writeRegister]

/-- With no host access left to make, a running block moves its engine (20_memory.md R72). -/
theorem step_engine {s : State} (hb : s.status.busy = true) (hh : s.host = []) : step s = engineStep s :=
  if_pos (by simp [engineTurn, hb, hh])

/-- Dispatch of a word that does not decode (30_encoding.md R93). -/
theorem engineStep_illegal {s : State} {r : Reject} (hp : s.phase = 0x0#4) (hd : decodeCmd s.op = .error r) :
    engineStep s = .next (takeFault .illegalCommand s.op s) := by
  simp only [engineStep, if_pos hp, hd]

/-- Settles O16: the CMD write starts the command, and dispatch faults. -/
theorem illegalCommand : Obligations.IllegalCommand := by
  intro s w h1 h2 hb hh
  have hword : (Status.failed .illegalCommand 0x0#4).word = 0x00000096#32 := by decide
  have hfault := engineStep_illegal (s := drawTurn (startCommand w { s with host := [], slots := s.slots - 1 })) rfl
    (decodeCmd_illegal h1 h2)
  exact ⟨_, _, step_cmdWrite hb hh, (step_engine rfl rfl).trans hfault, ⟨rfl, rfl, rfl, rfl⟩, hword, rfl, rfl, rfl⟩

end Sys2Proof.Machine

/-!
The proofs of the statements about the priority queue (40_priority_queue.md): the order of its key, and what PQ_PUSH and PQ_POP_MIN
do at every use of theirs.
-/
namespace Sys2Proof.Machine

/-! ## The two operations, run by themselves -/

theorem exec_pqPush (s : State) : exec .pqPush s = (pqPush s).outcome := exec_eq_outcome .pqPush s

theorem exec_pqPopMin (s : State) : exec .pqPopMin s = (pqPopMin s).outcome := exec_eq_outcome .pqPopMin s

theorem pqPush_queued {s : State} (h : s.pushNode ∈ s.pq.map Entry.node) :
    pqPush s = .error (.refused (.pushQueuedNode s.pushNode)) := by
  rw [pqPush_eq, if_pos h]

theorem pqPush_full {s : State} (h1 : s.pushNode ∉ s.pq.map Entry.node) (h2 : 256 ≤ s.pqCount) :
    pqPush s = .error (.refused .pushFullQueue) := by
  rw [pqPush_eq, if_neg h1, if_pos h2]

theorem pqPopMin_ok {s : State} {e : Entry} (h : leastEntry s.pq = some e) :
    pqPopMin s = .ok { s with pq := s.pq.erase e, popWeight := e.weight, popNode := e.node, phase := s.callerPhase } := by
  simp only [pqPopMin_eq, h]

theorem pqPopMin_empty {s : State} (h : s.pq = []) : pqPopMin s = raise .emptyQueue 0#32 (setPhase 0x3#4 s) := by
  simp only [pqPopMin_eq, leastEntry_eq_none.2 h]

theorem exists_leastEntry {q : List Entry} (h : q ≠ []) : ∃ e, leastEntry q = some e :=
  Option.ne_none_iff_exists'.1 (mt leastEntry_eq_none.1 h)

/-! ## The statements -/

/-- Settles O21: the entry taken is the least of the queue, and what is left is the queue without it. -/
theorem queuePopMin : Obligations.QueuePopMin := by
  intro s hq
  obtain ⟨e, he⟩ := exists_leastEntry hq
  obtain ⟨hmem, hleast⟩ := leastEntry_spec he
  have hperm : s.pq.Perm (e :: s.pq.erase e) := List.perm_cons_erase hmem
  exact ⟨e, s.pq.erase e, by rw [exec_pqPopMin, pqPopMin_ok he, outcome_ok], hperm, hleast, hperm.length_eq.symm⟩

/-- Settles O19: inserting in order keeps the old entries and adds the new one. -/
theorem queuePush : Obligations.QueuePush := fun _ hnew hroom =>
  ⟨_, by rw [exec_pqPush, pqPush_ok hnew hroom, outcome_ok], insertEntry_perm _ _, insertEntry_length _ _⟩

/-- Settles O18: `<` on words is `<` on their values, and there the key is a lexicographic order. -/
theorem queueKeyOrder : Obligations.QueueKeyOrder :=
  ⟨fun _ _ => keyBefore_iff, keyBefore_irrefl, fun _ _ _ => keyBefore_trans, fun _ _ => keyBefore_total⟩

/-- Settles O20: each use is one refusing branch of PQ_PUSH. -/
theorem queuePushRefusals : Obligations.QueuePushRefusals := by
  intro s
  refine ⟨fun hqueued => ?_, fun hnew hfull => ?_⟩
  · rw [exec_pqPush, pqPush_queued hqueued]; rfl
  · rw [exec_pqPush, pqPush_full hnew hfull]; rfl

/-- Settles O22: the fault is taken under PQ_POP_MIN's own number, which is EPHASE, and leaves the queue and the buffers alone. -/
theorem queuePopEmpty : Obligations.QueuePopEmpty := by
  intro s hq
  have hrun : exec .pqPopMin s = .next (takeFault .emptyQueue 0#32 (setPhase 0x3#4 s)) := by
    rw [exec_pqPopMin, pqPopMin_empty hq, outcome_raise]
  have hword : (Status.failed .emptyQueue 0x3#4).word = 0x00000376#32 := by decide
  exact ⟨_, hrun, ⟨rfl, rfl, rfl, rfl⟩, hword, hq, rfl, rfl, rfl, rfl⟩

end Sys2Proof.Machine

/-!
The proofs of the statements about BUILD_TREE (41_tree_builder.md): each is read off what it leaves, a forest of one tree (`Grown`)
whose weights are sums taken in rising order of the key (`Weighed`).
-/
namespace Sys2Proof.Machine

/-! ## BUILD_TREE, run by itself -/

theorem exec_buildTree (s : State) : exec .buildTree s = (buildTree s).outcome := exec_eq_outcome .buildTree s

theorem exec_buildTree_ok {s t : State} (h : buildTree s = .ok t) : exec .buildTree s = .next t := by
  rw [exec_buildTree, h, outcome_ok]

/-- What BUILD_TREE answers for a table with a present symbol: no fault ends it, and it leaves its tree with the weights of it. -/
theorem exec_buildTree_next {s t : State} (ha : s.alphabet ≠ []) (h : exec .buildTree s = .next t) :
    buildTree s = .ok t ∧ Grown s t ∧ Weighed s.freqTotal t.node t.pq := by
  obtain ⟨u, hu, _, hgrown⟩ := buildTree_grown ha
  cases (exec_buildTree_ok hu).symm.trans h
  exact ⟨hu, hgrown, buildTree_weighed ha hu⟩

/-! ## The tree it leaves -/

/-- The one entry left in the queue is the root's (R145). -/
theorem Grown.queue {s t : State} (h : Grown s t) : ∃ e, t.pq = [e] ∧ entryOf t.node t.root = some e := by
  obtain ⟨e, he⟩ := List.length_eq_one_iff.1 h.single
  obtain ⟨x, hx, hlast⟩ := h.forest.last
  obtain rfl : x = e := by simpa [he] using hx
  have hroot : t.root = x.node := BitVec.eq_of_toNat_eq (by have := h.last; omega)
  obtain ⟨n, hn, hw⟩ := h.forest.queued x hx
  exact ⟨x, he, by rw [hroot, entryOf, hn, Option.map_some, hw]⟩

theorem Grown.node_length {s t : State} (h : Grown s t) : t.node.length = 2 * s.alphabet.length - 1 := by
  have := h.forest.count; have := h.single; omega

theorem Grown.isLeaf_iff {s t : State} (h : Grown s t) {i : Nat} (hi : i < t.node.length) :
    (∃ sym w, t.node[i] = .leaf sym w) ↔ i < s.alphabet.length := by
  constructor
  · rintro ⟨sym, w, hn⟩
    exact h.forest.leaves i sym w (List.getElem?_eq_some_iff.2 ⟨hi, hn⟩)
  · intro hL
    exact ⟨_, _, (List.getElem?_eq_some_iff.1 (h.leaves i hL)).2⟩

/-- The nodes after the leaves are Internal (R143). -/
theorem Grown.internal_of_le {s t : State} (h : Grown s t) {i : Nat} (hL : s.alphabet.length ≤ i) (hi : i < t.node.length) :
    ∃ w l r, t.node[i]? = some (.internal w l r) := by
  cases hn : t.node[i] with
  | leaf sym w => exact absurd ((h.isLeaf_iff hi).1 ⟨sym, w, hn⟩) (by omega)
  | internal w l r => exact ⟨w, l, r, List.getElem?_eq_some_iff.2 ⟨hi, hn⟩⟩

/-! ## Its weights -/

/-- The two pops of a turn take different entries, so the two children differ. -/
theorem Weighed.children_ne {S i : Nat} {nodes : List Node} {pq : List Entry} {w : Weight} {l r : NodeIx} (h : Weighed S nodes pq)
    (hn : nodes[i]? = some (.internal w l r)) : l ≠ r := by
  rintro rfl
  obtain ⟨a, b, ha, hb, _, _, hab⟩ := h.pairs i w l l hn
  obtain rfl : a = b := Option.some.inj (ha.symm.trans hb)
  rw [keyBefore_irrefl] at hab
  cases hab

/-- The root's weight is what all the leaves together weigh (R147, R149). -/
theorem Grown.root_weight {S : Nat} {s t : State} {n : Node} (h : Grown s t) (hw : Weighed S t.node t.pq)
    (hn : t.node[t.root.toNat]? = some n) : n.weight.toNat = S := by
  obtain ⟨e, he, hroot⟩ := h.queue
  have htotal := hw.total
  rw [entryOf, hn] at hroot
  cases hroot
  simpa [he] using htotal

/-- From each internal node to the next the weight does not fall (`Weighed.next_le`), so it never does (R147). -/
theorem Grown.internal_weight_le {S i j : Nat} {s t : State} (h : Grown s t) (hw : Weighed S t.node t.pq) (hij : i ≤ j) :
    ∀ {w w' : Weight} {l r l' r' : NodeIx}, t.node[i]? = some (.internal w l r) → t.node[j]? = some (.internal w' l' r') →
      w.toNat ≤ w'.toNat := by
  induction j, hij using Nat.le_induction with
  | base =>
    intro w w' l r l' r' hi hj
    cases hi.symm.trans hj
    rfl
  | succ j hij ih =>
    intro w w' l r l' r' hi hj
    have hL := h.forest.inners i w l r hi
    have hlt := (List.getElem?_eq_some_iff.1 hj).1
    obtain ⟨v, a, b, hv⟩ := h.internal_of_le (i := j) (by omega) (by omega)
    exact (ih hi hv).trans (hw.next_le hv hj)

/-! ## The statements -/

/-- Settles O24: BUILD_TREE ends in a grown tree and changes what its frame names. -/
theorem buildTreeCompletes : Obligations.BuildTreeCompletes := by
  intro s ha
  obtain ⟨t, hrun, hframe, hgrown⟩ := buildTree_grown ha
  exact ⟨t, exec_buildTree_ok hrun, hframe, hgrown.leaves, hgrown.isTree, hgrown.queue⟩

/-- Settles O25: the leaf loop leaves the arena empty, and the fault is taken under BUILD_TREE's number. -/
theorem buildTreeEmpty : Obligations.BuildTreeEmpty := by
  intro s ha
  have hrun : exec .buildTree s = .next (takeFault .emptyInput 0#32 { setPhase 0x4#4 s with node := [], pq := [] }) := by
    rw [exec_buildTree, buildTree_empty ha, outcome_raise]
  have hword : (Status.failed .emptyInput 0x4#4).word = 0x00000416#32 := by decide
  exact ⟨_, hrun, ⟨rfl, rfl, rfl, rfl⟩, hword, rfl, rfl, rfl, rfl, rfl, rfl, rfl⟩

/-- Settles O26: the indices by counting the forest's nodes, the weights by what each turn of the combine loop adds. -/
theorem treeIndexIdentities : Obligations.TreeIndexIdentities := by
  intro s t ha h
  obtain ⟨_, hgrown, hweighed⟩ := exec_buildTree_next ha h
  have hbelow := hgrown.forest.below
  refine ⟨hgrown.node_length, hgrown.root_toNat, fun i hi => hgrown.isLeaf_iff hi, fun i w l r hn => ?_,
    fun n hn => hgrown.root_weight hweighed hn, fun i l r w hn => ?_,
    fun i j w w' l r l' r' hi hj hij => hgrown.internal_weight_le hweighed hij hi hj⟩
  · have hlt : l.toNat < i ∧ r.toNat < i := by simpa [childrenBelow] using hbelow i _ hn
    exact ⟨hlt.1, hlt.2, hweighed.children_ne hn⟩
  · have hlt := (List.getElem?_eq_some_iff.1 hn).1
    exact (hweighed.leavesBelow hbelow _ i _ hlt hn).symm

/-- Settles O27: the two clauses are kept by every turn of the combine loop. -/
theorem treeSiblingOrder : Obligations.TreeSiblingOrder := by
  intro s t ha h
  obtain ⟨_, _, hweighed⟩ := exec_buildTree_next ha h
  refine ⟨fun i w l r hn => ?_, hweighed.chain⟩
  obtain ⟨a, b, hl, hr, hsum, _, hab⟩ := hweighed.pairs i w l r hn
  exact ⟨a, b, hl, hr, hsum, hab⟩

/-- Settles O28: NODE and ROOT are `treeOf` of the table, whatever state BUILD_TREE starts in. -/
theorem treeDeterminism : Obligations.TreeDeterminism := by
  intro s s' t t' hfreq ha h h'
  have ha' : s'.alphabet ≠ [] := by rwa [alphabet_congr hfreq.symm]
  obtain ⟨hrun, _⟩ := exec_buildTree_next ha h
  obtain ⟨hrun', _⟩ := exec_buildTree_next ha' h'
  obtain ⟨hnode, hroot⟩ := buildTree_unique hfreq hrun hrun'
  exact ⟨hnode, congrArg List.length hnode, hroot⟩

/-- Settles O29: of one leaf the tree has one node, the leaf itself. -/
theorem onePresentSymbol : Obligations.OnePresentSymbol := by
  intro s sym hs
  obtain ⟨t, hrun, _, hgrown⟩ := buildTree_grown (s := s) (by rw [hs]; exact List.cons_ne_nil _ _)
  have hcount : t.node.length = 1 := by rw [hgrown.node_length, hs]; rfl
  have hroot : t.root = 0#9 := BitVec.eq_of_toNat_eq (by rw [hgrown.root_toNat, hs]; rfl)
  have hleaf := hgrown.leaves 0 (by rw [hs]; exact Nat.one_pos)
  obtain ⟨n, hn⟩ := List.length_eq_one_iff.1 hcount
  have hnode : t.node = [leafOf s.freq sym] := by simpa [hn, hs] using hleaf
  exact ⟨t, exec_buildTree_ok hrun, hcount, hroot, hnode⟩

end Sys2Proof.Machine

/-!
The proofs of the statements about the code table (42_code_table.md): what GEN_CODES answers in any arena, and the lengths and the
prefixes of the codes it makes of BUILD_TREE's tree (`Grown`).
-/
namespace Sys2Proof.Machine

/-! ## GEN_CODES, run by itself -/

theorem exec_genCodes (s : State) : exec .genCodes s = (genCodes s).outcome := exec_eq_outcome .genCodes s

theorem exec_genCodes_ok {s : State} (h : s.arenaOk = true) :
    exec .genCodes s = .next { s with phase := 0x5#4, code := treeCodes s.node s.root } := by
  rw [exec_genCodes, genCodes_ok h, outcome_ok]

/-- A root that is a leaf is not walked: its code is "0" (R161). -/
theorem treeCodes_leaf {nodes : List Node} {root : NodeIx} {sym : Byte} {w : Weight}
    (h : nodes[root.toNat]? = some (.leaf sym w)) : treeCodes nodes root = setCode noCodes sym [false] := by
  simp only [treeCodes, h]

theorem treeCodes_internal {nodes : List Node} {root l r : NodeIx} {w : Weight}
    (h : nodes[root.toNat]? = some (.internal w l r)) : treeCodes nodes root = walk nodes nodes.length root [] noCodes := by
  simp only [treeCodes, h]

/-- Under an Internal root the walk starts with the empty path and no codes, so what it records for a symbol is the path alone. -/
theorem treeCodes_path {s : State} {w : Weight} {l r : NodeIx} (ha : s.arenaOk = true)
    (hn : s.node[s.root.toNat]? = some (.internal w l r)) (sym : Byte) :
    isPathTo s.node s.root ((treeCodes s.node s.root)[sym.toNat]'(symbol_lt sym)) sym ∨
      ((treeCodes s.node s.root)[sym.toNat]'(symbol_lt sym) = [] ∧ ∀ p, ¬ isPathTo s.node s.root p sym) := by
  obtain ⟨hroot, hbelow⟩ := arenaOk_iff.1 ha
  rw [treeCodes_internal hn]
  rcases walk_spec hbelow s.node.length s.root [] noCodes sym hroot with ⟨hcode, hnone⟩ | ⟨q, hpath, hcode⟩
  · exact .inr ⟨hcode.trans (getElem_noCodes sym), hnone⟩
  · rw [hcode, List.nil_append]
    exact .inl hpath

/-! ## After BUILD_TREE -/

/-- What GEN_CODES after BUILD_TREE leaves: the codes of BUILD_TREE's tree. -/
theorem exec_buildTree_genCodes {s b t : State} (ha : s.alphabet ≠ []) (hb : exec .buildTree s = .next b)
    (ht : exec .genCodes b = .next t) : Grown s b ∧ t.code = treeCodes b.node b.root := by
  obtain ⟨_, hgrown, _⟩ := exec_buildTree_next ha hb
  cases (exec_genCodes_ok hgrown.arenaOk).symm.trans ht
  exact ⟨hgrown, rfl⟩

/-- A present symbol's code has a bit, and an absent symbol has no code (R162). -/
theorem Grown.code_ne_nil_iff {s t : State} (h : Grown s t) {sym : Byte} :
    (treeCodes t.node t.root)[sym.toNat]'(symbol_lt sym) ≠ [] ↔ sym ∈ s.alphabet := by
  obtain ⟨habsent, _, _⟩ := h.codes sym
  exact ⟨fun hc => by_contra fun hs => hc (habsent hs), fun hs => List.ne_nil_of_length_pos (h.code_length hs).1⟩

/-- The root is node 2L - 2, and a path from it stays above the L leaves until its last bit (R163). -/
theorem Grown.code_length_le {s t : State} (h : Grown s t) {sym : Byte} (hs : sym ∈ s.alphabet) (hL : 2 ≤ s.alphabet.length) :
    ((treeCodes t.node t.root)[sym.toNat]'(symbol_lt sym)).length ≤ s.alphabet.length - 1 := by
  obtain ⟨_, _, hleaf⟩ := h.codes sym
  obtain ⟨m, w, hpath, _⟩ := hleaf hs hL
  have hroot := h.root_toNat
  rcases h.path_length hpath with hnil | hlen
  · rw [hnil]; exact Nat.zero_le _
  · omega

/-! ## The statements -/

/-- Settles O30: a run of GEN_CODES has no fault to end it, and in an arena that is a tree its table is what the walk records. -/
theorem codesArePaths : Obligations.CodesArePaths := by
  intro s
  obtain ⟨t, hrun, ⟨hframe, htree⟩ | hfault⟩ := (genCodes_does s).completes id
  · refine ⟨t.code, t.draws, by rw [exec_genCodes, hrun, ← hframe], fun ha => ?_⟩
    obtain ⟨hcode, hdraws⟩ := htree ha
    refine ⟨hdraws, fun w l r hn sym => ?_⟩
    simp only [hcode]
    exact treeCodes_path ha hn sym
  · exact hfault.elim

/-- Settles O31: one code is set in a table without codes. -/
theorem rootLeafCode : Obligations.RootLeafCode := by
  intro s sym w ha hn
  refine ⟨_, exec_genCodes_ok ha, fun x => ?_⟩
  simp only [treeCodes_leaf hn, getElem_setCode, getElem_noCodes, @eq_comm _ x sym]

/-- Settles O32: the codes are the paths to different leaves of one tree, or the one code "0". -/
theorem prefixCode : Obligations.PrefixCode := by
  intro s b t ha hb ht
  obtain ⟨hgrown, hcode⟩ := exec_buildTree_genCodes ha hb ht
  simp only [State.codeAt, hcode, ← mem_alphabet]
  exact ⟨fun _ => hgrown.code_ne_nil_iff, fun x y hx hy hne hprefix => hne (hgrown.prefix_free hx hy hprefix)⟩

/-- Settles O33: of one present symbol the code is "0"; of L, the longest path in the tree has L - 1 edges. -/
theorem codeLengths : Obligations.CodeLengths := by
  intro s b t ha hb ht sym hfreq
  obtain ⟨hgrown, hcode⟩ := exec_buildTree_genCodes ha hb ht
  have hs : sym ∈ s.alphabet := mem_alphabet.2 hfreq
  obtain ⟨hpos, hmax⟩ := hgrown.code_length hs
  obtain ⟨_, hone, _⟩ := hgrown.codes sym
  simp only [State.codeAt, hcode]
  exact ⟨hpos, hmax, fun hL => by rw [hone hs hL]; rfl, hgrown.code_length_le hs⟩

end Sys2Proof.Machine

/-!
The proofs of the statements about the encoder (43_encoder.md): ENCODE's loop ends at the last input byte or at the first one without
a code, and the bits of a packed string stand where its layout (R172) puts them.
-/
namespace Sys2Proof.Machine

/-! ## ENCODE, run by itself -/

theorem exec_encode (s : State) : exec .encode s = (encodeInput s).outcome := exec_eq_outcome .encode s

/-- ENCODE's loop runs in two parts. -/
theorem encodeBytes_add (j k : Nat) (s : State) : encodeBytes (j + k) s = (encodeBytes j s >>= encodeBytes k) := by
  induction j generalizing s with
  | zero => rw [Nat.zero_add, encodeBytes, run_bind_ok]
  | succ j ih => simp only [Nat.succ_add, encodeBytes, bind_assoc, ih]

/-- The turn at a byte without a code faults (R171). -/
theorem encodeByte_unmapped {s : State} (h : s.inPos.toNat < s.inLen.toNat) (hmax : s.inLen.toNat ≤ s.params.inMax)
    (hcode : s.codeAt (s.inByte s.inPos.toNat) = []) :
    encodeByte s = raise .unmappedSymbol ((s.inByte s.inPos.toNat).setWidth 32) s := by
  rw [encodeByte, memRead_ok h hmax, run_bind_ok, if_pos hcode]

/-- ENCODE's loop faults at the first byte that has no code, BITS being the codes of the bytes before it (R171). -/
theorem encodeBytes_unmapped {s : State} {xs ys : List Byte} {b : Byte}
    (h : s.inPos.toNat + (xs.length + (ys.length + 1)) ≤ s.inLen.toNat) (hmax : s.inLen.toNat ≤ s.params.inMax)
    (hslice : s.inSlice s.inPos.toNat (xs.length + (ys.length + 1)) = xs ++ b :: ys)
    (hxs : ∀ x ∈ xs, s.codeAt x ≠ []) (hb : s.codeAt b = []) :
    encodeBytes (xs.length + (ys.length + 1)) s = raise .unmappedSymbol (b.setWidth 32)
      { s with bits := s.bits ++ xs.flatMap s.codeAt, inPos := s.inPos + BitVec.ofNat 32 xs.length } := by
  rw [inSlice_add, State.inSlice] at hslice
  obtain ⟨hfirst, hrest⟩ := List.append_inj hslice (inSlice_length _ _ _)
  obtain ⟨hbyte, _⟩ := List.cons.inj hrest
  have hpos : (s.inPos + BitVec.ofNat 32 xs.length).toNat = s.inPos.toNat + xs.length := word_add (by have := s.inLen.isLt; omega)
  let u : State := { s with bits := s.bits ++ xs.flatMap s.codeAt, inPos := s.inPos + BitVec.ofNat 32 xs.length }
  have hlt : u.inPos.toNat < u.inLen.toNat := hpos.trans_lt (by show _ < s.inLen.toNat; omega)
  have hread : u.inByte u.inPos.toNat = b := (congrArg s.inByte hpos).trans hbyte
  have hturn := encodeByte_unmapped hlt hmax (by rw [hread]; exact hb)
  have hmapped := encodeBytes_spec xs.length s (by omega) hmax (by rwa [hfirst])
  rw [hfirst] at hmapped
  rw [encodeBytes_add, hmapped, run_bind_ok, encodeBytes, hturn, raise_bind, hread]

/-- ENCODE of an input whose first byte without a code is `b` (R171). -/
theorem encodeInput_unmapped {s : State} {xs ys : List Byte} {b : Byte} (hmax : s.inLen.toNat ≤ s.params.inMax)
    (hin : s.inputBytes = xs ++ b :: ys) (hxs : ∀ x ∈ xs, s.codeAt x ≠ []) (hb : s.codeAt b = []) :
    encodeInput s = raise .unmappedSymbol (b.setWidth 32)
      { setPhase 0x6#4 s with bits := xs.flatMap s.codeAt, inPos := BitVec.ofNat 32 xs.length } := by
  have hlen : s.inLen.toNat = xs.length + (ys.length + 1) := by
    rw [← inputBytes_length, hin, List.length_append, List.length_cons]
  let u : State := { setPhase 0x6#4 s with bits := [], inPos := 0#32 }
  have hslice : u.inSlice 0 s.inLen.toNat = xs ++ b :: ys :=
    (inSlice_input u).trans ((inputBytes_congr rfl rfl rfl).trans hin)
  rw [hlen] at hslice
  have hloop := encodeBytes_unmapped (s := u) (by show 0 + _ ≤ s.inLen.toNat; omega) hmax hslice hxs hb
  have hpos : u.inPos + BitVec.ofNat 32 xs.length = BitVec.ofNat 32 xs.length := BitVec.zero_add _
  rw [encodeInput, hlen, hloop, hpos, raise_bind]
  rfl

/-! ## PackBits -/

/-- The eight places of a byte sum to 255, so the sum of R172 is a byte. -/
theorem packSum_lt (f : Nat → Bool) : ((List.range 8).map fun k => (f k).toNat * 2 ^ (7 - k)).sum < 256 := by
  have hle : ((List.range 8).map fun k => (f k).toNat * 2 ^ (7 - k)).sum ≤ ((List.range 8).map fun k => 2 ^ (7 - k)).sum :=
    List.sum_le_sum fun k _ => mul_le_of_le_one_left (Nat.zero_le _) (Bool.toNat_le (f k))
  exact hle.trans_lt (by decide)

theorem packByte_toNat (bs : Bits) (j : Nat) :
    (packByte bs j).toNat = ((List.range 8).map fun k => (bs.getD (8 * j + k) false).toNat * 2 ^ (7 - k)).sum :=
  Nat.mod_eq_of_lt (packSum_lt fun k => bs.getD (8 * j + k) false)

/-- There are 0 to 7 pad bits (R175). -/
theorem ceil8_bounds (n : Nat) : 8 * ceil8 n - n ≤ 7 ∧ n ≤ 8 * ceil8 n := by
  unfold ceil8; omega

/-! ## The statements -/

/-- Settles O34: the loop ends past the last byte, where IN_POS is IN_LEN. -/
theorem encodeCompletes : Obligations.EncodeCompletes := by
  intro s hmax hcodes
  exact ⟨s.inLen, by rw [exec_encode, encodeInput_spec hmax hcodes, outcome_ok]⟩

/-- Settles O35: the fault is taken under ENCODE's number, in a state that differs from the first in PHASE, BITS and IN_POS. -/
theorem encodeUnmapped : Obligations.EncodeUnmapped := by
  intro s xs ys b hmax hin hxs hb
  have hrun := congrArg Run.outcome (encodeInput_unmapped hmax hin hxs hb)
  rw [← exec_encode, outcome_raise] at hrun
  have hword : (Status.failed .unmappedSymbol 0x6#4).word = 0x00000656#32 := by decide
  exact ⟨_, hrun, ⟨rfl, rfl, rfl, rfl⟩, hword, rfl, rfl, rfl, rfl, rfl⟩

/-- Settles O36: byte `j` is `packByte bs j`, whose bits are those of the string (`bitOf_packByte`). -/
theorem packBitsLayout : Obligations.PackBitsLayout := by
  refine ⟨packBits_length, fun bs j h => ?_, fun bs i h h' => ?_, by decide, by decide, by decide, fun bs => ?_⟩
  · rw [packBits_getElem, packByte_toNat]
  · rw [packBits_getElem, bitOf_packByte, List.getD_eq_getElem _ _ h]
  · rw [packBits_length]
    exact ceil8_bounds bs.length

end Sys2Proof.Machine

/-!
The proofs of the statements about the decoder (44_decoder.md): DECODE does what `decodePayload_spec` says of the walk of its payload
bits, its run is the same under any INBUF that holds those bits, and a walk of the codes of BUILD_TREE's tree gives the symbols back.
-/
namespace Sys2Proof.Machine

/-! ## DECODE, run by itself -/

theorem exec_decode (s : State) : exec .decode s = (decodePayload s).outcome := exec_eq_outcome .decode s

/-- A fault of DECODE is reported under its number, 0x9. -/
theorem exec_decode_fault {s u : State} {e : ErrCode} {info word : Word} (hphase : u.phase = 0x9#4)
    (hrun : decodePayload s = raise e info u) (hword : (Status.failed e 0x9#4).word = word) :
    ∃ t, exec .decode s = .next t ∧ t.reports e 0x9#4 info ∧ t.status.word = word := by
  refine ⟨takeFault e info u, by rw [exec_decode, hrun, outcome_raise], ⟨?_, rfl, rfl, rfl⟩, ?_⟩
  · rw [takeFault_status, hphase]
  · rw [takeFault_status, hphase, hword]

theorem payloadBits_length (s : State) : s.payloadBits.length = s.nbits.toNat := by simp [State.payloadBits]

/-! ## DECODE under another INBUF -/

/-- The second state is the first with INBUF `m`. -/
def Reinput (m : Memory) (t t' : State) : Prop := t' = { t with inbuf := m }

/-- What one of two runs is known to do may be added to what relates their ends. -/
theorem Both.and_does {α : Type} {R : α → α → Prop} {E : State → State → Prop} {P : α → Prop} {Q : State → Prop} {S : Prop} {x x' : Run α}
    (h : Both R E x x') (hd : x.Does P Q S) : Both (fun a a' => R a a' ∧ P a) E x x' := by
  match x, x', h, hd with
  | .ok _, .ok _, h, hd => exact ⟨h, hd⟩
  | .error (.ended _), .error (.ended _), h, _ => exact h
  | .error (.fault _), .error (.fault _), h, _ => exact h
  | .error (.refused _), .error (.refused _), h, _ => exact h

theorem emit_reinput (sym : Byte) (t : State) (m : Memory) :
    Both (Reinput m) (Reinput m) (emit sym t) (emit sym { t with inbuf := m }) := by
  unfold emit memWrite
  dsimp only
  split
  · rfl
  · split
    · rfl
    · split <;> rfl

/-- INBUF is not read once the bit has been: neither by the walk, in an arena that is no tree either, nor by the emission. -/
theorem useBit_reinput (b : Bool) (t : State) (m : Memory) :
    Both (Reinput m) (Reinput m) (useBit b t) (useBit b { t with inbuf := m }) := by
  have hnode (x : Memory) (c i : NodeIx) : State.nodeAt { t with inbuf := x, cur := c } i = t.nodeAt i := rfl
  have hchild : State.childOf { t with inbuf := m } t.cur b = t.childOf t.cur b := rfl
  unfold useBit
  rw [hnode m]
  cases t.nodeAt t.root with
  | leaf sym w => exact emit_reinput sym t m
  | internal w l r =>
    dsimp only [walkBit]
    rw [hchild, hnode m, hnode t.inbuf]
    cases t.nodeAt (t.childOf t.cur b) with
    | leaf sym w =>
      refine (emit_reinput sym { t with cur := t.childOf t.cur b } m).bind fun a a' ha => ?_
      cases ha
      rfl
    | internal w l r => rfl

theorem Decoding.getBit {s t : State} (h : Decoding s t) (i : Nat) : getBit t i = getBit s i := by
  rw [h.frame]; rfl

theorem Decoding.getBit_reinput {s t : State} (h : Decoding s t) (m : Memory) (i : Nat) :
    Machine.getBit { t with inbuf := m } i = Machine.getBit { s with inbuf := m } i := by
  rw [h.frame]; rfl

/-- DECODE's loop under two INBUFs that hold the same payload bits. -/
theorem decodeBits_reinput (k : Nat) {s t : State} {m : Memory} (h : Decoding s t) (hk : t.bitPos.toNat + k ≤ s.nbits.toNat)
    (hbits : ∀ i < s.nbits.toNat, ∃ b, getBit s i = .ok b ∧ getBit { s with inbuf := m } i = .ok b) :
    Both (Reinput m) (Reinput m) (decodeBits k t) (decodeBits k { t with inbuf := m }) := by
  induction k generalizing t with
  | zero => rfl
  | succ k ih =>
    obtain ⟨b, hb, hb'⟩ := hbits t.bitPos.toNat (by omega)
    rw [← h.getBit] at hb
    rw [← h.getBit_reinput] at hb'
    have hnext : (t.bitPos + 1#32).toNat = t.bitPos.toNat + 1 := word_succ (n := s.nbits.toNat) (by omega) s.nbits.isLt
    rw [decodeBits, decodeBits, decodeBit, decodeBit, hb, hb', run_bind_ok, run_bind_ok]
    refine Both.bind (R := fun a a' => Reinput m a a' ∧ Decoding s a ∧ a.bitPos = t.bitPos + 1#32) ?_ fun a a' ha => ?_
    · refine ((useBit_reinput b t m).and_does (useBit_does (S := False) h b)).bind fun a a' ha => ?_
      obtain ⟨heq, hdec, hpos⟩ := ha
      cases heq
      exact ⟨rfl, hdec.withBitPos _, congrArg (· + 1#32) hpos⟩
    · obtain ⟨heq, hdec, hpos⟩ := ha
      cases heq
      exact ih hdec (by rw [hpos, hnext]; omega)

/-- The draw of free values at the start of DECODE does not depend on INBUF (log 4). -/
theorem redrawNodes_reinput (s : State) (m : Memory) :
    ∃ d, redrawNodes (setPhase 0x9#4 s) = { s with phase := 0x9#4, draws := d } ∧
      redrawNodes (setPhase 0x9#4 { s with inbuf := m }) = { s with phase := 0x9#4, draws := d, inbuf := m } := by
  have harena : (setPhase 0x9#4 { s with inbuf := m }).arenaOk = (setPhase 0x9#4 s).arenaOk := arenaOk_congr rfl rfl
  unfold redrawNodes
  rw [harena]
  split
  · exact ⟨s.draws, rfl, rfl⟩
  · exact ⟨s.draws + 1, rfl, rfl⟩

/-- DECODE reads a payload bit alike under two INBUFs that hold the same payload (R185). -/
theorem getBit_reinput {s : State} {m : Memory} (hmax : s.inLen.toNat ≤ s.params.inMax)
    (hin : s.payOff.toNat + ceil8 s.nbits.toNat ≤ s.inLen.toNat) (heq : State.payloadBits { s with inbuf := m } = s.payloadBits)
    {i : Nat} (hi : i < s.nbits.toNat) : ∃ b, getBit s i = .ok b ∧ getBit { s with inbuf := m } i = .ok b := by
  have hlt : s.payOff.toNat + byteOffset i < s.inLen.toNat := by have := ceil8_lt hi; omega
  have hbit := List.map_inj_left.1 heq i (List.mem_range.2 hi)
  exact ⟨_, getBit_ok hlt hmax, (getBit_ok (s := { s with inbuf := m }) hlt hmax).trans (congrArg Except.ok hbit)⟩

theorem decodePayload_reinput {s : State} {m : Memory} (hmax : s.inLen.toNat ≤ s.params.inMax)
    (hin : s.payOff.toNat + ceil8 s.nbits.toNat ≤ s.inLen.toNat) (heq : State.payloadBits { s with inbuf := m } = s.payloadBits) :
    Both (Reinput m) (Reinput m) (decodePayload s) (decodePayload { s with inbuf := m }) := by
  obtain ⟨d, hd, hd'⟩ := redrawNodes_reinput s m
  have hsum (x : Memory) : State.freqSum { s with phase := 0x9#4, draws := d, inbuf := x } = s.freqSum := freqSum_congr rfl
  unfold decodePayload
  rw [hd, hd']
  dsimp only
  rw [hsum, hsum]
  generalize s.freqSum = total
  let u : State := { s with phase := 0x9#4, draws := d, expected := total, emitted := 0#32, cur := s.root, bitPos := 0#32 }
  have hu : Decoding u u := ⟨rfl, Nat.zero_le _, [], rfl, rfl⟩
  refine (decodeBits_reinput s.nbits.toNat hu (by show 0 + _ ≤ s.nbits.toNat; omega)
    fun i hi => getBit_reinput hmax hin heq hi).bind fun a a' ha => ?_
  cases ha
  dsimp only
  split
  · rfl
  · split <;> rfl

/-! ## The statements -/

/-- Settles O44: each branch is the one of `decodePayload_spec`. -/
theorem decodeOutcome : Obligations.DecodeOutcome := by
  intro s out c hmax ha hin hw
  obtain ⟨u, hphase, hrun⟩ := decodePayload_spec hmax ha hin hw
  have hcorrupt : (Status.failed .corruptStream 0x9#4).word = 0x00000946#32 := by decide
  split_ifs at hrun with hcap hmany hroot hfew
  · simp only [if_pos hcap]
    exact exec_decode_fault hphase hrun (by decide)
  · simp only [if_neg hcap, if_pos hmany]
    exact exec_decode_fault hphase hrun hcorrupt
  · simp only [if_neg hcap, if_neg hmany, if_pos hroot]
    exact exec_decode_fault hphase hrun hcorrupt
  · simp only [if_neg hcap, if_neg hmany, if_neg hroot, if_pos hfew.ne]
    exact exec_decode_fault hphase hrun hcorrupt
  · have hall : ¬ out.length ≠ s.freqSum.toNat := by omega
    simp only [if_neg hcap, if_neg hmany, if_neg hroot, if_neg hall]
    refine ⟨_, by rw [exec_decode, hrun, outcome_ok], rfl, fun k hk => ?_, fun a hle => ?_⟩
    · exact read?_writeBytes_inside out s.outbuf 0 k hk
    · exact read?_writeBytes_outside out s.outbuf 0 a (.inr (by omega))

/-- Settles O45: the walk under a leaf gives its symbol once for each bit, which is as many as EXPECTED. -/
theorem decodeSingleLeaf : Obligations.DecodeSingleLeaf := by
  intro s sym w hmax ha hin hleaf hsum hroom
  have hw := walkBits_leaf hleaf s.root s.payloadBits
  rw [payloadBits_length] at hw
  obtain ⟨t, hrun, hout⟩ := decodeOutcome s _ _ hmax ha hin hw
  rw [List.length_replicate, if_neg (by omega), if_neg (by omega), if_neg (not_not_intro rfl), if_neg (by omega)] at hout
  obtain ⟨ht, hholds, _⟩ := hout
  refine ⟨t, hrun, ?_, ?_, ?_, hholds⟩
  · rw [ht]
  · rw [ht]
  · rw [ht]; exact BitVec.ofNat_toNat ..

/-- Settles O46: the payload being inside the input, DECODE answers a next state, and the run under the other INBUF ends alike. -/
theorem decodeIgnoresPadding : Obligations.DecodeIgnoresPadding := by
  intro s m hmax hin heq
  obtain ⟨t, hrun, _⟩ := (decodePayload_does s).completes (not_not_intro ⟨hin, hmax⟩)
  obtain ⟨t', hrun', ht'⟩ := (decodePayload_reinput hmax hin heq).outcome hrun
  cases ht'.elim id id
  exact ⟨t, by rw [exec_decode, hrun], by rw [exec_decode, hrun']⟩

/-- Settles O47: GEN_CODES leaves the tree as BUILD_TREE made it, with the codes of that tree (`Grown.walk_codes`). -/
theorem decodingInvertsEncoding : Obligations.DecodingInvertsEncoding := by
  intro s b t syms ha hb ht _ hs
  obtain ⟨_, hgrown, _⟩ := exec_buildTree_next ha hb
  cases (exec_genCodes_ok hgrown.arenaOk).symm.trans ht
  exact hgrown.walk_codes syms hs

end Sys2Proof.Machine

/-!
The proofs of the statements about the container (45_container.md): SERIALIZE writes `State.containerBytes` or nothing; DESERIALIZE
reads the entries that pass its checks (`deserialize_after`) and ends at the first entry or field that does not.
-/
namespace Sys2Proof.Machine

/-! ## SERIALIZE and DESERIALIZE, run by themselves -/

/-- An instruction whose pseudocode raises a fault reports it under the number PHASE holds (60_exceptions.md R270). -/
theorem exec_fault {i : Instr} {s u : State} {e : ErrCode} {p : PhaseNum} {info word : Word} (hphase : u.phase = p)
    (hrun : pseudocode i s = raise e info u) (hword : (Status.failed e p).word = word) :
    exec i s = .next (takeFault e info u) ∧ (takeFault e info u).reports e p info ∧ (takeFault e info u).status.word = word := by
  subst hphase
  exact ⟨by rw [exec_eq_outcome, hrun, outcome_raise], ⟨rfl, rfl, rfl, rfl⟩, hword⟩

/-- A read of bytes written from index 0. -/
theorem read?_writeBytes_zero {bs : List Byte} (m : Memory) {k : Nat} (hk : k < bs.length) :
    Memory.read? (Memory.writeBytes m 0 bs) k = some bs[k] := by
  have hread := read?_writeBytes_inside bs m 0 k hk
  rwa [Nat.zero_add] at hread

theorem exec_serialize (s : State) : exec .serialize s = (serialize s).outcome := exec_eq_outcome .serialize s

theorem exec_serialize_ok {s : State} (h : s.containerSize ≤ s.params.outMax) :
    exec .serialize s = .next { s with
      phase := 0x7#4
      ecount := BitVec.ofNat 32 s.alphabet.length
      outPos := BitVec.ofNat 32 s.containerBytes.length
      outbuf := Memory.writeBytes s.outbuf 0 s.containerBytes } := by
  rw [exec_serialize, serialize_ok h, outcome_ok]

theorem exec_deserialize (s : State) : exec .deserialize s = (deserialize s).outcome := exec_eq_outcome .deserialize s

theorem exec_deserialize_ok {s : State} {es : List (Byte × Word)} {n : Word} {rest : List Byte} (hmax : s.inLen.toNat ≤ s.params.inMax)
    (hin : s.inputBytes = headerBytes es n ++ rest) (hok : entriesOk es) (hpay : ceil8 n.toNat ≤ rest.length) :
    exec .deserialize s = .next { s with
      phase := 0x8#4
      freq := tableWith zeroFreq es
      ecount := BitVec.ofNat 32 es.length
      nbits := n
      inPos := BitVec.ofNat 32 (8 + 5 * es.length)
      payOff := BitVec.ofNat 32 (8 + 5 * es.length) } := by
  rw [exec_deserialize, deserialize_ok hmax hin hok hpay, outcome_ok]

/-! ## The fields cut short -/

theorem need_ok {s : State} {n : Nat} (h : s.inPos.toNat + n ≤ s.inLen.toNat) : need n s = .ok s := if_neg (Nat.not_lt.2 h)

theorem need_short {s : State} {n : Nat} (h : s.inLen.toNat < s.inPos.toNat + n) :
    need n s = raise .truncatedStream s.inPos s := if_pos h

theorem readEntry_short {s : State} (h : s.inLen.toNat < s.inPos.toNat + 5) :
    readEntry s = raise .truncatedStream s.inPos s := by
  rw [readEntry, need_short h, raise_bind]

/-- numberOfBits cut short (R204). -/
theorem readTail_short {s : State} (h : s.inLen.toNat < s.inPos.toNat + 4) :
    readTail s = raise .truncatedStream s.inPos s := by
  rw [readTail, need_short h, raise_bind]

/-- The payload cut short (R204): the fault is at the payload's offset. -/
theorem readTail_payload_short {s : State} {n : Word} (hmax : s.inLen.toNat ≤ s.params.inMax)
    (h4 : s.inPos.toNat + 4 ≤ s.inLen.toNat) (hslice : s.inSlice s.inPos.toNat 4 = be32Bytes n)
    (hshort : s.inLen.toNat < s.inPos.toNat + 4 + ceil8 n.toNat) :
    readTail s = raise .truncatedStream (s.inPos + 4#32) { s with nbits := n, inPos := s.inPos + 4#32 } := by
  have hpos : (s.inPos + 4#32).toNat = s.inPos.toNat + 4 := word_add (k := 4) (by have := s.inLen.isLt; omega)
  rw [readTail, need_ok h4, run_bind_ok, memReadWord_slice h4 hmax hslice, run_bind_ok, need_short, raise_bind]
  show s.inLen.toNat < (s.inPos + 4#32).toNat + ceil8 n.toNat
  rwa [hpos]

/-! ## entryCount -/

theorem deserialize_short {s : State} (h : s.inLen.toNat < 4) :
    deserialize s = raise .truncatedStream 0#32 { setPhase 0x8#4 s with inPos := 0#32, freq := zeroFreq } := by
  rw [deserialize, need_short (n := 4) (by show s.inLen.toNat < 0 + 4; omega), raise_bind]

/-- DESERIALIZE of an entryCount of 0 does not look at what follows the field (R205). -/
theorem deserialize_noEntries {s : State} {rest : List Byte} (hmax : s.inLen.toNat ≤ s.params.inMax)
    (hin : s.inputBytes = be32Bytes 0#32 ++ rest) :
    deserialize s = raise .emptyTable 0#32 { setPhase 0x8#4 s with inPos := 4#32, freq := zeroFreq, ecount := 0#32 } := by
  let u : State := { setPhase 0x8#4 s with inPos := 0#32, freq := zeroFreq }
  have hlen : s.inLen.toNat = 4 + rest.length := by
    rw [← inputBytes_length, hin, List.length_append, be32Bytes_length]
  have h4 : u.inPos.toNat + 4 ≤ u.inLen.toNat := by show 0 + 4 ≤ s.inLen.toNat; omega
  rw [← inSlice_input, hlen, inSlice_add] at hin
  obtain ⟨hcount, _⟩ := List.append_inj hin (inSlice_length _ _ _)
  have hread : memReadWord u u.inPos.toNat = .ok 0#32 :=
    memReadWord_slice h4 hmax ((inSlice_congr (s := u) (s' := s) (fun _ => rfl) 0 4).trans hcount)
  rw [deserialize, need_ok h4, run_bind_ok, hread, run_bind_ok]
  rfl

/-! ## The entry after those that pass -/

/-- Entries without a repeated symbol are at most 256 (R208). -/
theorem entries_length_le {es : List (Byte × Word)} (hn : (es.map Prod.fst).Nodup) : es.length ≤ 256 := by
  have hsub := List.subperm_of_subset hn fun sym _ => mem_symbols sym
  simpa only [List.length_map, symbols_length] using hsub.length_le

theorem count_ne_zero {count : Word} {k : Nat} (hc : k < count.toNat) : count ≠ 0#32 := fun h => by
  rw [h] at hc
  exact Nat.not_lt_zero k hc

section Entry

variable {s : State} {count : Word} {es : List (Byte × Word)} {rest : List Byte} (hmax : s.inLen.toNat ≤ s.params.inMax)
  (hin : s.inputBytes = be32Bytes count ++ (es.flatMap fun e => e.1 :: be32Bytes e.2) ++ rest) (hn : (es.map Prod.fst).Nodup)
  (hz : ∀ e ∈ es, e.2 ≠ 0#32)
include hmax hin hn hz

/-- A fault at the entry after those that pass is the one DESERIALIZE reports (R209). -/
theorem deserialize_entry_fault {e : ErrCode} {info : Word} (hc : es.length < count.toNat)
    (hentry : readEntry (afterEntries s count es) = raise e info (afterEntries s count es)) :
    deserialize s = raise e info (afterEntries s count es) := by
  obtain ⟨hrun, _⟩ := deserialize_after hmax hin hc.le (count_ne_zero hc) hn hz
  rw [hrun, show count.toNat - es.length = count.toNat - es.length - 1 + 1 by omega, readEntries, hentry, raise_bind, raise_bind]

/-- The entry after those that pass, when it is whole, is tested for a repeated symbol and then for frequency 0 (R206, R207). -/
theorem readEntry_afterEntries {sym : Byte} {f : Word} {rest' : List Byte} (hc : es.length < count.toNat)
    (hrest : rest = sym :: be32Bytes f ++ rest') :
    readEntry (afterEntries s count es) =
      if (afterEntries s count es).freqAt sym ≠ 0#32 then raise .corruptStream 1#32 (afterEntries s count es)
      else if f = 0#32 then raise .corruptStream 2#32 (afterEntries s count es)
      else .ok { afterEntries s count es with
        freq := setFreq (afterEntries s count es).freq sym f, inPos := (afterEntries s count es).inPos + 5#32 } := by
  obtain ⟨_, hlen, hpos, hslice⟩ := deserialize_after hmax hin hc.le (count_ne_zero hc) hn hz
  have hrlen : rest.length = 5 + rest'.length := by
    rw [hrest, List.length_append, List.length_cons, be32Bytes_length]
  rw [hrlen, inSlice_add, hrest] at hslice
  obtain ⟨hentry, _⟩ := List.append_inj hslice (inSlice_length _ _ _)
  exact readEntry_eq (by rw [hpos]; show _ ≤ s.inLen.toNat; omega) hmax (by rw [hpos]; exact hentry)

end Entry

/-- DESERIALIZE after the last of the entries announced (R203). -/
theorem deserialize_tail {s : State} {es : List (Byte × Word)} {rest : List Byte} (hmax : s.inLen.toNat ≤ s.params.inMax)
    (hok : entriesOk es)
    (hin : s.inputBytes = be32Bytes (BitVec.ofNat 32 es.length) ++ (es.flatMap fun e => e.1 :: be32Bytes e.2) ++ rest) :
    let u := afterEntries s (BitVec.ofNat 32 es.length) es
    deserialize s = readTail u ∧ u.inLen.toNat = u.inPos.toNat + rest.length ∧ u.inSlice u.inPos.toNat rest.length = rest := by
  obtain ⟨hne, hn, hz⟩ := hok
  have hle := entries_length_le hn
  have hpos := List.length_pos_iff.2 hne
  have hcount : (BitVec.ofNat 32 es.length).toNat = es.length := Nat.mod_eq_of_lt (by omega)
  have hnz : BitVec.ofNat 32 es.length ≠ 0#32 := fun h => by
    rw [h] at hcount
    exact hpos.ne hcount
  obtain ⟨hrun, hlen, hoff, hslice⟩ := deserialize_after hmax hin hcount.ge hnz hn hz
  refine ⟨?_, hlen.trans (by rw [hoff]), by rwa [hoff]⟩
  rw [hrun, hcount, Nat.sub_self, readEntries, run_bind_ok]

/-! ## Reading what was written -/

theorem entriesOk_entries {s : State} (h : s.alphabet ≠ []) : entriesOk s.entries := by
  refine ⟨fun h0 => h (by rw [← entries_fst, h0]; rfl), by rw [entries_fst]; exact alphabet_nodup s, fun e he => ?_⟩
  obtain ⟨sym, hsym, rfl⟩ := List.mem_map.1 he
  exact mem_alphabet.1 hsym

/-- An input that agrees with `bs` byte by byte begins with `bs`. -/
theorem inputBytes_eq_append {s : State} {bs : List Byte} (hle : bs.length ≤ s.inLen.toNat)
    (h : ∀ k, (hk : k < bs.length) → s.inByte k = bs[k]) :
    s.inputBytes = bs ++ s.inSlice bs.length (s.inLen.toNat - bs.length) := by
  have hfirst : s.inSlice 0 bs.length = bs := by
    rw [inSlice_eq_map]
    refine List.ext_getElem (by simp) fun k _ hk => ?_
    simpa using h k hk
  rw [← inSlice_input, show s.inLen.toNat = bs.length + (s.inLen.toNat - bs.length) by omega, inSlice_add, hfirst,
    Nat.zero_add, Nat.add_sub_cancel_left]

/-- The payload stands in the container after the header. -/
theorem containerBytes_payload {s : State} (hbits : s.bits.length = s.nbits.toNat) {k : Nat} (hk : k < s.payload.length) :
    s.containerBytes[8 + 5 * s.entries.length + k]? = some s.payload[k] := by
  rw [containerBytes_eq hbits, List.getElem?_append_right (by rw [headerBytes_length]; omega), headerBytes_length,
    Nat.add_sub_cancel_left, List.getElem?_eq_getElem hk]

/-! ## The statements -/

/-- Settles O37: the bytes are written in one stretch from index 0. -/
theorem serializeCompletes : Obligations.SerializeCompletes := by
  intro s hfits
  refine ⟨_, exec_serialize_ok hfits, fun hbits => ⟨containerBytes_eq hbits, containerBytes_length hbits⟩,
    fun k hk => read?_writeBytes_zero s.outbuf hk, fun a hle => ?_⟩
  exact read?_writeBytes_outside s.containerBytes s.outbuf 0 a (.inr (by omega))

/-- Settles O38: the fault is taken in a state that differs from the first in PHASE and ECOUNT only. -/
theorem serializeCapacity : Obligations.SerializeCapacity := by
  intro s hfull
  obtain ⟨hrun, hreport, hword⟩ :=
    exec_fault (i := .serialize) (p := 0x7#4) (word := 0x00000786#32) rfl (serialize_full hfull) (by decide)
  exact ⟨_, hrun, hreport, hword, rfl, rfl, rfl, rfl, rfl, rfl, rfl⟩

/-- Settles O39: the table is the one made by setting each entry, each of another symbol than the entries after it. -/
theorem deserializeCompletes : Obligations.DeserializeCompletes := by
  intro s es n rest hmax hin hok hpay
  have ⟨hne, hn, _⟩ := hok
  have hlen : s.inLen.toNat = 8 + 5 * es.length + rest.length := by
    rw [← inputBytes_length, hin, List.length_append, headerBytes_length]
  refine ⟨tableWith zeroFreq es, exec_deserialize_ok hmax hin hok hpay, ⟨fun e he => ?_, fun sym hsym => ?_⟩,
    List.length_pos_iff.2 hne, entries_length_le hn, by omega⟩
  · exact getElem_tableWith_mem hn he _
  · rw [getElem_tableWith_other hsym, getElem_zeroFreq]

/-- Settles O40: the test is on entryCount alone, before any entry is looked at. -/
theorem deserializeCountFaults : Obligations.DeserializeCountFaults := by
  intro s hmax
  refine ⟨fun hshort => ?_, fun rest hin => ?_⟩
  · exact ⟨_, exec_fault rfl (deserialize_short hshort) (by decide)⟩
  · exact ⟨_, exec_fault rfl (deserialize_noEntries hmax hin) (by decide)⟩

/-- Settles O41: the loop is at the entry after `es`, where a symbol has been read exactly when it is one of theirs. -/
theorem deserializeEntryFaults : Obligations.DeserializeEntryFaults := by
  intro s count es rest hmax hin hc hn hz
  have hseen := freqAt_afterEntries (s := s) (count := count) hz hn
  have hcorrupt : (Status.failed .corruptStream 0x8#4).word = 0x00000846#32 := by decide
  refine ⟨fun hshort => ?_, fun sym f rest' hrest hold => ?_, fun sym rest' hrest hnew => ?_⟩
  · obtain ⟨_, hlen, hpos, _⟩ := deserialize_after hmax hin hc.le (count_ne_zero hc) hn hz
    have hcut := readEntry_short (s := afterEntries s count es) (by rw [hpos]; show s.inLen.toNat < _; omega)
    exact ⟨_, exec_fault rfl (deserialize_entry_fault hmax hin hn hz hc hcut) (by decide)⟩
  · have hentry := readEntry_afterEntries hmax hin hn hz hc hrest
    rw [if_pos ((hseen sym).2 hold)] at hentry
    exact ⟨_, exec_fault rfl (deserialize_entry_fault hmax hin hn hz hc hentry) hcorrupt⟩
  · have hentry := readEntry_afterEntries hmax hin hn hz hc hrest
    rw [if_neg (mt (hseen sym).1 hnew), if_pos rfl] at hentry
    exact ⟨_, exec_fault rfl (deserialize_entry_fault hmax hin hn hz hc hentry) hcorrupt⟩

/-- Settles O42: all announced entries read, the tail is short of numberOfBits or of the payload. -/
theorem deserializeTailFaults : Obligations.DeserializeTailFaults := by
  intro s es rest hmax hok hin
  obtain ⟨hrun, hlen, hslice⟩ := deserialize_tail hmax hok hin
  refine ⟨fun hshort => ?_, fun n pay hrest hshort => ?_⟩
  · rw [readTail_short (by omega)] at hrun
    exact ⟨_, exec_fault rfl hrun (by decide)⟩
  · have hrlen : rest.length = 4 + pay.length := by rw [hrest, List.length_append, be32Bytes_length]
    rw [hrlen, inSlice_add, hrest] at hslice
    obtain ⟨hnum, _⟩ := List.append_inj hslice (inSlice_length _ _ _)
    rw [readTail_payload_short (s := afterEntries s _ es) hmax (by omega) hnum (by omega)] at hrun
    have hoff : BitVec.ofNat 32 (4 + 5 * es.length) + 4#32 = BitVec.ofNat 32 (8 + 5 * es.length) := by
      rw [← BitVec.ofNat_add]; congr 1; omega
    rw [← hoff]
    exact ⟨_, exec_fault rfl hrun (by decide)⟩

/-- Settles O43: the input begins with the container (`containerBytes`), whose entries give the table back (`tableWith_entries`). -/
theorem readingInvertsWriting : Obligations.ReadingInvertsWriting := by
  intro s t u hbits ha hfits ht hmax hle hcopy
  cases (exec_serialize_ok hfits).symm.trans ht
  have hsize := containerBytes_length hbits
  have hbyte : ∀ k, (hk : k < s.containerBytes.length) → u.inByte k = s.containerBytes[k] := fun k hk =>
    Option.some.inj ((hcopy k (hsize ▸ hk)).symm.trans (read?_writeBytes_zero s.outbuf hk))
  have hin := inputBytes_eq_append (hsize.trans_le hle) hbyte
  rw [State.containerBytes, List.append_assoc] at hin
  have hpay : ceil8 s.nbits.toNat ≤ s.payload.length := by rw [State.payload, packBits_length, hbits]
  have hroom : ceil8 s.nbits.toNat ≤
      (s.payload.take (ceil8 s.nbits.toNat) ++ u.inSlice s.containerBytes.length (u.inLen.toNat - s.containerBytes.length)).length := by
    rw [List.length_append, List.length_take]
    omega
  have hok := entriesOk_entries ha
  refine ⟨_, exec_deserialize_ok hmax hin hok hroom, rfl, tableWith_entries s, rfl, fun k hk => ?_⟩
  have ⟨_, hn, _⟩ := hok
  have hcount := entries_length_le hn
  have hoff : (BitVec.ofNat 32 (8 + 5 * s.entries.length)).toNat = 8 + 5 * s.entries.length := Nat.mod_eq_of_lt (by omega)
  obtain ⟨hlt, hat⟩ := List.getElem?_eq_some_iff.1 (containerBytes_payload hbits hk)
  show u.inByte ((BitVec.ofNat 32 (8 + 5 * s.entries.length)).toNat + k) = s.payload[k]
  rw [hoff, hbyte _ hlt, hat]

end Sys2Proof.Machine

/-!
The proofs of the statements about the codec engine (46_codec_engine.md): what FREQ_SCAN counts, and what COMPRESS and DECOMPRESS make
of their input. `Encoded` and `Restored` say, as functions of the input bytes, what the last micro-operation of each command reads.
-/
namespace Sys2Proof.Machine

/-! ## Counting the input bytes -/

/-- Every byte is counted under one symbol (46_codec_engine.md R233). -/
theorem sum_count_symbols (bs : List Byte) : (symbols.map fun sym => bs.count sym).sum = bs.length := by
  have hnodup := symbols_nodup
  have hall := mem_symbols
  generalize symbols = l at hnodup hall
  rw [← List.sum_toFinset _ hnodup]
  have hcard := Multiset.sum_count_eq_card (m := (bs : Multiset Byte)) fun sym _ => List.mem_toFinset.2 (hall sym)
  simpa only [Multiset.coe_count, Multiset.coe_card] using hcard

/-- No count wraps: IN_LEN is one word (10_state.md R24). -/
theorem toNat_count_input (s : State) (sym : Byte) :
    (BitVec.ofNat 32 (s.inputBytes.count sym)).toNat = s.inputBytes.count sym := by
  have hle : s.inputBytes.count sym ≤ s.inLen.toNat := List.count_le_length.trans_eq (inputBytes_length s)
  exact Nat.mod_eq_of_lt (hle.trans_lt s.inLen.isLt)

theorem freqScan_eq {s : State} (hmax : s.inLen.toNat ≤ s.params.inMax) :
    ∃ f, freqScan s = .ok { s with phase := 0x1#4, freq := f, inPos := s.inLen } ∧
      ∀ sym : Byte, (f[sym.toNat]'(symbol_lt sym)).toNat = s.inputBytes.count sym := by
  obtain ⟨f, hrun, hf⟩ := freqScan_spec hmax
  exact ⟨f, hrun, fun sym => by rw [hf, toNat_count_input]⟩

/-- Settles O23: each count is exact, and so is their sum. -/
theorem frequencyScan : Obligations.FrequencyScan := by
  intro s hmax
  obtain ⟨f, hrun, hf⟩ := freqScan_eq hmax
  refine ⟨f, s.inLen, by rw [exec_eq_outcome, pseudocode, hrun, outcome_ok], hf, ?_⟩
  simp only [hf, sum_count_symbols, inputBytes_length]

theorem symbols_sorted : symbols.Pairwise (· < ·) := by
  refine List.pairwise_map.2 (List.pairwise_lt_range.imp_of_mem fun ha hb hlt => ?_)
  rw [List.mem_range] at ha hb
  rw [BitVec.lt_def, BitVec.toNat_ofNat, BitVec.toNat_ofNat, Nat.mod_eq_of_lt ha, Nat.mod_eq_of_lt hb]
  exact hlt

theorem entries_sorted (s : State) : s.entries.Pairwise fun a b => a.1 < b.1 :=
  List.pairwise_map.2 (symbols_sorted.sublist List.filter_sublist)

/-! ## What a write from index 0 leaves in OUTBUF -/

theorem outHolds_of_writeBytes {t : State} {m : Memory} {bs : List Byte} (h : t.outbuf = Memory.writeBytes m 0 bs) :
    t.outHolds 0 bs := fun k hk => by rw [h]; exact read?_writeBytes_inside bs m 0 k hk

theorem read?_of_writeBytes {t : State} {m : Memory} {bs : List Byte} (h : t.outbuf = Memory.writeBytes m 0 bs) {a : Nat}
    (ha : bs.length ≤ a) : Memory.read? t.outbuf a = Memory.read? m a := by
  rw [h]; exact read?_writeBytes_outside bs m 0 a (.inr (by omega))

/-! ## COMPRESS up to SERIALIZE -/

/-- `d` is the state in which COMPRESS of the non-empty input of `s` comes to SERIALIZE (46_codec_engine.md R234): what SERIALIZE reads,
as functions of the input bytes. -/
structure Encoded (s d : State) : Prop where
  freq    : ∀ sym, d.freqAt sym = BitVec.ofNat 32 (s.inputBytes.count sym)
  present : ∀ sym, sym ∈ d.alphabet ↔ sym ∈ s.inputBytes
  bits    : d.bits = s.inputBytes.flatMap fun x => (treeCodes (treeOf d.freq).1 (treeOf d.freq).2)[x.toNat]'(symbol_lt x)
  walk    : walkBits (treeOf d.freq).1 (treeOf d.freq).2 (treeOf d.freq).2 d.bits = some (s.inputBytes, (treeOf d.freq).2)
  nbits   : d.bits.length = d.nbits.toNat
  lower   : s.inLen.toNat ≤ d.bits.length
  upper   : d.bits.length ≤ 255 * s.inLen.toNat
  input   : d.inbuf = s.inbuf ∧ d.inLen = s.inLen
  output  : d.outbuf = s.outbuf ∧ d.params = s.params
  run     : compress s = (serialize d >>= fun t => .ok (finishCommand t.outPos t))

theorem exists_encoded {s : State} (hpos : 1 ≤ s.inLen.toNat) (hmax : s.inLen.toNat ≤ s.params.inMax) : ∃ d, Encoded s d := by
  obtain ⟨u, b, d, hcount, hpresent, hbuild, hgrown, hbu, hd, hnbits, hsome, hfew, hinbuf, houtbuf, hinLen, hparams, _, hrun⟩ :=
    compress_eq hpos hmax
  have hfreq : d.freq = u.freq := by rw [hd]; exact hbu
  have hbits : d.bits = s.inputBytes.flatMap fun x => (treeCodes b.node b.root)[x.toNat]'(symbol_lt x) := by rw [hd]
  have htree : treeOf d.freq = (b.node, b.root) := by rw [hfreq]; exact (buildTree_treeOf hbuild).symm
  exact ⟨d,
    { freq := fun sym => by rw [State.freqAt, ← hcount, State.freqAt]; simp only [hfreq]
      present := fun sym => by rw [alphabet_congr hfreq, hpresent]
      bits := by rw [htree, hbits]
      walk := by rw [htree, hbits]; exact hgrown.walk_codes _ fun x hx => (hpresent x).2 hx
      nbits := hnbits
      lower := hsome
      upper := hfew
      input := ⟨hinbuf, hinLen⟩
      output := ⟨houtbuf, hparams⟩
      run := hrun }⟩

/-- The size of a container (30_encoding.md R95). -/
theorem containerSize_eq {s : State} (h : s.bits.length = s.nbits.toNat) :
    s.containerSize = 8 + 5 * s.entries.length + ceil8 s.bits.length := by
  rw [State.containerSize, h, State.entries, List.length_map]
  omega

section Encoded

variable {s d : State} (h : Encoded s d)
include h

/-- COMPRESS from SERIALIZE on: the container is written, or it does not fit and nothing is (R236, 45_container.md R200, R202). -/
theorem Encoded.exec_compress :
    ∃ t, exec .compress s = .next t ∧ t.inbuf = s.inbuf ∧ t.inLen = s.inLen ∧
      (d.containerSize ≤ s.params.outMax →
        t.succeeds d.containerSize ∧ t.outbuf = Memory.writeBytes s.outbuf 0 d.containerBytes) ∧
      (s.params.outMax < d.containerSize → t.reports .capacity 0x7#4 2#32 ∧ t.outbuf = s.outbuf) := by
  obtain ⟨hinbuf, hinLen⟩ := h.input
  obtain ⟨houtbuf, hparams⟩ := h.output
  rw [exec_eq_outcome, pseudocode, h.run]
  rcases Nat.lt_or_ge s.params.outMax d.containerSize with hfull | hfits
  · rw [serialize_full (by rw [hparams]; exact hfull)]
    exact ⟨_, rfl, hinbuf, hinLen, fun hle => absurd hle (Nat.not_le.2 hfull), fun _ => ⟨⟨rfl, rfl, rfl, rfl⟩, houtbuf⟩⟩
  · have hword : (BitVec.ofNat 32 d.containerBytes.length).toNat = d.containerSize := by
      rw [containerBytes_length h.nbits]; exact Nat.mod_eq_of_lt (hfits.trans_lt s.params.outTop)
    rw [serialize_ok (by rw [hparams]; exact hfits), houtbuf]
    exact ⟨_, rfl, hinbuf, hinLen, fun _ => ⟨⟨rfl, rfl, hword, rfl⟩, rfl⟩, fun hlt => absurd hlt (Nat.not_lt.2 hfits)⟩

theorem Encoded.entries_count : ∀ e ∈ d.entries, e.2.toNat = s.inputBytes.count e.1 := by
  intro e he
  obtain ⟨sym, _, rfl⟩ := List.mem_map.1 he
  rw [h.freq, toNat_count_input]

/-- The frequencies sum to IN_LEN (46_codec_engine.md R239). -/
theorem Encoded.entries_sum : (d.entries.map fun e => e.2.toNat).sum = s.inLen.toNat := by
  have htotal : d.freqTotal = s.inLen.toNat := by
    simp only [State.freqTotal, h.freq, toNat_count_input, sum_count_symbols, inputBytes_length]
  rw [← htotal, freqTotal_alphabet, State.entries, List.map_map]
  rfl

theorem Encoded.entries_mem (sym : Byte) : sym ∈ d.entries.map Prod.fst ↔ sym ∈ s.inputBytes := by
  rw [entries_fst, h.present]

/-- At most 256 entries, and codes of at most 255 bits (43_encoder.md R174). -/
theorem Encoded.size_le : 8 + 5 * d.entries.length + ceil8 d.bits.length ≤ 1288 + ceil8 (255 * s.inLen.toNat) := by
  have hentries : d.entries.length ≤ 256 := by rw [State.entries, List.length_map]; exact alphabet_length_le d
  have hfew := h.upper
  unfold ceil8
  omega

/-- The container, as the statement of COMPRESS writes it out. -/
theorem Encoded.container_eq :
    headerBytes d.entries (BitVec.ofNat 32 d.bits.length) ++ packBits d.bits = d.containerBytes := by
  rw [containerBytes_eq h.nbits, h.nbits, BitVec.ofNat_toNat, BitVec.setWidth_eq, State.payload]

end Encoded

/-- Settles O49: the entries and the bits are those SERIALIZE finds (`Encoded`), and it writes their container or faults. -/
theorem compressCompletes : Obligations.CompressCompletes := by
  intro s hpos hmax
  obtain ⟨d, hd⟩ := exists_encoded hpos hmax
  have hbits : 1 ≤ d.bits.length ∧ d.bits.length < 2 ^ 32 := ⟨hpos.trans hd.lower, hd.nbits ▸ d.nbits.isLt⟩
  obtain ⟨t, hrun, hinbuf, hinLen, hfits, hfull⟩ := hd.exec_compress
  have hsize := containerSize_eq hd.nbits
  refine ⟨t, d.entries, d.bits, hrun, entries_sorted d, hd.entries_mem, hd.entries_count, hd.entries_sum, hbits.1, hbits.2,
    hd.size_le, hinbuf, hinLen, fun hle => ?_, fun hlt => ?_⟩
  · obtain ⟨hsucc, hout⟩ := hfits (hsize.trans_le hle)
    rw [← hsize, hd.container_eq]
    have hbytes := containerBytes_length hd.nbits
    exact ⟨hsucc, by rw [hsucc.1]; decide, outHolds_of_writeBytes hout, fun a ha => read?_of_writeBytes hout (hbytes.trans_le ha)⟩
  · obtain ⟨hreport, hout⟩ := hfull (hlt.trans_eq hsize.symm)
    exact ⟨hreport, by rw [hreport.1]; decide, hout⟩

/-! ## DECOMPRESS up to DECODE -/

theorem tableHolds_tableWith {es : List (Byte × Word)} (h : (es.map Prod.fst).Nodup) : tableHolds (tableWith zeroFreq es) es :=
  ⟨fun _ he => getElem_tableWith_mem h he _, fun _ hs => (getElem_tableWith_other hs _).trans (getElem_zeroFreq _)⟩

/-- Two tables that agree at every symbol are one table. -/
theorem freq_ext {f g : Vector Word 256} (h : ∀ sym : Byte, f[sym.toNat]'(symbol_lt sym) = g[sym.toNat]'(symbol_lt sym)) : f = g := by
  apply Vector.ext
  intro i hi
  have hsym : (BitVec.ofNat 8 i).toNat = i := Nat.mod_eq_of_lt hi
  simpa only [hsym] using h (BitVec.ofNat 8 i)

/-- The entries determine the table (45_container.md R210). -/
theorem tableHolds_unique {f g : Vector Word 256} {es : List (Byte × Word)} (hf : tableHolds f es) (hg : tableHolds g es) : f = g := by
  refine freq_ext fun sym => ?_
  by_cases hs : sym ∈ es.map Prod.fst
  · obtain ⟨e, he, rfl⟩ := List.mem_map.1 hs
    rw [hf.1 e he, hg.1 e he]
  · rw [hf.2 sym hs, hg.2 sym hs]

/-- A table that holds acceptable entries has a present symbol (30_encoding.md R102). -/
theorem alphabet_ne_nil {s : State} {es : List (Byte × Word)} (hok : entriesOk es) (h : tableHolds s.freq es) : s.alphabet ≠ [] := by
  obtain ⟨hne, _, hz⟩ := hok
  obtain ⟨e, he⟩ := List.exists_mem_of_ne_nil es hne
  exact List.ne_nil_of_mem (mem_alphabet.2 (by rw [State.freqAt, h.1 e he]; exact hz e he))

/-- The bits of a payload whose bytes are `bs` (44_decoder.md R185). -/
theorem payloadBits_eq {s : State} {bs : List Byte} (hlen : ceil8 s.nbits.toNat ≤ bs.length)
    (h : ∀ k, (hk : k < bs.length) → s.inByte (s.payOff.toNat + k) = bs[k]) :
    s.payloadBits = (List.range s.nbits.toNat).map fun i => bitOf (bs.getD (byteOffset i) 0#8) i := by
  refine List.map_congr_left fun i hi => ?_
  have hk : byteOffset i < bs.length := (ceil8_lt (List.mem_range.1 hi)).trans_le hlen
  rw [h _ hk, List.getD_eq_getElem _ _ hk]

/-- What stands in the input after its first bytes. -/
theorem inByte_of_append {s : State} {xs ys : List Byte} (h : s.inputBytes = xs ++ ys) {k : Nat} (hk : k < ys.length) :
    s.inByte (xs.length + k) = ys[k] := by
  have hat : s.inputBytes[xs.length + k]? = some ys[k] := by
    rw [h, List.getElem?_append_right (Nat.le_add_right _ _), Nat.add_sub_cancel_left, List.getElem?_eq_getElem hk]
  obtain ⟨hlt, hat⟩ := List.getElem?_eq_some_iff.1 hat
  rw [← hat]
  simp [State.inputBytes]

/-- `d` is the state in which DECOMPRESS of the container in the input of `s`, with table `f`, `n` payload bits and `rest` after the
header, comes to DECODE (46_codec_engine.md R235): what DECODE reads, as functions of the input. -/
structure Restored (s : State) (f : Vector Word 256) (n : Word) (rest : List Byte) (d : State) : Prop where
  freq   : d.freq = f
  tree   : (d.node, d.root) = treeOf f
  arena  : d.arenaOk = true
  bits   : d.payloadBits = (List.range n.toNat).map fun i => bitOf (rest.getD (byteOffset i) 0#8) i
  inside : d.inLen.toNat ≤ d.params.inMax ∧ d.payOff.toNat + ceil8 d.nbits.toNat ≤ d.inLen.toNat
  input  : d.inbuf = s.inbuf ∧ d.inLen = s.inLen
  output : d.outbuf = s.outbuf ∧ d.params = s.params
  run    : decompress s = (decodePayload d >>= fun t => .ok (finishCommand t.emitted t))

theorem exists_restored {s : State} {es : List (Byte × Word)} {n : Word} {rest : List Byte} {f : Vector Word 256}
    (hmax : s.inLen.toNat ≤ s.params.inMax) (hin : s.inputBytes = headerBytes es n ++ rest) (hok : entriesOk es)
    (hpay : ceil8 n.toNat ≤ rest.length) (hf : tableHolds f es) : ∃ d, Restored s f n rest d := by
  obtain ⟨u, b, d, hu, hbuild, hgrown, hbu, hd, hn, hoff, hinbuf, houtbuf, hinLen, hparams, hepoch, hrun⟩ :=
    decompress_eq hmax hin hok hpay
  have hlen : s.inLen.toNat = 8 + 5 * es.length + rest.length := by
    rw [← inputBytes_length, hin, List.length_append, headerBytes_length]
  have hoffset : d.payOff.toNat = 8 + 5 * es.length := by
    rw [hoff]; exact Nat.mod_eq_of_lt (by have := s.inLen.isLt; omega)
  have hfreq : u.freq = f := hu.trans (tableHolds_unique (tableHolds_tableWith hok.2.1) hf)
  have htree : (b.node, b.root) = treeOf f := by rw [← hfreq]; exact buildTree_treeOf hbuild
  have hbytes : ∀ k, (hk : k < rest.length) → d.inByte (d.payOff.toNat + k) = rest[k] := fun k hk => by
    rw [hoffset, ← inByte_of_append hin hk, headerBytes_length, State.inByte, State.inByte, hinbuf, hepoch]
  exact ⟨d,
    { freq := by rw [hd]; exact hbu.trans hfreq
      tree := by rw [hd]; exact htree
      arena := by rw [hd]; exact hgrown.arenaOk
      bits := by rw [← hn]; exact payloadBits_eq (by rw [hn]; exact hpay) hbytes
      inside := by rw [hinLen, hparams, hoffset, hn]; exact ⟨hmax, by omega⟩
      input := ⟨hinbuf, hinLen⟩
      output := ⟨houtbuf, hparams⟩
      run := hrun }⟩

/-- DECOMPRESS from DECODE on, where the payload walks to as many bytes as the table sums to, and back to the root (44_decoder.md R186). -/
theorem Restored.exec_decompress {s d : State} {f : Vector Word 256} {n : Word} {rest out : List Byte} (h : Restored s f n rest d)
    (hw : walkBits (treeOf f).1 (treeOf f).2 (treeOf f).2
      ((List.range n.toNat).map fun i => bitOf (rest.getD (byteOffset i) 0#8) i) = some (out, (treeOf f).2))
    (hsum : out.length = d.freqTotal) (hroom : out.length ≤ s.params.outMax) :
    ∃ t, exec .decompress s = .next t ∧ t.succeeds out.length ∧ t.inbuf = s.inbuf ∧ t.inLen = s.inLen ∧
      t.outbuf = Memory.writeBytes s.outbuf 0 out := by
  obtain ⟨hinbuf, hinLen⟩ := h.input
  obtain ⟨houtbuf, hparams⟩ := h.output
  obtain ⟨hmax, hpay⟩ := h.inside
  rw [← h.tree, ← h.bits] at hw
  obtain ⟨_, _, hrun⟩ := decodePayload_spec hmax h.arena hpay hw
  rw [hparams, freqSum_toNat, ← hsum, if_neg (by omega), if_neg (Nat.lt_irrefl _), if_neg (not_not_intro rfl),
    if_neg (Nat.lt_irrefl _)] at hrun
  have hword : (BitVec.ofNat 32 out.length).toNat = out.length := Nat.mod_eq_of_lt (hroom.trans_lt s.params.outTop)
  rw [exec_eq_outcome, pseudocode, h.run, hrun, run_bind_ok, outcome_ok, houtbuf]
  exact ⟨_, rfl, ⟨rfl, rfl, hword, rfl⟩, hinbuf, hinLen, rfl⟩

/-- Settles O51: the entries determine the table, the table the tree, and DECODE does what the walk in that tree says. -/
theorem decompressCompletes : Obligations.DecompressCompletes := by
  intro s es n rest f hmax hin hok hpay hf
  refine ⟨?_, fun out hw hsum hroom => ?_⟩
  · obtain ⟨b, hbuild, _⟩ := buildTree_grown (s := { s with freq := f }) (alphabet_ne_nil hok hf)
    have htree : (b.node, b.root) = treeOf f := buildTree_treeOf hbuild
    exact ⟨b, exec_buildTree_ok hbuild, congrArg Prod.fst htree, congrArg Prod.snd htree⟩
  · obtain ⟨d, hd⟩ := exists_restored hmax hin hok hpay hf
    have htotal : out.length = d.freqTotal := by rw [hsum, freqTotal_table hok.2.1 (by rw [hd.freq]; exact hf)]
    obtain ⟨t, hrun, hsucc, hinbuf, hinLen, hout⟩ := hd.exec_decompress hw htotal hroom
    exact ⟨t, hrun, hsucc, outHolds_of_writeBytes hout, hinbuf, hinLen, fun a ha => read?_of_writeBytes hout ha⟩

/-! ## The round trip -/

/-- The payload's bits are the bits packed in it (43_encoder.md R172). -/
theorem bits_of_packBits (bs : Bits) :
    ((List.range bs.length).map fun i => bitOf ((packBits bs).getD (byteOffset i) 0#8) i) = bs := by
  refine List.ext_getElem (by simp) fun i _ hi => ?_
  have hk : byteOffset i < (packBits bs).length := by rw [packBits_length]; exact ceil8_lt hi
  rw [List.getElem_map, List.getElem_range, List.getD_eq_getElem _ _ hk, packBits_getElem, bitOf_packByte, List.getD_eq_getElem _ _ hi]

theorem tableHolds_entries (s : State) : tableHolds s.freq s.entries := by
  rw [← tableWith_entries s]
  exact tableHolds_tableWith (by rw [entries_fst]; exact alphabet_nodup s)

/-- A non-empty input has acceptable entries. -/
theorem Encoded.entries_ok {s d : State} (h : Encoded s d) (hpos : 1 ≤ s.inLen.toNat) : entriesOk d.entries := by
  obtain ⟨b, hb⟩ := List.exists_mem_of_length_pos (l := s.inputBytes) (by rw [inputBytes_length]; exact hpos)
  exact entriesOk_entries (List.ne_nil_of_mem ((h.present b).2 hb))

/-- The state after a COMPRESS that succeeded holds the container. -/
theorem Encoded.exec_succeeded {s d t : State} (h : Encoded s d) (hrun : exec .compress s = .next t) (hs : t.status = Status.succeeded) :
    t.outLen.toNat = d.containerBytes.length ∧ t.outHolds 0 d.containerBytes := by
  obtain ⟨u, hu, _, _, hfits, hfull⟩ := h.exec_compress
  cases hu.symm.trans hrun
  rcases Nat.lt_or_ge s.params.outMax d.containerSize with hlt | hle
  · obtain ⟨⟨hfailed, _⟩, _⟩ := hfull hlt
    cases hs.symm.trans hfailed
  · obtain ⟨⟨_, _, hlen, _⟩, hout⟩ := hfits hle
    exact ⟨hlen.trans (containerBytes_length h.nbits).symm, outHolds_of_writeBytes hout⟩

/-- Settles O50: the container is acceptable, and its payload walks to the input in the tree of its table (`Encoded.walk`). -/
theorem roundTrip : Obligations.RoundTrip := by
  intro s t u hpos hmax hroom hrun hs hfits hparams hinLen hcopy
  obtain ⟨d, hd⟩ := exists_encoded hpos hmax
  obtain ⟨hlen, hout⟩ := hd.exec_succeeded hrun hs
  have hulen : u.inLen.toNat = d.containerBytes.length := by rw [hinLen, hlen]
  have hbyte : ∀ k, (hk : k < d.containerBytes.length) → u.inByte k = d.containerBytes[k] := fun k hk => by
    have hcell := hout k hk
    rw [Nat.zero_add, hcopy k (hlen ▸ hk)] at hcell
    exact Option.some.inj hcell
  have hin : u.inputBytes = headerBytes d.entries d.nbits ++ d.payload := by
    rw [inputBytes_eq_append hulen.ge hbyte, hulen, Nat.sub_self, State.inSlice, List.append_nil, containerBytes_eq hd.nbits]
  have hpay : ceil8 d.nbits.toNat = d.payload.length := by rw [State.payload, packBits_length, hd.nbits]
  have hbits : ((List.range d.nbits.toNat).map fun i => bitOf (d.payload.getD (byteOffset i) 0#8) i) = d.bits := by
    rw [← hd.nbits]; exact bits_of_packBits d.bits
  have hcontainer := decompressCompletes u d.entries d.nbits d.payload d.freq (by rw [hinLen, hparams]; exact hfits) hin
    (hd.entries_ok hpos) hpay.le (tableHolds_entries d)
  obtain ⟨v, hv, hsucc, hholds, _⟩ := hcontainer.2 s.inputBytes (by rw [hbits]; exact hd.walk)
    (by rw [hd.entries_sum, inputBytes_length]) (by rw [inputBytes_length, hparams]; exact hroom)
  rw [inputBytes_length] at hsucc
  exact ⟨v, hv, hsucc, hholds⟩

end Sys2Proof.Machine

/-!
The proofs of the statements about the empty input and about two commands on the same input (46_codec_engine.md R242): what a command
reads of its working state it has written itself, so that its end is a function of the input bytes and the capacities.
-/
namespace Sys2Proof.Machine

/-! ## The empty input -/

/-- COMPRESS of the empty input comes to BUILD_TREE with no present symbol (60_exceptions.md R261). -/
theorem exec_compress_empty {s : State} (h : s.inLen = 0#32) :
    ∃ u, exec .compress s = .next (takeFault .emptyInput 0#32 u) ∧ u.phase = 0x4#4 ∧ u.outbuf = s.outbuf := by
  have hmax : s.inLen.toNat ≤ s.params.inMax := by rw [h]; exact Nat.zero_le _
  obtain ⟨f, hrun, hf⟩ := freqScan_eq (s := setPhase 0x0#4 s) hmax
  have hnone : (setPhase 0x0#4 s).inputBytes = [] := by rw [State.inputBytes, setPhase_inLen, h]; rfl
  let u : State := { setPhase 0x0#4 s with phase := 0x1#4, freq := f, inPos := s.inLen }
  have hscan : freqScan (setPhase 0x0#4 s) = .ok u := hrun
  have hempty : u.alphabet = [] := by
    refine List.filter_eq_nil_iff.2 fun sym _ => ?_
    have hzero : u.freqAt sym = 0#32 := BitVec.eq_of_toNat_eq ((hf sym).trans (by rw [hnone]; rfl))
    simp [State.present, hzero]
  refine ⟨{ setPhase 0x4#4 u with node := [], pq := [] }, ?_, rfl, rfl⟩
  rw [exec_eq_outcome, pseudocode, compress, checkLength_ok (s := setPhase 0x0#4 s) hmax, run_bind_ok, hscan, run_bind_ok,
    buildTree_empty hempty, raise_bind, outcome_raise]

/-- Settles O48: without a present symbol BUILD_TREE faults, before anything is written. -/
theorem compressEmpty : Obligations.CompressEmpty := by
  intro s h
  obtain ⟨u, hrun, hphase, hout⟩ := exec_compress_empty h
  have hword : (Status.failed .emptyInput 0x4#4).word = 0x00000416#32 := by decide
  refine ⟨_, hrun, ⟨by rw [takeFault_status, hphase], rfl, rfl, rfl⟩, by rw [takeFault_status, hphase, hword], hout⟩

/-! ## How a micro-operation ends -/

/-- `t` is a state that a fault of the block has just left (60_exceptions.md R270). -/
def State.Faulted (t : State) : Prop := ∃ e info u, t = takeFault e info u

theorem State.Faulted.outLen {t : State} (h : t.Faulted) : t.outLen = 0#32 := by
  obtain ⟨_, _, _, rfl⟩ := h; rfl

/-- A micro-operation that comes to its end leaves STATUS alone; one that does not ends the command by a fault (R260). -/
theorem micro_status {i : Instr} (s : State) (hi : i.slot = .phase) :
    (pseudocode i s).Does (fun t => t.status = s.status) State.Faulted True := by
  cases i with
  | compress => cases hi
  | decompress => cases hi
  | freqScan => exact (freqScan_does s).weaken (fun t ht => by rw [ht]) (fun t ht => ht.elim)
  | pqPush => exact (pqPush_does s).weaken (fun t ⟨ht, _⟩ => by rw [ht]) (fun t ht => ht.elim)
  | pqPopMin => exact (pqPopMin_does s).weaken (fun t ⟨_, ht⟩ => by rw [ht]) (fun t ht => ⟨_, _, _, ht⟩)
  | buildTree => exact (buildTree_does s).weaken (fun t ⟨ht, _⟩ => by rw [ht]; rfl) (fun t ht => ⟨_, _, _, ht⟩)
  | genCodes => exact (genCodes_does s).weaken (fun t ⟨ht, _⟩ => by rw [ht]) (fun t ht => ht.elim)
  | encode => exact (encodeInput_does s).weaken (fun t ht => by rw [ht]) (fun t ⟨_, _, ht, _⟩ => ⟨_, _, _, ht⟩)
  | serialize => exact (serialize_does s).weaken (fun t ⟨ht, _⟩ => by rw [ht]) (fun t ⟨_, ht, _⟩ => ⟨_, _, _, ht⟩)
  | deserialize => exact (deserialize_does s).weaken (fun t ⟨ht, _⟩ => by rw [ht]) (fun t ⟨_, _, _, _, ht, _⟩ => ⟨_, _, _, ht⟩)
  | decode => exact (decodePayload_does s).weaken (fun t ht => by rw [ht.frame]) (fun t ⟨_, _, _, _, ht, _⟩ => ⟨_, _, _, ht⟩)

/-! ## Two commands on the same input -/

/-- Two states at the end of a command with the same report and the same result (46_codec_engine.md R242). -/
def SameResult (t t' : State) : Prop :=
  t'.status = t.status ∧ t'.errInfo = t.errInfo ∧ t'.outLen = t.outLen ∧
    ∀ k, k < t.outLen.toNat → Memory.read? t'.outbuf k = Memory.read? t.outbuf k

theorem SameReport.sameResult {t t' : State} (h : SameReport t t') (hz : t.outLen = 0#32) : SameResult t t' := by
  obtain ⟨hstatus, hinfo, hlen, _⟩ := h
  exact ⟨hstatus, hinfo, hlen, fun k hk => absurd hk (by rw [hz]; exact Nat.not_lt_zero k)⟩

/-- Two faults taken in the same phase. -/
theorem takeFault_sameResult {e : ErrCode} {info : Word} {u u' : State} (h : u'.phase = u.phase) :
    SameResult (takeFault e info u) (takeFault e info u') := (takeFault_sameReport h).sameResult rfl

theorem sameResult_of_reports {t t' : State} {e : ErrCode} {p : PhaseNum} {info : Word} (h : t.reports e p info)
    (h' : t'.reports e p info) : SameResult t t' := by
  obtain ⟨hstatus, hinfo, hlen, hphase⟩ := h
  obtain ⟨hstatus', hinfo', hlen', hphase'⟩ := h'
  have hreport : SameReport t t' :=
    ⟨hstatus'.trans hstatus.symm, hinfo'.trans hinfo.symm, hlen'.trans hlen.symm, hphase'.trans hphase.symm⟩
  exact hreport.sameResult hlen

theorem sameResult_of_succeeds {t t' : State} {bs : List Byte} (h : t.succeeds bs.length) (h' : t'.succeeds bs.length)
    (hout : t.outHolds 0 bs) (hout' : t'.outHolds 0 bs) : SameResult t t' := by
  obtain ⟨hstatus, hinfo, hlen, _⟩ := h
  obtain ⟨hstatus', hinfo', hlen', _⟩ := h'
  refine ⟨hstatus'.trans hstatus.symm, hinfo'.trans hinfo.symm, BitVec.eq_of_toNat_eq (hlen'.trans hlen.symm), fun k hk => ?_⟩
  have hread := (hout' k (hlen ▸ hk)).trans (hout k (hlen ▸ hk)).symm
  rwa [Nat.zero_add] at hread

/-- The same input makes the same container. -/
theorem Encoded.container_unique {s s' d d' : State} (h : Encoded s d) (h' : Encoded s' d') (hin : s'.inputBytes = s.inputBytes) :
    d'.containerBytes = d.containerBytes := by
  have hfreq : d'.freq = d.freq := freq_ext fun sym => (h'.freq sym).trans (by rw [hin, ← h.freq sym]; rfl)
  have hbits : d'.bits = d.bits := by rw [h'.bits, h.bits, hin, hfreq]
  have hnbits : d'.nbits = d.nbits := BitVec.eq_of_toNat_eq (by rw [← h'.nbits, ← h.nbits, hbits])
  rw [containerBytes_eq h'.nbits, containerBytes_eq h.nbits]
  simp only [State.entries, State.payload, State.freqAt, alphabet_congr hfreq, hfreq, hbits, hnbits]

/-- COMPRESS of two equal non-empty inputs that fit INBUF. -/
theorem Encoded.exec_sameResult {s s' d d' t : State} (h : Encoded s d) (h' : Encoded s' d') (hs : SameInput s s')
    (hrun : exec .compress s = .next t) : ∃ t', exec .compress s' = .next t' ∧ SameResult t t' := by
  have hbytes := h.container_unique h' hs.inputBytes
  have hsize : d'.containerSize = d.containerSize := by
    rw [← containerBytes_length h'.nbits, ← containerBytes_length h.nbits, hbytes]
  obtain ⟨u, hu, _, _, hfits, hfull⟩ := h.exec_compress
  obtain ⟨t', ht', _, _, hfits', hfull'⟩ := h'.exec_compress
  cases hu.symm.trans hrun
  rw [hsize, hs.params] at hfits' hfull'
  refine ⟨t', ht', ?_⟩
  rcases Nat.lt_or_ge s.params.outMax d.containerSize with hlt | hle
  · obtain ⟨hreport, _⟩ := hfull hlt
    obtain ⟨hreport', _⟩ := hfull' hlt
    exact sameResult_of_reports hreport hreport'
  · obtain ⟨hsucc, hout⟩ := hfits hle
    obtain ⟨hsucc', hout'⟩ := hfits' hle
    rw [← containerBytes_length h.nbits] at hsucc hsucc'
    rw [hbytes] at hout'
    exact sameResult_of_succeeds hsucc hsucc' (outHolds_of_writeBytes hout) (outHolds_of_writeBytes hout')

/-- COMPRESS, an input longer than INBUF, empty, or neither. -/
theorem SameInput.exec_compress {s s' t : State} (h : SameInput s s') (hrun : exec .compress s = .next t) :
    ∃ t', exec .compress s' = .next t' ∧ SameResult t t' := by
  rcases Nat.lt_or_ge s.params.inMax s.inLen.toNat with hlong | hmax
  · have hlong' : s'.params.inMax < s'.inLen.toNat := by rwa [h.params, h.inLen]
    cases (exec_command_long (.inl rfl) hlong).symm.trans hrun
    exact ⟨_, exec_command_long (.inl rfl) hlong', takeFault_sameResult rfl⟩
  · rcases Nat.eq_zero_or_pos s.inLen.toNat with hz | hpos
    · have hz : s.inLen = 0#32 := BitVec.eq_of_toNat_eq hz
      obtain ⟨u, hu, hphase, _⟩ := exec_compress_empty hz
      obtain ⟨u', hu', hphase', _⟩ := exec_compress_empty (h.inLen.trans hz)
      cases hu.symm.trans hrun
      exact ⟨_, hu', takeFault_sameResult (hphase'.trans hphase.symm)⟩
    · obtain ⟨d, hd⟩ := exists_encoded hpos hmax
      obtain ⟨d', hd'⟩ := exists_encoded (s := s') (by rwa [h.inLen]) (by rwa [h.inLen, h.params])
      exact hd.exec_sameResult hd' h hrun

/-- What the first of two runs is known to do at its faults may be added to what relates their ends. -/
theorem Both.and_faults {α : Type} {R : α → α → Prop} {E : State → State → Prop} {P : α → Prop} {Q : State → Prop} {S : Prop}
    {x x' : Run α} (h : Both R E x x') (hd : x.Does P Q S) : Both R (fun t t' => E t t' ∧ Q t) x x' := by
  match x, x', h, hd with
  | .ok _, .ok _, h, _ => exact h
  | .error (.ended _), .error (.ended _), h, hd => exact ⟨h, hd⟩
  | .error (.fault _), .error (.fault _), h, _ => exact h
  | .error (.refused _), .error (.refused _), h, _ => exact h

/-- The length test of dispatch looks at IN_LEN and IN_MAX (R232). -/
theorem SameInput.checkLength {s s' : State} (h : SameInput s s') (hp : s'.phase = s.phase) :
    Both (fun t t' => SameInput t t' ∧ t.Inside false) SameReport (checkLength s) (checkLength s') := by
  refine Both.and_does ?_ (checkLength_completes s)
  unfold Machine.checkLength
  rw [h.inLen, h.params]
  split
  · exact takeFault_sameReport hp
  · exact h

/-- DECOMPRESS, micro-operation by micro-operation (R235). -/
theorem SameInput.decompress {s s' : State} (h : SameInput s s') : Both SameResult SameReport (decompress s) (decompress s') := by
  have h0 : SameInput (setPhase 0x0#4 s) (setPhase 0x0#4 s') := ⟨h.params, h.inLen, h.bytes⟩
  refine (h0.checkLength rfl).bind fun a a' ⟨ha, hia⟩ => ?_
  refine (ha.deserialize.and_does hia.deserialize).bind fun b b' ⟨hb, hib⟩ => ?_
  refine (hb.buildTree.and_does hib.buildTree).bind fun c c' ⟨hc, hic⟩ => ?_
  refine (hc.genCodes.and_does hic.genCodes).bind fun d d' ⟨hd, hid⟩ => ?_
  refine (hd.decodePayload hid.1 (hid.2 rfl)).bind fun t t' ⟨hlen, hbytes⟩ => ?_
  exact ⟨rfl, rfl, hlen, hbytes⟩

theorem SameInput.exec_decompress {s s' t : State} (h : SameInput s s') (hrun : exec .decompress s = .next t) :
    ∃ t', exec .decompress s' = .next t' ∧ SameResult t t' := by
  have hends : (Machine.decompress s).Does (fun _ => True) State.Faulted True :=
    (decompress_does (R := fun _ => True) (Q := fun _ _ => True) trivial ⟨_, _, _, rfl⟩ fun i t hi _ =>
      (micro_status t hi).weaken (fun _ _ => ⟨trivial, trivial⟩) fun _ => id).weaken (fun _ _ => trivial) fun _ => id
  rw [exec_eq_outcome] at hrun
  obtain ⟨t', ht', hresult⟩ := (h.decompress.and_faults hends).outcome hrun
  refine ⟨t', by rw [exec_eq_outcome]; exact ht', ?_⟩
  rcases hresult with hsame | ⟨hreport, hfault⟩
  · exact hsame
  · exact hreport.sameResult hfault.outLen

/-- Settles O52: each micro-operation reads the input and what the ones before it in the command have written. -/
theorem commandIsFunctionOfInput : Obligations.CommandIsFunctionOfInput := by
  intro i s s' t hi hparams hinLen hbytes hrun
  have hsame := SameInput.of_inputBytes hparams hinLen hbytes
  rcases hi with rfl | rfl
  · exact hsame.exec_compress hrun
  · exact hsame.exec_decompress hrun

end Sys2Proof.Machine

/-!
The proofs of the statements about dispatch and about a command as a sequence of steps (46_codec_engine.md R231, R232, R240, R241): the
steps and the one transition run the same micro-operations (`Tracks`), and each move of the engine is one fewer to go (`State.Past`).
-/
namespace Sys2Proof.Machine

/-! ## Dispatch and command start -/

/-- At PHASE 0 a legal word runs, as one transition or by steps (R232, R240). -/
theorem engineStep_command {s : State} {i : Instr} (hp : s.phase = 0x0#4) (hd : decodeCmd s.op = .ok i) :
    engineStep s = if s.bySteps then mapNext drawSlots (dispatchFirst s).outcome else exec i s := by
  simp only [engineStep, if_pos hp, hd]

theorem firstPhase_of_decodeCmd {w : Word} {i : Instr} (h : decodeCmd w = .ok i) :
    firstPhase w = if i = .compress then 0x1#4 else 0x8#4 := by
  rcases decodeCmd_eq_ok h with ⟨rfl, rfl⟩ | ⟨rfl, rfl⟩
  · rfl
  · rfl

theorem dispatchFirst_ok {s : State} (h : s.inLen.toNat ≤ s.params.inMax) : dispatchFirst s = .ok (setPhase (firstPhase s.op) s) := by
  rw [dispatchFirst, checkLength_ok h, run_bind_ok, run_pure]

theorem dispatchFirst_long {s : State} (h : s.params.inMax < s.inLen.toNat) : dispatchFirst s = raise .capacity 1#32 s := by
  rw [dispatchFirst, checkLength_long h, raise_bind]

/-- Settles O5: the engine's move at PHASE 0 is dispatch, whose branches these are. -/
theorem stepDispatches : Obligations.StepDispatches := by
  intro s hturn hp
  rw [step, if_pos hturn]
  refine ⟨fun i hd hs => ?_, fun i hd hs hmax => ?_, fun i hd hs hlong => ?_, fun e hd => engineStep_illegal hp hd⟩
  · rw [engineStep_command hp hd, hs, if_neg Bool.false_ne_true]
  · rw [engineStep_command hp hd, if_pos hs, dispatchFirst_ok hmax, firstPhase_of_decodeCmd hd]; rfl
  · rw [engineStep_command hp hd, if_pos hs, dispatchFirst_long hlong]; rfl

/-- Settles O13: the CMD write is `startCommand`, which clears the working state, and a draw of the schedule. -/
theorem commandStart : Obligations.CommandStart := by
  intro s v rest hh hb
  exact ⟨_, step_cmdWrite hb hh, rfl, rfl, rfl, rfl, rfl, fun sym => ⟨getElem_zeroFreq sym, getElem_noCodes sym⟩, rfl, rfl, rfl, rfl,
    rfl, rfl, rfl, rfl, rfl, rfl, rfl, rfl, rfl, rfl, rfl, rfl, rfl, rfl⟩

/-! ## Runs of the machine -/

theorem run_step {s t : State} (h : step s = .next t) (n : Nat) : Sys2Proof.core.run (n + 1) s = Sys2Proof.core.run n t := by
  have hcore : Sys2Proof.core.step s = .next t := h
  simp only [Host.Core.run, hcore]

/-- An idle block with no access to serve stays as it is (20_memory.md R72 item 4). -/
theorem run_idle {s : State} (hb : s.status.busy = false) (hh : s.host = []) (n : Nat) : Sys2Proof.core.run n s = .next s := by
  induction n with
  | zero => rfl
  | succ n ih => rw [run_step (step_noHost (engineTurn_idle hb) hh), ih]

/-! ## By steps and as one transition -/

theorem slot_of_decodePhase {p : PhaseNum} {i : Instr} (h : decodePhase p = .ok i) : i.slot = .phase := by
  have hnum := phaseNumber_of_decodePhase h
  cases i with
  | compress => cases hnum
  | decompress => cases hnum
  | _ => rfl

theorem State.resched_ite {c : Prop} [Decidable c] (a b : State) (x : Sched) :
    (if c then a else b).resched x = if c then a.resched x else b.resched x := apply_ite (State.resched · x) c a b

/-- The sequencer reads OP only. -/
theorem advance_resched (i : Instr) (s : State) (x : Sched) : advance i (s.resched x) = (advance i s).resched x := by
  have hop : (s.resched x).op = s.op := rfl
  cases i <;> simp only [advance, hop, State.resched_ite] <;> rfl

theorem drawSlots_resched (s : State) (x : Sched) : ∃ y, drawSlots (s.resched x) = s.resched y := by
  unfold drawSlots
  split
  · exact ⟨⟨_, _, _⟩, rfl⟩
  · exact ⟨x, rfl⟩

/-- While the command goes on, the sequencer's move after a micro-operation, up to the schedule. -/
theorem afterMicro_busy {i : Instr} {s : State} (hb : s.status.busy = true) (x : Sched) :
    ∃ y, drawSlots (afterMicro i (s.resched x)) = (advance i s).resched y := by
  have hafter : afterMicro i (s.resched x) = (advance i s).resched x := (if_pos hb).trans (advance_resched i s x)
  rw [hafter]
  exact drawSlots_resched _ x

theorem afterMicro_idle {i : Instr} {s : State} (hb : s.status.busy = false) : drawSlots (afterMicro i s) = s := by
  have hb' : ¬ s.status.busy = true := by rw [hb]; exact Bool.false_ne_true
  rw [afterMicro, if_neg hb', drawSlots, if_neg hb']

/-- The machine gets in `n` steps from `a` to the state that `o` answers, up to the schedule. -/
def Tracks (n : Nat) (a : State) (o : Host.Outcome State Fault Refusal) : Prop :=
  ∃ t u, o = .next t ∧ Sys2Proof.core.run n a = .next u ∧ SameBlock u t

theorem sameBlock_resched (s : State) (x : Sched) : SameBlock (s.resched x) s := rfl

theorem Tracks.idle {t : State} (hb : t.status.busy = false) (hh : t.host = []) (x : Sched) (n : Nat) : Tracks n (t.resched x) (.next t) :=
  ⟨t, t.resched x, rfl, run_idle (s := t.resched x) hb hh n, sameBlock_resched t x⟩

theorem Tracks.step {a b : State} {n : Nat} {o : Host.Outcome State Fault Refusal} (hs : step a = .next b) (h : Tracks n b o) :
    Tracks (n + 1) a o := by
  rw [Tracks, run_step hs]
  exact h

/-- A block that runs the command of word `w` with no access of the host to come, so that only its engine moves. -/
structure State.Alone (w : Word) (s : State) : Prop where
  busy : s.status.busy = true
  host : s.host = []
  op   : s.op = w

theorem State.Alone.setPhase {w : Word} {s : State} (h : s.Alone w) (p : PhaseNum) : (setPhase p s).Alone w := ⟨h.busy, h.host, h.op⟩

theorem Untouched.op {s t : State} (h : Untouched s t) : t.op = s.op := by
  simp only [Untouched, State.untouched, Prod.mk.injEq] at h
  obtain ⟨_, _, _, hop, _⟩ := h
  exact hop

theorem Untouched.host {s t : State} (h : Untouched s t) : t.host = s.host := by
  simp only [Untouched, State.untouched, Prod.mk.injEq] at h
  obtain ⟨_, _, _, _, hhost, _⟩ := h
  exact hhost

/-- After a micro-operation that came to its end the block still runs its command alone. -/
theorem State.Alone.micro {w : Word} {s t : State} (h : s.Alone w) (hstatus : t.status = s.status) (hframe : Untouched s t) :
    t.Alone w := ⟨by rw [hstatus]; exact h.busy, hframe.host.trans h.host, hframe.op.trans h.op⟩

/-- One micro-operation that completes: the machine's step runs it and moves the sequencer on (R240). -/
theorem Tracks.micro {w : Word} {i : Instr} {c : State} {x : Sched} {n : Nat} {Q : State → Prop} {f : State → Run State}
    (hi : decodePhase c.phase = .ok i) (hc : c.Alone w)
    (hsched : pseudocode i (c.resched x) = (pseudocode i c).resched x) (hrun : (pseudocode i c).Completes Q)
    (hnext : ∀ d y, d.Alone w → Q d → Tracks n ((advance i d).resched y) (f d).outcome) :
    Tracks (n + 1) (c.resched x) (pseudocode i c >>= f).outcome := by
  have hslot := slot_of_decodePhase hi
  have hp : (c.resched x).phase ≠ 0x0#4 := fun h0 => by
    rw [show c.phase = 0x0#4 from h0] at hi
    cases hi
  have hmove := (step_engine (s := c.resched x) hc.busy hc.host).trans (engineStep_micro hp hi)
  rw [exec_eq_outcome, hsched] at hmove
  have hstatus := micro_status c hslot
  have hframe := micro_untouched c hslot
  match hr : pseudocode i c with
  | .ok d =>
    rw [hr] at hmove hstatus hframe hrun
    have hd : d.Alone w := hc.micro hstatus hframe
    obtain ⟨y, hy⟩ := afterMicro_busy (i := i) hd.busy x
    exact Tracks.step (hmove.trans (congrArg _ hy)) (hnext d y hd hrun)
  | .error (.ended t) =>
    rw [hr] at hmove hframe hrun
    have hb : t.status.busy = false := hrun
    have hidle : drawSlots (afterMicro i (t.resched x)) = t.resched x := afterMicro_idle hb
    exact Tracks.step (hmove.trans (congrArg _ hidle)) (Tracks.idle hb ((Untouched.host hframe).trans hc.host) x n)
  | .error (.fault _) => rw [hr] at hrun; exact hrun.elim
  | .error (.refused _) => rw [hr] at hrun; exact hrun.elim

/-- As `State.Inside`, in an arena that is a tree: the walks of GEN_CODES and DECODE read no free value (log 12). -/
def State.InTree (payload : Bool) (s : State) : Prop := s.Inside payload ∧ s.arenaOk = true

theorem State.Inside.buildTree_inTree {s : State} {payload : Bool} (h : s.Inside payload) :
    (Machine.buildTree s).Completes (State.InTree payload) :=
  (buildTree_does s).mono (fun t ⟨ht, hg, _⟩ => ⟨by rw [ht]; exact h, hg.arenaOk⟩) (fun t ht => by rw [ht]; rfl) id

theorem State.InTree.genCodes {s : State} {payload : Bool} (h : s.InTree payload) :
    (Machine.genCodes s).Completes (State.InTree payload) :=
  (genCodes_does s).mono (fun t ⟨ht, _⟩ => by rw [ht]; exact h) (fun _ ht => ht.elim) id

/-- COMPRESS past dispatch (R234). -/
theorem compress_tracks {s : State} (hs : s.Alone 0x00000001#32) (hi : s.Inside false) (x : Sched) :
    Tracks 5 ((setPhase 0x1#4 s).resched x) (exec .compress s) := by
  have hrun : compress s = pseudocode .freqScan (setPhase 0x1#4 s) >>= fun s => pseudocode .buildTree (setPhase 0x4#4 s) >>=
      fun s => pseudocode .genCodes (setPhase 0x5#4 s) >>= fun s => pseudocode .encode (setPhase 0x6#4 s) >>= fun s =>
      pseudocode .serialize (setPhase 0x7#4 s) >>= fun s => .ok (finishCommand s.outPos s) := by
    rw [compress, checkLength_ok (s := setPhase 0x0#4 s) hi.1, run_bind_ok]
    rfl
  rw [exec_eq_outcome, pseudocode, hrun]
  refine Tracks.micro rfl (hs.setPhase _) (freqScan_resched _ x) hi.freqScan fun a x ha hia => ?_
  rw [advance, if_pos ha.op]
  refine Tracks.micro rfl (ha.setPhase _) (buildTree_resched _ x) hia.buildTree_inTree fun b x hb hib => ?_
  rw [advance, if_pos (.inl hb.op)]
  refine Tracks.micro rfl (hb.setPhase _) (genCodes_resched hib.2 x) hib.genCodes fun c x hc hic => ?_
  rw [advance, if_pos hc.op]
  refine Tracks.micro rfl (hc.setPhase _) (encodeInput_resched _ x) hic.1.encode fun d x hd _ => ?_
  rw [advance, if_pos hd.op]
  refine Tracks.micro rfl (hd.setPhase _) (serialize_resched _ x) (serialize_completes _) fun e x he _ => ?_
  rw [advance, if_pos he.op]
  exact Tracks.idle (t := finishCommand e.outPos e) rfl he.host x 0

/-- DECOMPRESS past dispatch (R235): four micro-operations, and a move that leaves the idle block alone. -/
theorem decompress_tracks {s : State} (hs : s.Alone 0x00000002#32) (hi : s.Inside false) (x : Sched) :
    Tracks 5 ((setPhase 0x8#4 s).resched x) (exec .decompress s) := by
  have hrun : decompress s = pseudocode .deserialize (setPhase 0x8#4 s) >>= fun s => pseudocode .buildTree (setPhase 0x4#4 s) >>=
      fun s => pseudocode .genCodes (setPhase 0x5#4 s) >>= fun s => pseudocode .decode (setPhase 0x9#4 s) >>= fun s =>
      .ok (finishCommand s.emitted s) := by
    rw [decompress, checkLength_ok (s := setPhase 0x0#4 s) hi.1, run_bind_ok]
    rfl
  rw [exec_eq_outcome, pseudocode, hrun]
  refine Tracks.micro rfl (hs.setPhase _) (deserialize_resched _ x) hi.deserialize fun a x ha hia => ?_
  rw [advance, if_pos ha.op]
  refine Tracks.micro rfl (ha.setPhase _) (buildTree_resched _ x) hia.buildTree_inTree fun b x hb hib => ?_
  rw [advance, if_pos (.inr hb.op)]
  refine Tracks.micro rfl (hb.setPhase _) (genCodes_resched hib.2 x) hib.genCodes fun c x hc hic => ?_
  rw [advance, if_neg (by rw [hc.op]; decide), if_pos hc.op]
  refine Tracks.micro rfl (hc.setPhase _) (decodePayload_resched hic.2 x) hic.1.decode fun d x hd _ => ?_
  rw [advance, if_pos hd.op]
  exact Tracks.idle (t := finishCommand d.emitted d) rfl hd.host x 1

theorem setPhase_self {s : State} {p : PhaseNum} (h : s.phase = p) : setPhase p s = s := by
  subst h
  rfl

/-- Past the length test (R232) either command is tracked. -/
theorem command_tracks {s : State} {i : Instr} (hd : decodeCmd s.op = .ok i) (hb : s.status.busy = true) (hh : s.host = [])
    (hmax : s.inLen.toNat ≤ s.params.inMax) (x : Sched) : Tracks 5 ((setPhase (firstPhase s.op) s).resched x) (exec i s) := by
  rcases decodeCmd_eq_ok hd with ⟨hop, rfl⟩ | ⟨hop, rfl⟩
  · rw [firstPhase, if_pos hop]
    exact compress_tracks ⟨hb, hh, hop⟩ ⟨hmax, nofun⟩ x
  · rw [firstPhase, if_neg (by rw [hop]; decide)]
    exact decompress_tracks ⟨hb, hh, hop⟩ ⟨hmax, nofun⟩ x

/-- Settles O53: dispatch is the first of the six moves, and each micro-operation of the command one more (`Tracks.micro`). -/
theorem commandIsAtomic : Obligations.CommandIsAtomic := by
  intro i s hs hp hh hd
  have hb : s.status.busy = true := by rw [hs]; rfl
  let x : Sched := ⟨s.slots, true, s.draws⟩
  have hmove : step (s.resched x) = mapNext drawSlots (dispatchFirst (s.resched x)).outcome :=
    (step_engine (s := s.resched x) hb hh).trans (engineStep_command (s := s.resched x) hp hd)
  show Tracks 6 (s.resched x) (exec i s)
  rcases Nat.lt_or_ge s.params.inMax s.inLen.toNat with hlong | hmax
  · have hi : i = .compress ∨ i = .decompress := (decodeCmd_eq_ok hd).imp And.right And.right
    rw [dispatchFirst_long (s := s.resched x) hlong] at hmove
    rw [exec_command_long hi hlong, setPhase_self hp]
    exact Tracks.step hmove (Tracks.idle (t := takeFault .capacity 1#32 s) rfl hh x 5)
  · obtain ⟨y, hy⟩ := drawSlots_resched (setPhase (firstPhase s.op) s) x
    rw [dispatchFirst_ok (s := s.resched x) hmax] at hmove
    exact Tracks.step (hmove.trans (congrArg _ hy)) (command_tracks hd hb hh hmax y)

/-! ## A command ends -/

/-- How many moves of the engine are left in a command whose PHASE this is (R234, R235). -/
def movesLeft : PhaseNum → Nat
  | 0x0#4 => 6
  | 0x1#4 | 0x8#4 => 5
  | 0x4#4 => 4
  | 0x5#4 => 3
  | 0x6#4 | 0x9#4 => 2
  | _ => 1

/-- `t` is idle, or nearer to the end of its command than a block at PHASE `p`. -/
def State.Past (p : PhaseNum) (t : State) : Prop := t.status.busy = false ∨ movesLeft t.phase < movesLeft p

theorem State.Past.setPhase {p q : PhaseNum} (h : movesLeft q < movesLeft p) (t : State) : (setPhase q t).Past p := .inr h

theorem State.Past.drawSlots {p : PhaseNum} {t : State} (h : t.Past p) : (drawSlots t).Past p := by
  unfold Machine.drawSlots
  split
  · exact h
  · exact h

/-- The sequencer's move after a micro-operation of COMPRESS (R234). -/
theorem advance_past_compress {p : PhaseNum} {i : Instr} {t : State} (hop : t.op = 0x00000001#32)
    (hp : p ∈ [0x1#4, 0x4#4, 0x5#4, 0x6#4, 0x7#4]) (hi : decodePhase p = .ok i) : (advance i t).Past p := by
  simp only [List.mem_cons, List.not_mem_nil, or_false] at hp
  rcases hp with rfl | rfl | rfl | rfl | rfl <;> cases hi <;> rw [advance]
  · rw [if_pos hop]; exact .setPhase (by decide) t
  · rw [if_pos (.inl hop)]; exact .setPhase (by decide) t
  · rw [if_pos hop]; exact .setPhase (by decide) t
  · rw [if_pos hop]; exact .setPhase (by decide) t
  · rw [if_pos hop]; exact .inl rfl

/-- The sequencer's move after a micro-operation of DECOMPRESS (R235). -/
theorem advance_past_decompress {p : PhaseNum} {i : Instr} {t : State} (hop : t.op = 0x00000002#32)
    (hp : p ∈ [0x8#4, 0x4#4, 0x5#4, 0x9#4]) (hi : decodePhase p = .ok i) : (advance i t).Past p := by
  simp only [List.mem_cons, List.not_mem_nil, or_false] at hp
  rcases hp with rfl | rfl | rfl | rfl <;> cases hi <;> rw [advance]
  · rw [if_pos hop]; exact .setPhase (by decide) t
  · rw [if_pos (.inr hop)]; exact .setPhase (by decide) t
  · rw [if_neg (by rw [hop]; decide), if_pos hop]; exact .setPhase (by decide) t
  · rw [if_pos hop]; exact .inl rfl

/-- On its course, at a PHASE above 0, the sequencer moves towards the end. -/
theorem State.onCourse.advance_past {s t : State} {i : Instr} (h : s.onCourse) (hp : s.phase ≠ 0x0#4) (hi : decodePhase s.phase = .ok i)
    (hop : t.op = s.op) : (advance i t).Past s.phase := by
  rcases h with h0 | ⟨_, ⟨h1, hphase⟩ | ⟨h2, hphase⟩ | ⟨h2, hphase, _⟩⟩
  · exact absurd h0 hp
  · exact advance_past_compress (hop.trans h1) hphase hi
  · exact advance_past_decompress (hop.trans h2) (by rw [hphase]; exact List.mem_cons_self) hi
  · exact advance_past_decompress (hop.trans h2) (List.mem_cons_of_mem _ hphase) hi

/-- Dispatch moves to a first micro-operation, or the command has ended. -/
theorem engineStep_dispatch_past {s t : State} (hp : s.phase = 0x0#4) (he : engineStep s = .next t) : t.Past s.phase := by
  rw [hp]
  cases hd : decodeCmd s.op with
  | error r =>
    cases (engineStep_illegal hp hd).symm.trans he
    exact .inl rfl
  | ok i =>
    rw [engineStep_command hp hd] at he
    split at he
    · obtain ⟨u, hu, rfl⟩ := mapNext_eq_next he
      refine State.Past.drawSlots ?_
      rcases (dispatchFirst_does s).next hu with rfl | rfl
      · refine .setPhase ?_ s
        unfold firstPhase
        split
        · decide
        · decide
      · exact .inl rfl
    · obtain ⟨u, hu, hidle⟩ := exec_command_ends hd
      cases hu.symm.trans he
      exact .inl hidle

/-- Every move of the engine brings the command nearer to its end. -/
theorem State.Steered.engineStep_past {s t : State} (h : s.Steered) (hb : s.status.busy = true) (he : engineStep s = .next t) :
    t.Past s.phase := by
  by_cases hp : s.phase = 0x0#4
  · exact engineStep_dispatch_past hp he
  · obtain ⟨i, hi, _⟩ := (h hb).continues hp
    rw [engineStep_micro hp hi] at he
    obtain ⟨u, hu, rfl⟩ := mapNext_eq_next he
    obtain ⟨_, _, _, hop, _⟩ := noInstructionWritesInput i s u hu
    refine State.Past.drawSlots ?_
    unfold afterMicro
    split
    · exact (h hb).advance_past hp hi hop
    · rename_i hidle; exact .inl (Bool.not_eq_true _ ▸ hidle)

/-- While a command runs no access but reset moves the sequencer or changes the number of accesses still due (70_reset_and_hazards.md
R301, R303). -/
theorem serve_busy {a : Access} {s t : State} (hb : s.status.busy = true) (h : serve a s = .next t) :
    t.status.busy = false ∨ (t.phase = s.phase ∧ t.slots = s.slots) := by
  have guarded : ∀ {c : Prop} [Decidable c] {u : State} {r : Refusal},
      (if c then Host.Outcome.next u else .refused r) = (.next t : Host.Outcome State Fault Refusal) →
      u.phase = s.phase ∧ u.slots = s.slots →
      t.status.busy = false ∨ (t.phase = s.phase ∧ t.slots = s.slots) := by
    intro c _ u r hc hu
    split at hc
    · cases hc; exact .inr hu
    · cases hc
  cases a with
  | regRead width off => exact guarded h ⟨rfl, rfl⟩
  | regWrite width off v => exact guarded h (by rw [if_pos hb]; exact ⟨rfl, rfl⟩)
  | inWrite i b => exact guarded h (by rw [if_pos hb]; exact ⟨rfl, rfl⟩)
  | inRead i => exact guarded h ⟨rfl, rfl⟩
  | outRead i =>
    refine guarded h ?_
    unfold readOutput
    split
    · exact ⟨rfl, rfl⟩
    · exact ⟨rfl, rfl⟩
  | poll thenResult => cases h; exact .inr ⟨rfl, rfl⟩
  | readResult => cases h; exact .inr ⟨rfl, rfl⟩
  | reset => cases h; exact .inl rfl

/-- A step of a running block ends the command, or brings the engine nearer to its end, or takes one of the host accesses due before
the engine's next move (70_reset_and_hazards.md R307). -/
theorem State.Ready.step_past {s t : State} (h : s.Ready) (hb : s.status.busy = true) (he : step s = .next t) :
    t.Past s.phase ∨ (t.phase = s.phase ∧ t.slots < s.slots) := by
  obtain ⟨_, hcourse, _⟩ := h
  cases hturn : engineTurn s with
  | true =>
    rw [step, if_pos hturn] at he
    exact .inl (State.Steered.engineStep_past hcourse hb he)
  | false =>
    have hdue : s.host ≠ [] ∧ s.slots ≠ 0 := by simpa [engineTurn, hb] using hturn
    obtain ⟨a, rest, hh⟩ := List.exists_cons_of_ne_nil hdue.1
    rw [step_host hturn hh] at he
    rcases serve_busy (s := { s with host := rest, slots := s.slots - 1 }) hb he with hidle | ⟨hphase, hslots⟩
    · exact .inl (.inl hidle)
    · exact .inr ⟨hphase, hslots.trans_lt (Nat.sub_one_lt hdue.2)⟩

/-- The engine's moves left, and then the accesses due before its next one, fall with every step, so that BUSY does. -/
theorem State.Ready.ends (s : State) (h : s.Ready) : ∃ n t, Sys2Proof.core.run n s = .next t ∧ t.status.busy = false := by
  cases hb : s.status.busy with
  | false => exact ⟨0, s, rfl, hb⟩
  | true =>
    obtain ⟨t, ht, hready⟩ := readyNeverStops s h
    have hnear := h.step_past hb ht
    cases htb : t.status.busy with
    | false => exact ⟨1, t, run_step ht 0, htb⟩
    | true =>
      obtain ⟨n, u, hrun, hidle⟩ := State.Ready.ends t hready
      exact ⟨n + 1, u, (run_step ht n).trans hrun, hidle⟩
termination_by (movesLeft s.phase, s.slots)
decreasing_by
  rcases hnear with (hidle | hmoves) | ⟨hphase, hslots⟩
  · exact absurd (htb.symm.trans hidle) (by decide)
  · exact Prod.Lex.left _ _ hmoves
  · rw [hphase]; exact Prod.Lex.right _ hslots

/-- Settles O54, by the measure of `State.Ready.ends`. -/
theorem everyCommandEnds : Obligations.EveryCommandEnds := State.Ready.ends

end Sys2Proof.Machine

/-!
The proofs of the statements about faults (60_exceptions.md): what fault entry writes, and that a micro-operation either leaves the
registers of the report alone or ends the command by a fault its own row of R260 names.
-/
namespace Sys2Proof.Machine

/-! ## Fault entry -/

/-- The error codes are 1 to 9 (R260). -/
theorem ErrCode.code_range (e : ErrCode) : 1 ≤ e.code.toNat ∧ e.code.toNat ≤ 9 := by
  cases e <;> decide

/-- Settles O17: `takeFault` is the writes of R270, and `ErrCode.code` is the table of R260. -/
theorem faultEntry : Obligations.FaultEntry := fun e _ _ => ⟨rfl, e.code_range⟩

/-! ## The report of a micro-operation -/

/-- The registers a command reports with: STATUS, OUT_LEN and ERR_INFO (10_state.md section 2). -/
def State.report (s : State) : Status × Word × Word := (s.status, s.outLen, s.errInfo)

/-- A fault that R260 gives to phase `p` has just ended the command, recorded as R270 says. -/
def State.FaultedAt (p : PhaseNum) (t : State) : Prop := ∃ e info, t.reports e p info ∧ (e.code, p) ∈ faultSites

/-- Fault entry in phase `p`, by an error that R260 gives to `p`. -/
theorem faultedAt_of_takeFault {e : ErrCode} {info : Word} {p : PhaseNum} {t u : State} (ht : t = takeFault e info u)
    (hphase : u.phase = p) (hsite : (e.code, p) ∈ faultSites) : t.FaultedAt p := by
  subst ht hphase
  exact ⟨e, info, ⟨rfl, rfl, rfl, rfl⟩, hsite⟩

/-- R260 gives DESERIALIZE each of its faults. -/
theorem readErrors_site : ∀ e ∈ readErrors, (e.code, (0x8#4 : PhaseNum)) ∈ faultSites := by decide

/-- R260 gives DECODE each of its faults. -/
theorem walkErrors_site : ∀ e ∈ walkErrors, (e.code, (0x9#4 : PhaseNum)) ∈ faultSites := by decide

/-- A micro-operation that comes to its end has no register of the report in its frame; one that does not has faulted under its own
number. So BUILD_TREE never meets the empty queue: its pops are from a queue of two entries or more (41_tree_builder.md R143). -/
theorem micro_report {i : Instr} {p : PhaseNum} (s : State) (hi : i.phaseNumber = some p) :
    (pseudocode i s).Does (fun t => t.report = s.report) (State.FaultedAt p) True := by
  cases i with
  | compress => cases hi
  | decompress => cases hi
  | freqScan => exact (freqScan_does s).weaken (fun t ht => (congrArg State.report ht).trans rfl) (fun t ht => ht.elim)
  | pqPush => exact (pqPush_does s).weaken (fun t ⟨ht, _⟩ => (congrArg State.report ht).trans rfl) (fun t ht => ht.elim)
  | pqPopMin =>
    cases hi
    exact (pqPopMin_does s).weaken (fun t ⟨_, ht⟩ => (congrArg State.report ht).trans rfl)
      (fun t ht => faultedAt_of_takeFault ht rfl (by decide))
  | buildTree =>
    cases hi
    exact (buildTree_does s).weaken (fun t ⟨ht, _⟩ => (congrArg State.report ht).trans rfl)
      (fun t ht => faultedAt_of_takeFault ht rfl (by decide))
  | genCodes => exact (genCodes_does s).weaken (fun t ⟨ht, _⟩ => (congrArg State.report ht).trans rfl) (fun t ht => ht.elim)
  | encode =>
    cases hi
    exact (encodeInput_does s).weaken (fun t ht => (congrArg State.report ht).trans rfl)
      (fun t ⟨_, _, ht, hu⟩ => faultedAt_of_takeFault ht (congrArg State.phase hu) (by decide))
  | serialize =>
    cases hi
    exact (serialize_does s).weaken (fun t ⟨ht, _⟩ => (congrArg State.report ht).trans rfl)
      (fun t ⟨_, ht, hu⟩ => faultedAt_of_takeFault ht (congrArg State.phase hu) (by decide))
  | deserialize =>
    cases hi
    exact (deserialize_does s).weaken (fun t ⟨ht, _⟩ => (congrArg State.report ht).trans rfl)
      (fun t ⟨e, _, _, he, ht, hu⟩ => faultedAt_of_takeFault ht (congrArg State.phase hu) (readErrors_site e he))
  | decode =>
    cases hi
    exact (decodePayload_does s).weaken (fun t ht => (congrArg State.report ht.frame).trans rfl)
      (fun t ⟨e, _, _, he, ht, hu⟩ => faultedAt_of_takeFault ht (congrArg State.phase hu.frame) (walkErrors_site e he))

/-- Settles O57 by `micro_report`, which needs the case of a PQ_POP_MIN called from BUILD_TREE for no fault. -/
theorem microOperationFaults : Obligations.MicroOperationFaults := by
  intro i s t p hi hrun
  rw [exec_eq_outcome] at hrun
  rcases (micro_report s hi).next hrun with hkept | ⟨e, info, hreport, hsite⟩
  · simp only [State.report, Prod.mk.injEq] at hkept
    exact .inl hkept
  · exact .inr ⟨e, p, info, hreport, hsite, .inl rfl⟩

end Sys2Proof.Machine

/-!
The proofs of the statements about reset and about the host's accesses to a running block (70_reset_and_hazards.md R300, R301, R303).
-/
namespace Sys2Proof.Machine

/-! ## What the registers hold while BUSY = 1 -/

section Working

variable {s : State} (h : s.Working)
include h

/-- BUSY is the only bit set (10_state.md R23). -/
theorem State.Working.statusWord : s.status.word = 0x00000001#32 := by
  rw [h.running]; decide

theorem State.Working.outLen : s.outLen = 0#32 :=
  h.inv.noResult (by rw [h.running]; decide)

theorem State.Working.errInfo : s.errInfo = 0#32 :=
  h.inv.noInfo (by rw [h.running, running_err])

end Working

/-! ## Register writes that change nothing -/

/-- A register write while BUSY = 1 is taken off the script and changes nothing else, CMD and IN_LEN included (R303). -/
theorem step_regWrite_busy {s : State} {off : Nat} {v : Word} {rest : List Access} (ht : engineTurn s = false)
    (hb : s.status.busy = true) (hoff : regAccessOk 32 off = true) (hh : s.host = .regWrite 32 off v :: rest) :
    step s = .next { s with host := rest, slots := s.slots - 1 } := by
  obtain ⟨_, hfour, hlt⟩ := regAccessOk_iff.1 hoff
  rw [step_host ht hh, serve_regWrite v hfour hlt, if_pos hb]

/-- STATUS, OUT_LEN and ERR_INFO are registers of the register space, and neither CMD nor IN_LEN (10_state.md R22). -/
theorem readOnly_offset {off : Nat} (h : off = 0x04 ∨ off = 0x0C ∨ off = 0x10) :
    off % 4 = 0 ∧ off < 32 ∧ off ≠ 0x00 ∧ off ≠ 0x08 := by
  omega

/-- Settles O12: a running block shows STATUS 1 and no result (`State.Working`), so that each read is one of O9 or O11 with these
values, and every OutRead is at or above OUT_LEN. -/
theorem writesWhileBusyDropped : Obligations.WritesWhileBusyDropped := by
  refine ⟨fun s rest hi hb ht => ?_, fun s rest off v hb hoff hh => ?_⟩
  · have hw := hi.working hb
    obtain ⟨hregRead, _, _, _⟩ := registerSpace s rest ht
    obtain ⟨_, hinWrite, hinRead, _, houtRead, _, _, _⟩ := bufferAccess s rest ht
    refine ⟨fun off v hoff hh => step_regWrite_busy ht hb hoff hh, fun i b hlt hh => hinWrite i b hh hlt hb,
      fun hh => ?_, fun hh => ?_, fun hh => ?_, fun hh => hregRead 0x08 rfl (by decide) hh,
      fun i hlt hh => hinRead i hh hlt, fun i hlt hh => houtRead i hh hlt ?_⟩
    · rw [← hw.statusWord]; exact hregRead 0x04 rfl (by decide) hh
    · rw [hregRead 0x0C rfl (by decide) hh, ← hw.outLen]; rfl
    · rw [hregRead 0x10 rfl (by decide) hh, ← hw.errInfo]; rfl
    · rw [hw.outLen]; exact Nat.zero_le i
  · obtain ⟨_, hignored, _, _⟩ := registerSpace s rest (engineTurn_idle hb)
    obtain ⟨hfour, hlt, hcmd, hlen⟩ := readOnly_offset hoff
    exact hignored off v hfour hlt hcmd hlen hh

/-! ## Reset -/

/-- Reset applies at the host's turn whether a command is running or not (R300, R301). -/
theorem step_reset {s : State} {rest : List Access} (ht : engineTurn s = false) (hh : s.host = .reset :: rest) :
    step s = .next (applyReset { s with host := rest, slots := s.slots - 1 }) :=
  step_host ht hh

theorem applyReset_idle (s : State) : (applyReset s).status.busy = false := rfl

/-- Settles O14: reset leaves the values of O15 in an idle block, and an idle block moves for the host's accesses only. -/
theorem resetEvent : Obligations.ResetEvent := by
  intro s rest hh ht
  obtain ⟨hstatus, hinLen, houtLen, herrInfo, hphase, _⟩ := resetValues
  have hturn := engineTurn_idle (applyReset_idle { s with host := rest, slots := s.slots - 1 })
  exact ⟨_, step_reset ht hh, hstatus, hinLen, houtLen, herrInfo, hphase, rfl, hturn, fun hrest => step_noHost hturn hrest⟩

end Sys2Proof.Machine
